-- ==== Sys2Proof/Word.lean ====
section
/-! DEFINITION. The words of the block (00_scope.md R8, 20_memory.md R40, R42): the host port's 32-bit data word, the
byte of four of the memories, and the 17-bit word index of the port. Bit 0 is the least significant bit everywhere. -/

namespace Sys2Proof

/-- A 32-bit data word of the host port; a command word. -/
abbrev Word := BitVec 32

/-- One codeword: an element of TEXT, MSG, ECB and STREAM; a field element of GF(256). -/
abbrev Byte := BitVec 8

/-- A word index of the host port (20_memory.md R40: `0x00000` to `0x1FFFF`). -/
abbrev Index := BitVec 17

end Sys2Proof
end

