-- ==== Sys2Proof/Syntax.lean ====
section
/-! DEFINITION. The nine commands, one constructor per row of spec/opcode_table.json (30_encoding.md R73). -/

namespace Sys2Proof

/-- A command. The two operands of RSDIV are counts, not bit patterns (30_encoding.md R72: "unsigned and taken as they
stand"), so they are naturals; the widths of their fields are checked by `Instr.wellFormed`. -/
inductive Instr where
  /-- NOP, 46_system.md R187. -/
  | nop
  /-- FMT, 41_formatter.md R110. -/
  | fmt
  /-- RSDIV e, blk, 42_rs_divider.md R120: `e` error-correction codewords into slot `blk` of ECB. -/
  | rsdiv (e blk : Nat)
  /-- RSENC, 42_rs_divider.md R126. -/
  | rsenc
  /-- ILV, 43_interleaver.md R135. -/
  | ilv
  /-- PLACE, 45_placement.md R165. -/
  | place
  /-- ENCODE, 46_system.md R185. -/
  | encode
  /-- CLRERR, 46_system.md R188. -/
  | clrerr
  /-- SRST, 46_system.md R189. -/
  | srst
  deriving DecidableEq, Repr

end Sys2Proof
end

