-- ==== Sys2Proof/WellFormed.lean ====
section
/-! DEFINITION. Which commands a command word can spell (30_encoding.md R71): the operands of RSDIV fit their fields.
Whether `E` is in ESET is NOT a matter of form: such a word spells RSDIV and faults when it runs (R74). -/

namespace Sys2Proof

/-- `E` fits bits 12:8. -/
def fitsE (e : Nat) : Bool := e < 32

/-- `BLK` fits bits 22:16. -/
def fitsBlk (blk : Nat) : Bool := blk < 128

/-- The operands fit the fields of 30_encoding.md R71. -/
def Instr.wellFormed : Instr → Bool
  | .nop => true
  | .fmt => true
  | .rsdiv e blk => fitsE e && fitsBlk blk
  | .rsenc => true
  | .ilv => true
  | .place => true
  | .encode => true
  | .clrerr => true
  | .srst => true

end Sys2Proof
end

