-- ==== Sys2Proof/Decode.lean ====
section
/-! DEFINITION. Command words: the opcode map (30_encoding.md R73), decoding of any 32-bit word with the reason an illegal
one is rejected for (R74), the kind of a command, and the encoder (R71). -/

namespace Sys2Proof

/-- A field of a word: `len` bits from bit `lo` up, as an unsigned number (30_encoding.md R72). -/
def field (w : Word) (lo len : Nat) : Nat := (w >>> lo).toNat % 2 ^ len

/-- The opcode field `w[7:0]`. -/
def opField (w : Word) : Nat := field w 0 8

/-- One row of the opcode map. -/
structure OpRow where
  /-- The `match` column. -/
  pattern : Word
  /-- The `mask` column. -/
  mask : Word
  /-- The command a word of this row spells. -/
  build : Word → Instr

/-- The opcode map of 30_encoding.md R73, in the order of the table. -/
def opcodeMap : List OpRow :=
  [ ⟨0x00000000, 0xFFFFFFFF, fun _ => .nop⟩,
    ⟨0x00000001, 0xFFFFFFFF, fun _ => .fmt⟩,
    ⟨0x00000002, 0xFF80E0FF, fun w => .rsdiv (field w 8 5) (field w 16 7)⟩,
    ⟨0x00000003, 0xFFFFFFFF, fun _ => .rsenc⟩,
    ⟨0x00000004, 0xFFFFFFFF, fun _ => .ilv⟩,
    ⟨0x00000005, 0xFFFFFFFF, fun _ => .place⟩,
    ⟨0x00000006, 0xFFFFFFFF, fun _ => .encode⟩,
    ⟨0x0000000E, 0xFFFFFFFF, fun _ => .clrerr⟩,
    ⟨0x0000000F, 0xFFFFFFFF, fun _ => .srst⟩ ]

/-- "A word spells a command exactly when `(w & mask) = match`" (R73). -/
def OpRow.spells (r : OpRow) (w : Word) : Bool := (w &&& r.mask) == r.pattern

/-- Why a word spells no command (R74). -/
inductive Illegal where
  /-- The opcode is `0x07` to `0x0D` or `0x10` to `0xFF`. -/
  | reservedOpcode (op : Nat)
  /-- The opcode is one of the nine, and a must-be-zero bit is 1. -/
  | mustBeZero (op : Nat)
  deriving DecidableEq, Repr

/-- The reason of an illegal word, from its opcode field. -/
def illegalReason (w : Word) : Illegal :=
  if opcodeMap.any (fun r => opField r.pattern == opField w) then .mustBeZero (opField w)
  else .reservedOpcode (opField w)

/-- The command a word spells, or why it spells none. Total on all words. -/
def decode (w : Word) : Except Illegal Instr :=
  match opcodeMap.find? (fun r => r.spells w) with
  | some r => .ok (r.build w)
  | none => .error (illegalReason w)

/-- The `kind` column of R73: a long command is accepted in one step and completed in another (R76, R77); an immediate
command is performed in the step of the write. -/
def Instr.isLong : Instr → Bool
  | .nop => false
  | .fmt => true
  | .rsdiv _ _ => true
  | .rsenc => true
  | .ilv => true
  | .place => true
  | .encode => true
  | .clrerr => false
  | .srst => false

/-- The word of a command (R71, R80): the opcode, and for RSDIV the fields `E` and `BLK`. -/
def encode : Instr → Word
  | .nop => 0x00000000
  | .fmt => 0x00000001
  | .rsdiv e blk => 0x00000002 ||| (BitVec.ofNat 32 e <<< 8) ||| (BitVec.ofNat 32 blk <<< 16)
  | .rsenc => 0x00000003
  | .ilv => 0x00000004
  | .place => 0x00000005
  | .encode => 0x00000006
  | .clrerr => 0x0000000E
  | .srst => 0x0000000F

/-- The word whose low `nbits` bits are `w`, every bit above them 0; none where they do not fit the one 32-bit word a
command has (R70, R79). -/
def tableWord (nbits w : Nat) : Option Word :=
  if w % 2 ^ nbits < 2 ^ 32 then some (BitVec.ofNat 32 (w % 2 ^ nbits)) else none

/-- The command the decoder reads from the bits of an opcode-table row. A command is one word written whole through a
port without byte lanes (20_memory.md R43), so there is no byte order to apply. -/
def decodeTableWord (nbits w : Nat) : Option Instr :=
  match tableWord nbits w with
  | some word => (decode word).toOption
  | none => none

end Sys2Proof
end

