-- ==== Sys2Proof/Config.lean ====
section
/-! DEFINITION. The types of what an implementation fixes: the parameters of 00_scope.md R6, taken "as a configuration
field whose default is the value given"; and the free values of what the spec leaves open. The default is `Machine.cfg` in
Machine/Rom.lean; the machine reads the field `State.config` (log 13). -/

namespace Sys2Proof

/-- The five memories (10_state.md R35). -/
inductive MemName where
  | text
  | msg
  | ecb
  | stream
  | mat
  deriving DecidableEq, Repr

/-- One row of the version parameter table (10_state.md R32). -/
structure VersionRow where
  /-- The version number `V`. -/
  version : Nat
  /-- Error-correction codewords per block. -/
  e : Nat
  /-- Blocks in group 1. -/
  g1 : Nat
  /-- Data codewords of a group-1 block. -/
  d1 : Nat
  /-- Blocks in group 2. -/
  g2 : Nat
  /-- Data codewords of a group-2 block; 0 and never read when `g2 = 0`. -/
  d2 : Nat
  /-- Remainder-bit count. -/
  rem : Nat
  deriving DecidableEq, Repr

/-- The parameters of 00_scope.md R6: `VPT`, `VSET`, `ESET` and `PRIM`, the last as the contents of the tables that are
built from it. -/
structure Config where
  /-- `PRIM`, the bits of the primitive polynomial; the tables below are its (40_gf256.md R90 to R92). -/
  prim : Nat
  /-- `VPT`; `VSET` is the set of its version numbers (10_state.md R32). -/
  vpt : List VersionRow
  /-- `ALOG`, 256 entries (40_gf256.md R91). -/
  alog : List Nat
  /-- `LOG`, 256 entries; `none` is the undefined entry 0 (40_gf256.md R92, R93). -/
  log : List (Option Nat)
  /-- `GEN`: each `E` of `ESET` with `GEN(E)[0..E]`, in exponent form (40_gf256.md R99, R100). -/
  gen : List (Nat × List Nat)
  deriving DecidableEq, Repr

/-- FREE VALUE (10_state.md R39, 93_implementation_defined.md U3; log 7). What element `i` of memory `m` holds after
power-up number `powerUps` while neither the host nor a command has written it: "any value of the element's width, drawn
at each first read; never 0 by default". No body: nothing can evaluate it. -/
opaque Config.unwritten (powerUps : Nat) (m : MemName) (i : Nat) : BitVec 8

/-- FREE VALUE (70_reset_and_hazards.md R241, 93_implementation_defined.md U8; log 9). What element `i` of memory `m`
holds after hardware reset number `cuts` cut short a command that may write it. -/
opaque Config.cutShort (cuts : Nat) (m : MemName) (i : Nat) : BitVec 8

/-- FREE VALUE (70_reset_and_hazards.md R240, 93_implementation_defined.md U11; log 11). The data of read number `n` made
while `rst` is asserted: "reads return unspecified data". -/
opaque Config.readInReset (n : Nat) : Word

end Sys2Proof
end

