-- ==== Sys2Proof/Machine/Rom.lean ====
section
/-! DEFINITION. What is fixed in every block (00_scope.md R6 "fixed"; the identification word, 10_state.md R21), the
printed defaults of what is a parameter (log 13): the version parameter table (R32), the logarithm and antilogarithm tables
(40_gf256.md R91, R92) and the generator polynomials (R100), as the spec prints them; the lookups in a configuration, the
quantities derived from a row (R33), and when a configuration is well formed. -/

namespace Sys2Proof.Machine

/-- `VPT`, versions 1 to 10 (10_state.md R32): version, `E`, `G1`, `D1`, `G2`, `D2`, `REM`. -/
def vpt0 : List VersionRow :=
  [ ⟨1, 13, 1, 13, 0, 0, 0⟩,
    ⟨2, 22, 1, 22, 0, 0, 7⟩,
    ⟨3, 18, 2, 17, 0, 0, 7⟩,
    ⟨4, 26, 2, 24, 0, 0, 7⟩,
    ⟨5, 18, 2, 15, 2, 16, 7⟩,
    ⟨6, 24, 4, 19, 0, 0, 7⟩,
    ⟨7, 18, 2, 14, 4, 15, 0⟩,
    ⟨8, 22, 4, 18, 2, 19, 0⟩,
    ⟨9, 20, 4, 16, 4, 17, 0⟩,
    ⟨10, 24, 6, 19, 2, 20, 0⟩ ]

/-- `VPT`, versions 11 to 20 (10_state.md R32): version, `E`, `G1`, `D1`, `G2`, `D2`, `REM`. -/
def vpt1 : List VersionRow :=
  [ ⟨11, 28, 4, 22, 4, 23, 0⟩,
    ⟨12, 26, 4, 20, 6, 21, 0⟩,
    ⟨13, 24, 8, 20, 4, 21, 0⟩,
    ⟨14, 20, 11, 16, 5, 17, 3⟩,
    ⟨15, 30, 5, 24, 7, 25, 3⟩,
    ⟨16, 24, 15, 19, 2, 20, 3⟩,
    ⟨17, 28, 1, 22, 15, 23, 3⟩,
    ⟨18, 28, 17, 22, 1, 23, 3⟩,
    ⟨19, 26, 17, 21, 4, 22, 3⟩,
    ⟨20, 30, 15, 24, 5, 25, 3⟩ ]

/-- `VPT`, versions 21 to 30 (10_state.md R32): version, `E`, `G1`, `D1`, `G2`, `D2`, `REM`. -/
def vpt2 : List VersionRow :=
  [ ⟨21, 28, 17, 22, 6, 23, 4⟩,
    ⟨22, 30, 7, 24, 16, 25, 4⟩,
    ⟨23, 30, 11, 24, 14, 25, 4⟩,
    ⟨24, 30, 11, 24, 16, 25, 4⟩,
    ⟨25, 30, 7, 24, 22, 25, 4⟩,
    ⟨26, 28, 28, 22, 6, 23, 4⟩,
    ⟨27, 30, 8, 23, 26, 24, 4⟩,
    ⟨28, 30, 4, 24, 31, 25, 3⟩,
    ⟨29, 30, 1, 23, 37, 24, 3⟩,
    ⟨30, 30, 15, 24, 25, 25, 3⟩ ]

/-- `VPT`, versions 31 to 40 (10_state.md R32): version, `E`, `G1`, `D1`, `G2`, `D2`, `REM`. -/
def vpt3 : List VersionRow :=
  [ ⟨31, 30, 42, 24, 1, 25, 3⟩,
    ⟨32, 30, 10, 24, 35, 25, 3⟩,
    ⟨33, 30, 29, 24, 19, 25, 3⟩,
    ⟨34, 30, 44, 24, 7, 25, 3⟩,
    ⟨35, 30, 39, 24, 14, 25, 0⟩,
    ⟨36, 30, 46, 24, 10, 25, 0⟩,
    ⟨37, 30, 49, 24, 10, 25, 0⟩,
    ⟨38, 30, 48, 24, 14, 25, 0⟩,
    ⟨39, 30, 43, 24, 22, 25, 0⟩,
    ⟨40, 30, 34, 24, 34, 25, 0⟩ ]

/-- `ALOG` (40_gf256.md R91), entries 0 to 63. -/
def alogRom0 : List Nat :=
  [ 1, 2, 4, 8, 16, 32, 64, 128, 29, 58, 116, 232, 205, 135, 19, 38,
    76, 152, 45, 90, 180, 117, 234, 201, 143, 3, 6, 12, 24, 48, 96, 192,
    157, 39, 78, 156, 37, 74, 148, 53, 106, 212, 181, 119, 238, 193, 159, 35,
    70, 140, 5, 10, 20, 40, 80, 160, 93, 186, 105, 210, 185, 111, 222, 161 ]

/-- `ALOG` (40_gf256.md R91), entries 64 to 127. -/
def alogRom1 : List Nat :=
  [ 95, 190, 97, 194, 153, 47, 94, 188, 101, 202, 137, 15, 30, 60, 120, 240,
    253, 231, 211, 187, 107, 214, 177, 127, 254, 225, 223, 163, 91, 182, 113, 226,
    217, 175, 67, 134, 17, 34, 68, 136, 13, 26, 52, 104, 208, 189, 103, 206,
    129, 31, 62, 124, 248, 237, 199, 147, 59, 118, 236, 197, 151, 51, 102, 204 ]

/-- `ALOG` (40_gf256.md R91), entries 128 to 191. -/
def alogRom2 : List Nat :=
  [ 133, 23, 46, 92, 184, 109, 218, 169, 79, 158, 33, 66, 132, 21, 42, 84,
    168, 77, 154, 41, 82, 164, 85, 170, 73, 146, 57, 114, 228, 213, 183, 115,
    230, 209, 191, 99, 198, 145, 63, 126, 252, 229, 215, 179, 123, 246, 241, 255,
    227, 219, 171, 75, 150, 49, 98, 196, 149, 55, 110, 220, 165, 87, 174, 65 ]

/-- `ALOG` (40_gf256.md R91), entries 192 to 255. -/
def alogRom3 : List Nat :=
  [ 130, 25, 50, 100, 200, 141, 7, 14, 28, 56, 112, 224, 221, 167, 83, 166,
    81, 162, 89, 178, 121, 242, 249, 239, 195, 155, 43, 86, 172, 69, 138, 9,
    18, 36, 72, 144, 61, 122, 244, 245, 247, 243, 251, 235, 203, 139, 11, 22,
    44, 88, 176, 125, 250, 233, 207, 131, 27, 54, 108, 216, 173, 71, 142, 1 ]

/-- `LOG` (40_gf256.md R92), entries 0 to 63. -/
def logRom0 : List (Option Nat) :=
  [ none, some 0, some 1, some 25, some 2, some 50, some 26, some 198, some 3, some 223, some 51, some 238, some 27, some 104, some 199, some 75,
    some 4, some 100, some 224, some 14, some 52, some 141, some 239, some 129, some 28, some 193, some 105, some 248, some 200, some 8, some 76, some 113,
    some 5, some 138, some 101, some 47, some 225, some 36, some 15, some 33, some 53, some 147, some 142, some 218, some 240, some 18, some 130, some 69,
    some 29, some 181, some 194, some 125, some 106, some 39, some 249, some 185, some 201, some 154, some 9, some 120, some 77, some 228, some 114, some 166 ]

/-- `LOG` (40_gf256.md R92), entries 64 to 127. -/
def logRom1 : List (Option Nat) :=
  [ some 6, some 191, some 139, some 98, some 102, some 221, some 48, some 253, some 226, some 152, some 37, some 179, some 16, some 145, some 34, some 136,
    some 54, some 208, some 148, some 206, some 143, some 150, some 219, some 189, some 241, some 210, some 19, some 92, some 131, some 56, some 70, some 64,
    some 30, some 66, some 182, some 163, some 195, some 72, some 126, some 110, some 107, some 58, some 40, some 84, some 250, some 133, some 186, some 61,
    some 202, some 94, some 155, some 159, some 10, some 21, some 121, some 43, some 78, some 212, some 229, some 172, some 115, some 243, some 167, some 87 ]

/-- `LOG` (40_gf256.md R92), entries 128 to 191. -/
def logRom2 : List (Option Nat) :=
  [ some 7, some 112, some 192, some 247, some 140, some 128, some 99, some 13, some 103, some 74, some 222, some 237, some 49, some 197, some 254, some 24,
    some 227, some 165, some 153, some 119, some 38, some 184, some 180, some 124, some 17, some 68, some 146, some 217, some 35, some 32, some 137, some 46,
    some 55, some 63, some 209, some 91, some 149, some 188, some 207, some 205, some 144, some 135, some 151, some 178, some 220, some 252, some 190, some 97,
    some 242, some 86, some 211, some 171, some 20, some 42, some 93, some 158, some 132, some 60, some 57, some 83, some 71, some 109, some 65, some 162 ]

/-- `LOG` (40_gf256.md R92), entries 192 to 255. -/
def logRom3 : List (Option Nat) :=
  [ some 31, some 45, some 67, some 216, some 183, some 123, some 164, some 118, some 196, some 23, some 73, some 236, some 127, some 12, some 111, some 246,
    some 108, some 161, some 59, some 82, some 41, some 157, some 85, some 170, some 251, some 96, some 134, some 177, some 187, some 204, some 62, some 90,
    some 203, some 89, some 95, some 176, some 156, some 169, some 160, some 81, some 11, some 245, some 22, some 235, some 122, some 117, some 44, some 215,
    some 79, some 174, some 213, some 233, some 230, some 231, some 173, some 232, some 116, some 214, some 244, some 234, some 168, some 80, some 88, some 175 ]

/-- `GEN(E)[0..E]` for each `E` of `ESET`, in exponent form (40_gf256.md R100). -/
def genRom : List (Nat × List Nat) :=
  [ (7, [0, 87, 229, 146, 149, 238, 102, 21]),
    (10, [0, 251, 67, 46, 61, 118, 70, 64, 94, 32, 45]),
    (13, [0, 74, 152, 176, 100, 86, 100, 106, 104, 130, 218, 206, 140, 78]),
    (15, [0, 8, 183, 61, 91, 202, 37, 51, 58, 58, 237, 140, 124, 5, 99, 105]),
    (16, [0, 120, 104, 107, 109, 102, 161, 76, 3, 91, 191, 147, 169, 182, 194, 225, 120]),
    (17, [0, 43, 139, 206, 78, 43, 239, 123, 206, 214, 147, 24, 99, 150, 39, 243, 163, 136]),
    (18, [0, 215, 234, 158, 94, 184, 97, 118, 170, 79, 187, 152, 148, 252, 179, 5, 98, 96, 153]),
    (20, [0, 17, 60, 79, 50, 61, 163, 26, 187, 202, 180, 221, 225, 83, 239, 156, 164, 212, 212, 188, 190]),
    (22, [0, 210, 171, 247, 242, 93, 230, 14, 109, 221, 53, 200, 74, 8, 172, 98, 80, 219, 134, 160, 105, 165, 231]),
    (24, [0, 229, 121, 135, 48, 211, 117, 251, 126, 159, 180, 169, 152, 192, 226, 228, 218, 111, 0, 117, 232, 87, 96, 227, 21]),
    (26, [0, 173, 125, 158, 2, 103, 182, 118, 17, 145, 201, 111, 28, 165, 53, 161, 21, 245, 142, 13, 102, 48, 227, 153, 145, 218, 70]),
    (28, [0, 168, 223, 200, 104, 224, 234, 108, 180, 110, 190, 195, 147, 205, 27, 232, 201, 21, 43, 245, 87, 42, 195, 212, 119, 242, 37, 9, 123]),
    (30, [0, 41, 173, 145, 152, 216, 31, 179, 182, 50, 48, 110, 86, 239, 96, 222, 125, 42, 173, 226, 193, 224, 130, 156, 37, 251, 216, 238, 40, 192, 180]) ]

/-- `ID` (10_state.md R21). -/
def identWord : Word := 0x54515207

/-- `MASKSEL` (00_scope.md R6, fixed), the index of the one supported mask (45_placement.md R167). -/
def maskSel : Nat := 1

/-- The default configuration: the values 00_scope.md R6 gives. `VSET` is {1, ..., 40} and `ESET` the thirteen lengths of
`genRom`. -/
def cfg : Config :=
  { prim := 0x11D,
    vpt := vpt0 ++ vpt1 ++ vpt2 ++ vpt3,
    alog := alogRom0 ++ alogRom1 ++ alogRom2 ++ alogRom3,
    log := logRom0 ++ logRom1 ++ logRom2 ++ logRom3,
    gen := genRom }

/-- `VPT(V)`; none when `V` is not in `VSET`. -/
def versionRow (c : Config) (v : Nat) : Option VersionRow := c.vpt.find? (fun r => r.version == v)

/-- `GEN(E)`; none when `E` is not in `ESET`. -/
def genPoly (c : Config) (e : Nat) : Option (List Nat) := (c.gen.find? (fun g => g.1 == e)).map (fun g => g.2)

end Sys2Proof.Machine

namespace Sys2Proof

/-! The derived quantities of a row (10_state.md R33). -/

/-- `B(V)`: blocks. -/
def VersionRow.blocks (r : VersionRow) : Nat := r.g1 + r.g2

/-- `N(V)`: data codewords. -/
def VersionRow.dataCount (r : VersionRow) : Nat := r.g1 * r.d1 + r.g2 * r.d2

/-- `T(V)`: all codewords. -/
def VersionRow.total (r : VersionRow) : Nat := r.dataCount + r.blocks * r.e

/-- `S(V)`: the side of the symbol in modules. -/
def VersionRow.side (r : VersionRow) : Nat := 4 * r.version + 17

/-- `budget(V)`: the bit-steps of the placement walk. -/
def VersionRow.budget (r : VersionRow) : Nat := 8 * r.total + r.rem

/-- `d(b)`: data codewords of block `b`. -/
def VersionRow.blockLen (r : VersionRow) (b : Nat) : Nat := if b < r.g1 then r.d1 else r.d2

/-- `off(b)`: where block `b` begins in MSG; the blocks are consecutive slices. -/
def VersionRow.blockOff (r : VersionRow) (b : Nat) : Nat :=
  if b < r.g1 then b * r.d1 else r.g1 * r.d1 + (b - r.g1) * r.d2

/-- `Dmax`: the longest block (43_interleaver.md R137, the form "for a `VPT` taken as a parameter"). -/
def VersionRow.dMax (r : VersionRow) : Nat := if r.g2 > 0 then max r.d1 r.d2 else r.d1

/-- `VSET`: the versions that have a row (10_state.md R32). -/
def Config.vset (c : Config) : List Nat := c.vpt.map (fun r => r.version)

/-- `ESET`: the lengths that have a generator (40_gf256.md R99). -/
def Config.eset (c : Config) : List Nat := c.gen.map (fun g => g.1)

/-! When a configuration is one the block may have. -/

/-- The well-formedness of a row that a model may assume (10_state.md R33), but for the count of the skeleton's free
cells; `eset` is the list of `ESET`. -/
def VersionRow.wf (eset : List Nat) (r : VersionRow) : Bool :=
  decide (1 ≤ r.blocks ∧ r.blocks ≤ 128 ∧ r.e ≤ 30 ∧ r.dataCount ≤ 2048 ∧ r.total ≤ 4096 ∧ 1 ≤ r.d1 ∧
    (r.g2 = 0 ∨ r.d1 ≤ r.d2) ∧ r.rem ≤ 7 ∧ 1 ≤ r.version ∧ r.version ≤ 40) && eset.contains r.e

/-- A generator polynomial in exponent form (40_gf256.md R99): degree `E`, at most 30 (10_state.md R36), leading
coefficient 1, entries 0..254. -/
def genWf (g : Nat × List Nat) : Bool :=
  decide (g.2.length = g.1 + 1 ∧ 1 ≤ g.1 ∧ g.1 ≤ 30 ∧ (∀ x ∈ g.2, x < 255) ∧ g.2.headD 1 = 0)

/-- One step of the recurrence of ALOG (40_gf256.md R91): twice the entry, reduced by the primitive polynomial. -/
def alogNext (prim x : Nat) : Nat := if x * 2 < 256 then x * 2 else (x * 2) ^^^ prim

/-- ALOG is the table of R91 for `PRIM`, with nonzero bytes. -/
def Config.alogWf (c : Config) : Bool :=
  c.alog.getD 0 0 == 1 &&
    (List.range 254).all (fun e => c.alog.getD (e + 1) 0 == alogNext c.prim (c.alog.getD e 0)) &&
    (List.range 255).all (fun e => decide (1 ≤ c.alog.getD e 0 ∧ c.alog.getD e 0 < 256))

/-- LOG is the inverse of ALOG on 1..255 and has no value at 0 (R92, R93). -/
def Config.logWf (c : Config) : Bool :=
  c.log.getD 0 none == none && (List.range 255).all (fun e => c.log.getD (c.alog.getD e 0) none == some e) &&
    (List.range 255).all (fun y => match c.log.getD (y + 1) none with
      | some l => decide (l < 255) && c.alog.getD l 0 == y + 1
      | none => false)

/-- The configuration is well formed: what R33 lets a model assume of the rows, and what R91, R92 and R99 say of the
tables. -/
def Config.wf (c : Config) : Bool := c.vpt.all (VersionRow.wf c.eset) && c.gen.all genWf && c.alogWf && c.logWf

end Sys2Proof
end

