-- ==== Sys2Proof/Machine/State.lean ====
section
/-! DEFINITION. The state of the block (10_state.md R10) as plain data, the outside events still to come, the faults the
block records, the model's own stops, and the state after power-up and reset (R37, R38, 70_reset_and_hazards.md R240,
R242). -/

namespace Sys2Proof.Machine

/-- The sequencer (10_state.md R16): what stands in a program counter's place. -/
inductive Seq where
  | idle
  /-- `RUN(w)`: the long command spelled by the word `w` is in execution. -/
  | run (w : Word)
  | faulted
  deriving DecidableEq, Repr

/-- The five memories (10_state.md R35), each a list of (element index, value) pairs with the indices strictly rising. An
element that is not listed has not been written since power-up and holds no value of its own (R39). A cell of MAT is the
two low bits of its byte: bit 0 `dark`, bit 1 `rsv` (20_memory.md R52; log 15). -/
structure Memory where
  text : List Host.Cell
  msg : List Host.Cell
  ecb : List Host.Cell
  stream : List Host.Cell
  mat : List Host.Cell
  deriving DecidableEq, Repr

/-- What the outside does to the block, one atomic event each (20_memory.md R55; log 2). -/
inductive Event where
  /-- `HostWrite(a, v)` (20_memory.md R45). -/
  | write (a : Index) (v : Word)
  /-- `HostRead(a)`, the value going to the log (20_memory.md R44, 30_encoding.md R80). -/
  | read (a : Index)
  /-- `WAIT`: the host polls STATUS until BUSY is 0 (30_encoding.md R82; log 5). -/
  | wait
  /-- Time passes and the engine takes its step, if one is enabled (20_memory.md R56; log 4). -/
  | engine
  /-- `rst` is asserted (70_reset_and_hazards.md R240, R241; log 11). -/
  | assertReset
  /-- `rst` is released (R240). -/
  | releaseReset
  /-- Power is removed and restored (60_exceptions.md R221; log 12). -/
  | powerUp
  deriving DecidableEq, Repr

/-- The whole state. The fields down to `mem` are the spec's (10_state.md R10), and so is the level of `rst`
(70_reset_and_hazards.md R240); `config` is the parameters of the block, which no step changes; the fields after it are the
model's. -/
structure State where
  /-- R16. -/
  seq : Seq
  /-- `STATUS.BUSY`, R11. -/
  busy : Bool
  /-- `STATUS.DONE`, R12. -/
  done : Bool
  /-- `STATUS.ERR`, R13. -/
  err : Bool
  /-- `STATUS.HZD`, R14. -/
  hzd : Bool
  /-- `ERRCODE`, R24. -/
  errcode : BitVec 4
  /-- `ERRINFO`, R25. -/
  errinfo : BitVec 32
  /-- `IE`: bit 0 `IE.DONE`, bit 1 `IE.ERR`, R31. -/
  ie : BitVec 2
  /-- `VER`, R26. -/
  ver : BitVec 6
  /-- `TLEN`, R27. -/
  tlen : BitVec 16
  /-- `MASK`, R28. -/
  mask : BitVec 3
  /-- `RSRC`, R29. -/
  rsrc : BitVec 11
  /-- `RLEN`, R30. -/
  rlen : BitVec 12
  /-- TEXT, MSG, ECB, STREAM, MAT, R35. -/
  mem : Memory
  /-- The level of the input `rst`: asserted (70_reset_and_hazards.md R240; log 11). -/
  rst : Bool
  /-- The parameters of 00_scope.md R6 (log 13). No step changes them: "the same in every state" (40_gf256.md R94). -/
  config : Config
  /-- Power-ups so far: the argument of the free value an unwritten element reads as (R39; log 8). -/
  powerUps : Nat
  /-- Hardware resets so far that cut a command short: the argument of the free value of R241 (log 10). -/
  cuts : Nat
  /-- Reads made while `rst` was asserted so far: the argument of the free value they return (R240; log 25). -/
  resetReads : Nat
  /-- The events still to come, the next one first (log 2). -/
  inputs : List Event
  /-- The values host reads returned, oldest first (log 6). -/
  log : List Word
  deriving DecidableEq, Repr

/-- The faults of 60_exceptions.md R200. Taking one is a NEXT state (`takeFault`), not a stop of the model. -/
inductive Cause where
  | capacityExceeded
  | unsupportedVersion
  /-- Never raised (R203). -/
  | allocationFailure
  /-- Never raised (R207). -/
  | renderFailure
  | illegalCommand
  | badOperand
  | unsupportedMask
  | geometryMismatch
  deriving DecidableEq, Repr

/-- How the pseudocode of a command ends: at its end, or at a `raise` with its information word; in both cases with the
memories as they stand then (30_encoding.md R77, 60_exceptions.md R212, R213, 46_system.md R190). -/
inductive Ran where
  | ended (m : Memory)
  | raised (m : Memory) (c : Cause) (info : Word)
  deriving DecidableEq, Repr

/-- The named registers of the host port (10_state.md R20). -/
inductive Reg where
  | ident
  | cmd
  | status
  | errcode
  | errinfo
  | ie
  | ver
  | tlen
  | mask
  | rsrc
  | rlen
  | ndata
  | ntotal
  | side
  deriving DecidableEq, Repr

/-- What a word index names (20_memory.md R41). -/
inductive Target where
  | reg (r : Reg)
  | elem (m : MemName) (i : Nat)
  | reserved
  deriving DecidableEq, Repr

/-- The stops of the model. The block has none: "Nothing in this block is `stuck`" (93_implementation_defined.md). -/
inductive Fault where
  /-- Raised by the engine's step when `seq = RUN(w)` and `w` spells no long command. No transition of 10_state.md R17
  leads to such a state, and R77 gives it no successor. Safe: the machine stops, and nothing is claimed (log 16). -/
  | runHoldsNoCommand (w : Word)
  deriving DecidableEq, Repr

/-- Why a command has no meaning. -/
inductive Refusal where
  /-- Raised by `exec` for a command that is not modelled. No arm raises it: all nine commands are modelled. Safe. -/
  | notModelled (mnemonic : String)
  deriving DecidableEq, Repr

/-- Memories with no element written: their contents after power-up (10_state.md R38). -/
def Memory.empty : Memory := { text := [], msg := [], ecb := [], stream := [], mat := [] }

/-- The state after power-up and hardware reset (10_state.md R37, R38; 70_reset_and_hazards.md R240, R242): every
register at the value R37 states, no memory element written, `rst` released (log 11), the printed parameters (00_scope.md
R6; log 13), no event waiting (log 1), counters at 0 (logs 8, 10, 25). -/
def State.reset : State :=
  { seq := .idle, busy := false, done := false, err := false, hzd := false, errcode := 0, errinfo := 0, ie := 0,
    ver := 0, tlen := 0, mask := 1, rsrc := 0, rlen := 0, mem := Memory.empty, rst := false, config := cfg,
    powerUps := 0, cuts := 0, resetReads := 0, inputs := [], log := [] }

end Sys2Proof.Machine
end

