-- ==== Sys2Proof/Machine/Ops.lean ====
section
/-! DEFINITION. The shared operations over memories and registers: reading and writing one element (20_memory.md R42,
R49), accepting and completing a command (30_encoding.md R76, R77), TAKING A FAULT (60_exceptions.md R212) and leaving the
faulted state (R214), and putting the registers at their reset values (10_state.md R37). -/

namespace Sys2Proof.Machine

/-! ### Memory elements -/

/-- The value a list of cells holds at an index, if any. -/
def lookup : List Host.Cell → Nat → Option Byte
  | [], _ => none
  | (a, v) :: t, i => if i = a then some v else lookup t i

/-- The list with `v` at index `i`, in rising order. -/
def insertCell : List Host.Cell → Nat → Byte → List Host.Cell
  | [], i, v => [(i, v)]
  | (a, w) :: t, i, v =>
    if i < a then (i, v) :: (a, w) :: t
    else if i = a then (i, v) :: t
    else (a, w) :: insertCell t i v

/-- The cells of one memory. -/
def Memory.cells (M : Memory) : MemName → List Host.Cell
  | .text => M.text
  | .msg => M.msg
  | .ecb => M.ecb
  | .stream => M.stream
  | .mat => M.mat

/-- The memories with the cells of one replaced. -/
def Memory.withCells (M : Memory) (m : MemName) (l : List Host.Cell) : Memory :=
  match m with
  | .text => { M with text := l }
  | .msg => { M with msg := l }
  | .ecb => { M with ecb := l }
  | .stream => { M with stream := l }
  | .mat => { M with mat := l }

/-- The bits an element has (20_memory.md R42): 8, and 2 for a cell of MAT. -/
def widthMask : MemName → Byte
  | .text => 0xFF
  | .msg => 0xFF
  | .ecb => 0xFF
  | .stream => 0xFF
  | .mat => 0x03

/-- Whether a memory has an element of this index (10_state.md R35, 20_memory.md R41). -/
def implemented : MemName → Nat → Bool
  | .text, i => i < 256
  | .msg, i => i < 2048
  | .ecb, i => i < 4096
  | .stream, i => i < 4096
  | .mat, i => i / 256 ≤ 176 && i % 256 ≤ 176

/-- The value written to an element since power-up, if any. -/
def Memory.get? (M : Memory) (m : MemName) (i : Nat) : Option Byte := lookup (M.cells m) i

/-- `e <- v`: the element takes the bits of `v` it has, the others are ignored (R42). -/
def Memory.put (M : Memory) (m : MemName) (i : Nat) (v : Byte) : Memory :=
  M.withCells m (insertCell (M.cells m) i (v &&& widthMask m))

/-- Consecutive elements from index `i` up take the bytes of a list. -/
def Memory.putAll (M : Memory) (m : MemName) (i : Nat) : List Byte → Memory
  | [] => M
  | v :: vs => (M.put m i v).putAll m (i + 1) vs

/-- What an element reads as: the value written, or the free value while nothing was (10_state.md R39; log 7). -/
def Memory.elem (M : Memory) (powerUps : Nat) (m : MemName) (i : Nat) : Byte :=
  match M.get? m i with
  | some v => v
  | none => Config.unwritten powerUps m i &&& widthMask m

/-- The canonical form of one memory's cells: indices strictly rising. -/
def rising : List Host.Cell → Bool
  | [] => true
  | [_] => true
  | (a, _) :: (b, w) :: t => decide (a < b) && rising ((b, w) :: t)

/-- A cell that memory `m` can hold: its index is implemented and its value has no bit the element lacks. -/
def cellFits (m : MemName) (c : Host.Cell) : Bool := implemented m c.1 && ((c.2 &&& widthMask m) == c.2)

/-- One memory is in canonical form. An unlisted element holds no value, so no entry can equal what one reads as. -/
def Memory.wfOf (M : Memory) (m : MemName) : Bool := rising (M.cells m) && (M.cells m).all (cellFits m)

/-- The canonical form of the memories. -/
def Memory.wf (M : Memory) : Bool := M.wfOf .text && M.wfOf .msg && M.wfOf .ecb && M.wfOf .stream && M.wfOf .mat

/-- What element `i` of memory `m` reads as in a state. -/
def State.elem (s : State) (m : MemName) (i : Nat) : Byte := s.mem.elem s.powerUps m i

/-- The state with other memories. -/
def State.setMem (s : State) (M : Memory) : State := { s with mem := M }

/-! ### The life of a command -/

/-- `STATUS.HZD <- 1`: a host access was dropped (10_state.md R14). -/
def State.setHzd (s : State) : State := { s with hzd := true }

/-- Acceptance of a long command (30_encoding.md R76): "nothing else changes in that step". -/
def State.accept (s : State) (w : Word) : State := { s with seq := .run w, busy := true, done := false }

/-- Completion without a fault (30_encoding.md R77): all the memory writes, and the flags. -/
def State.complete (s : State) (M : Memory) : State := { s with mem := M, busy := false, done := true, seq := .idle }

/-- The code of a fault in ERRCODE (60_exceptions.md R200). -/
def Cause.code : Cause → BitVec 4
  | .capacityExceeded => 1
  | .unsupportedVersion => 2
  | .allocationFailure => 3
  | .renderFailure => 4
  | .illegalCommand => 5
  | .badOperand => 6
  | .unsupportedMask => 7
  | .geometryMismatch => 8

/-- FAULT ENTRY (60_exceptions.md R212), and nothing else: no vector, no saved context, no memory. -/
def State.takeFault (s : State) (c : Cause) (info : Word) : State :=
  { s with seq := .faulted, err := true, done := false, busy := false, errcode := c.code, errinfo := info }

/-- Leaving the faulted state (60_exceptions.md R214, the clearing part of 46_system.md R188). Nothing is restored, since
nothing was saved. -/
def State.leaveFaulted (s : State) : State := { s with seq := .idle, err := false, errcode := 0, errinfo := 0 }

/-- `STATUS.DONE <- 1` of an immediate command (46_system.md R187, R188). -/
def State.setDone (s : State) : State := { s with done := true }

/-- Every register takes its reset value; memories are kept (10_state.md R37, R38). -/
def State.resetRegisters (s : State) : State :=
  { s with seq := .idle, busy := false, done := false, err := false, hzd := false, errcode := 0, errinfo := 0, ie := 0,
           ver := 0, tlen := 0, mask := 1, rsrc := 0, rlen := 0 }

/-- The engine's one step on a command whose pseudocode ended as `r` (30_encoding.md R77, 60_exceptions.md R212): all its
writes and the flags of completion, or the writes of the completed stages and fault entry. -/
def State.finish (s : State) : Ran → State
  | .ended M => s.complete M
  | .raised M c info => (s.setMem M).takeFault c info

/-- The next stage of a command runs where the one before it ended, and not at all after a `raise` (46_system.md R185,
R190). -/
def Ran.andThen (r : Ran) (s : State) (stage : State → Ran) : Ran :=
  match r with
  | .ended M => stage (s.setMem M)
  | .raised M c info => .raised M c info

/-! ### The model's own fields -/

/-- The state with `rst` at a level. -/
def State.setRst (s : State) (b : Bool) : State := { s with rst := b }

/-- A transfer that reads while `rst` is asserted returned its unspecified data (70_reset_and_hazards.md R240; log 25). -/
def State.countResetRead (s : State) : State := { s with resetReads := s.resetReads + 1 }

/-- The state with other events to come. -/
def State.withInputs (s : State) (l : List Event) : State := { s with inputs := l }

/-- A value a host read returned goes to the log. -/
def State.record (s : State) (v : Word) : State := { s with log := s.log ++ [v] }

end Sys2Proof.Machine
end

