-- ==== Sys2Proof/Machine/Flags.lean ====
section
/-! DEFINITION. The flags: the STATUS word and the host's write to it (10_state.md R23), and the interrupt output
(60_exceptions.md R210). The block has no arithmetic flags (R15); what commands do to the four status bits is in Ops. -/

namespace Sys2Proof.Machine

/-- A flag as a one-bit number. -/
def bit (b : Bool) : BitVec 1 := BitVec.ofBool b

/-- The STATUS register as the host reads it (R23): bit 0 BUSY, bit 1 DONE, bit 2 ERR, bit 3 HZD, the rest 0. -/
def State.status (s : State) : Word := (bit s.hzd ++ bit s.err ++ bit s.done ++ bit s.busy).setWidth 32

/-- A host write to STATUS (R23): writing 1 clears DONE (bit 1) and HZD (bit 3); every other bit is ignored. -/
def State.writeStatus (s : State) (v : Word) : State :=
  { s with done := s.done && !v.getLsbD 1, hzd := s.hzd && !v.getLsbD 3 }

/-- `IE.DONE` (R31). -/
def State.ieDone (s : State) : Bool := s.ie.getLsbD 0

/-- `IE.ERR` (R31). -/
def State.ieErr (s : State) : Bool := s.ie.getLsbD 1

/-- The interrupt output (60_exceptions.md R210): a pure function of four register bits. -/
def State.irq (s : State) : Bool := (s.ieDone && s.done) || (s.ieErr && s.err)

end Sys2Proof.Machine
end

