-- ==== Sys2Proof/Machine/Operands.lean ====
section
/-! DEFINITION. Operands: the version's row (60_exceptions.md R202), the engine's access forms (20_memory.md R50), the
cells of the matrix (R52), the host port's address map and registers (R41, 10_state.md R20, R34), and the elements each
command writes (20_memory.md R53). -/

namespace Sys2Proof.Machine

/-! ### The version -/

/-- `VPT(VER)`; none when VER is not in VSET. -/
def State.row (s : State) : Option VersionRow := versionRow s.config s.ver.toNat

/-- The first check of every command that reads VER (60_exceptions.md R202): without a row, UnsupportedVersion with
`ERRINFO[5:0] = VER`, before anything else. -/
def withVersion (s : State) (body : VersionRow → Ran) : Ran :=
  match s.row with
  | none => .raised s.mem .unsupportedVersion (s.ver.setWidth 32)
  | some r => body r

/-! ### The engine's access forms (20_memory.md R50) -/

/-- The text lookup `t(i)` (41_formatter.md R111): TEXT[i] below the length `l`, and the constant 0, without any memory
access, from there on. -/
def State.textAt (s : State) (l i : Nat) : Byte := if i < l then s.elem .text i else 0

/-- Message byte, and block data byte with the block's base added: `MSG[i]`. -/
def State.msgAt (s : State) (i : Nat) : Byte := s.elem .msg i

/-- The index in ECB of codeword `i` of block `b` (10_state.md R35). -/
def ecbIndex (b i : Nat) : Nat := b * 32 + i

/-- Error codeword `i` of block `b`. -/
def State.ecbAt (s : State) (b i : Nat) : Byte := s.elem .ecb (ecbIndex b i)

/-- Stream byte `STREAM[i]`. -/
def State.streamAt (s : State) (i : Nat) : Byte := s.elem .stream i

/-- Stream bit number `k`: bit `7 - (k mod 8)` of `STREAM[k div 8]` (20_memory.md R43, 45_placement.md R172). -/
def State.streamBit (s : State) (k : Nat) : Bool := (s.streamAt (k / 8)).getLsbD (7 - k % 8)

/-- The index in MAT of the cell of a row and a column. -/
def cellIndex (row col : Nat) : Nat := row * 256 + col

/-- The `dark` bit of a cell (20_memory.md R52). -/
def State.dark (s : State) (row col : Nat) : Bool := (s.elem .mat (cellIndex row col)).getLsbD 0

/-- The `rsv` bit of a cell. -/
def State.rsv (s : State) (row col : Nat) : Bool := (s.elem .mat (cellIndex row col)).getLsbD 1

/-- A cell's two bits as an element of MAT. -/
def cellByte (rsv dark : Bool) : Byte := (bit rsv ++ bit dark).setWidth 8

/-- `MAT[row][col].dark <- d`: the `rsv` bit is kept. -/
def State.setDark (s : State) (row col : Nat) (d : Bool) : State :=
  s.setMem (s.mem.put .mat (cellIndex row col) (cellByte (s.rsv row col) d))

/-- The cells of the `n × n` square, row 0 first. -/
def squareCells (n : Nat) : List (Nat × Nat) :=
  (List.range n).flatMap (fun r => (List.range n).map (fun c => (r, c)))

/-- The number of free cells of the `n × n` square (45_placement.md R169); it reads `rsv` bits only. -/
def State.freeCount (s : State) (n : Nat) : Nat := (squareCells n).countP (fun c => !s.rsv c.1 c.2)

/-! ### The host port -/

/-- The register at an index (10_state.md R20); none for the reserved `0xE` and `0xF`. -/
def regAt : Nat → Option Reg
  | 0x0 => some .ident
  | 0x1 => some .cmd
  | 0x2 => some .status
  | 0x3 => some .errcode
  | 0x4 => some .errinfo
  | 0x5 => some .ie
  | 0x6 => some .ver
  | 0x7 => some .tlen
  | 0x8 => some .mask
  | 0x9 => some .rsrc
  | 0xA => some .rlen
  | 0xB => some .ndata
  | 0xC => some .ntotal
  | 0xD => some .side
  | _ => none

/-- The word index of a memory's element 0 (20_memory.md R41). -/
def memBase : MemName → Nat
  | .text => 0x00100
  | .msg => 0x00800
  | .ecb => 0x01000
  | .stream => 0x02000
  | .mat => 0x10000

/-- The number of indices of a memory's window (R41). -/
def memWindow : MemName → Nat
  | .text => 0x100
  | .msg => 0x800
  | .ecb => 0x1000
  | .stream => 0x1000
  | .mat => 0x10000

/-- The element of memory `m` that word index `a` names, if any. -/
def elemAt (m : MemName) (a : Nat) : Option Target :=
  if memBase m ≤ a ∧ a < memBase m + memWindow m ∧ implemented m (a - memBase m) = true then
    some (.elem m (a - memBase m))
  else none

/-- The map of the word index space (20_memory.md R41). -/
def target (a : Index) : Target :=
  match (regAt a.toNat).map Target.reg <|> elemAt .text a.toNat <|> elemAt .msg a.toNat <|> elemAt .ecb a.toNat <|>
      elemAt .stream a.toNat <|> elemAt .mat a.toNat with
  | some t => t
  | none => .reserved

/-- The word a host read of a register returns (10_state.md R20 to R34), zero-extended; CMD reads 0 (R22); the
information registers are functions of VER (R34). DESIGN CHOICE (log 26): where a well-formed table has N = 2048 or
T = 4096, which R33 allows and the widths of R20 do not hold, NDATA or NTOTAL reads the whole number, not its low bits. -/
def State.readReg (s : State) : Reg → Word
  | .ident => identWord
  | .cmd => 0
  | .status => s.status
  | .errcode => s.errcode.setWidth 32
  | .errinfo => s.errinfo
  | .ie => s.ie.setWidth 32
  | .ver => s.ver.setWidth 32
  | .tlen => s.tlen.setWidth 32
  | .mask => s.mask.setWidth 32
  | .rsrc => s.rsrc.setWidth 32
  | .rlen => s.rlen.setWidth 32
  | .ndata => match s.row with
    | some r => BitVec.ofNat 32 r.dataCount
    | none => 0
  | .ntotal => match s.row with
    | some r => BitVec.ofNat 32 r.total
    | none => 0
  | .side => match s.row with
    | some r => BitVec.ofNat 32 r.side
    | none => 0

/-! ### What a command writes (20_memory.md R53) -/

/-- The elements `i, i+1, ..., i+n-1` of a memory. -/
def rangeOf (m : MemName) (i n : Nat) : List (MemName × Nat) := (List.range n).map (fun j => (m, i + j))

/-- The error codewords of every block of a version. -/
def ecbElems (r : VersionRow) : List (MemName × Nat) :=
  (List.range r.blocks).flatMap (fun b => rangeOf .ecb (ecbIndex b 0) r.e)

/-- The free cells of a version's square. -/
def State.freeElems (s : State) (r : VersionRow) : List (MemName × Nat) :=
  ((squareCells r.side).filter (fun c => !s.rsv c.1 c.2)).map (fun c => (.mat, cellIndex c.1 c.2))

/-- The elements a command may write, for the operands in the registers (20_memory.md R53); none for a version without a
row, which writes nothing (R202). -/
def State.mayWrite (s : State) : Instr → List (MemName × Nat)
  | .nop => []
  | .fmt => match s.row with
    | some r => rangeOf .msg 0 r.dataCount
    | none => []
  | .rsdiv e blk => rangeOf .ecb (ecbIndex blk 0) e
  | .rsenc => match s.row with
    | some r => ecbElems r
    | none => []
  | .ilv => match s.row with
    | some r => rangeOf .stream 0 r.total
    | none => []
  | .place => match s.row with
    | some r => s.freeElems r
    | none => []
  | .encode => match s.row with
    | some r => rangeOf .msg 0 r.dataCount ++ ecbElems r ++ rangeOf .stream 0 r.total ++ s.freeElems r
    | none => []
  | .clrerr => []
  | .srst => []

end Sys2Proof.Machine
end

