-- ==== Sys2Proof/Machine/Gf256.lean ====
section
/-! DEFINITION. GF(256) arithmetic through the two tables of a configuration (40_gf256.md R90 to R96). -/

namespace Sys2Proof.Machine

/-- `ALOG[e]` (R91). -/
def alog (c : Config) (e : Nat) : Byte := BitVec.ofNat 8 (c.alog.getD e 0)

/-- `LOG[x]` (R92), a partial function: none at 0, where "it must not return a number" (R93, R249; log 14). -/
def logOf (c : Config) (x : Byte) : Option Nat := c.log.getD x.toNat none

/-- Exponent addition modulo 255 (R95). -/
def expadd (g l : Nat) : Nat := if g + l ≥ 255 then g + l - 255 else g + l

/-- Addition and subtraction of field elements (R90). -/
def gfadd (a b : Byte) : Byte := a ^^^ b

/-- Multiplication (R96): the test for zero comes first, so `LOG[0]` is not read. -/
def gfmul (c : Config) (a b : Byte) : Byte :=
  match logOf c a, logOf c b with
  | some x, some y => alog c (expadd x y)
  | _, _ => 0

end Sys2Proof.Machine
end

