-- ==== Sys2Proof/Machine/Divide.lean ====
section
/-! DEFINITION. The polynomial divider: RSDIV and RSENC (42_rs_divider.md). -/

namespace Sys2Proof.Machine

/-- The initial load of the shift register: the first `E` data codewords, zero-extended (R122). -/
def rsLoad (data : Nat → Byte) (d e : Nat) : List Byte :=
  (List.range e).map (fun j => if j < d then data j else 0)

/-- Shift left by one position; `next` enters at the end (R122). -/
def rsShift (R : List Byte) (next : Byte) : List Byte := R.drop 1 ++ [next]

/-- The exclusive-or with the generator's terms `GEN(E)[1..E]` times the leading coefficient. Where the lead is 0 there is
no logarithm and the step is a pure shift (R123): `logOf lead` is none exactly there. -/
def rsReduce (c : Config) (g : List Nat) (lead : Byte) (R : List Byte) : List Byte :=
  match logOf c lead with
  | none => R
  | some l => List.zipWith (fun x gi => x ^^^ alog c (expadd gi l)) R (g.drop 1)

/-- Iteration `k` (R122). -/
def rsStep (c : Config) (g : List Nat) (data : Nat → Byte) (d e : Nat) (R : List Byte) (k : Nat) : List Byte :=
  rsReduce c g (R.headD 0) (rsShift R (if k + e < d then data (k + e) else 0))

/-- `rsdiv` (R122): `D` iterations on the data codewords `data 0 .. data (D-1)` with the generator `g = GEN(E)`. -/
def rsdiv (c : Config) (g : List Nat) (data : Nat → Byte) (d e : Nat) : List Byte :=
  (List.range d).foldl (rsStep c g data d e) (rsLoad data d e)

/-- The operand check of RSDIV (R121): no generator for `E`, or a slice that leaves MSG. -/
def badOperands (s : State) (e : Nat) : Bool := (genPoly s.config e).isNone || s.rsrc.toNat + s.rlen.toNat > 2048

/-- The remainder RSDIV writes (R120). -/
def rsdivResult (s : State) (e : Nat) : List Byte :=
  rsdiv s.config ((genPoly s.config e).getD []) (fun j => s.msgAt (s.rsrc.toNat + j)) s.rlen.toNat e

/-- The pseudocode of RSDIV (R120). The information word of the fault is the command word (R121; log 18). -/
def rsdivBody (e blk : Nat) (s : State) : Ran :=
  if badOperands s e then .raised s.mem .badOperand (encode (.rsdiv e blk))
  else .ended (s.mem.putAll .ecb (ecbIndex blk 0) (rsdivResult s e))

/-- RSDIV (R120, 30_encoding.md R77). -/
def execRsdiv (e blk : Nat) (s : State) : Host.Outcome State Fault Refusal := .next (s.finish (rsdivBody e blk s))

/-- The error-correction codewords of block `b` (R126). -/
def blockRemainder (s : State) (r : VersionRow) (b : Nat) : List Byte :=
  rsdiv s.config ((genPoly s.config r.e).getD []) (fun j => s.msgAt (r.blockOff b + j)) (r.blockLen b) r.e

/-- The writes of RSENC, block after block (R126). MSG is only read, so every block sees the same data. -/
def rsencMemory (s : State) (r : VersionRow) : Memory :=
  (List.range r.blocks).foldl (fun M b => M.putAll .ecb (ecbIndex b 0) (blockRemainder s r b)) s.mem

/-- The pseudocode of RSENC (R126). -/
def rsencBody (s : State) : Ran := withVersion s fun r => .ended (rsencMemory s r)

/-- RSENC (R126, 30_encoding.md R77). -/
def execRsenc (s : State) : Host.Outcome State Fault Refusal := .next (s.finish (rsencBody s))

end Sys2Proof.Machine
end

