-- ==== Sys2Proof/Machine/Interleave.lean ====
section
/-! DEFINITION. The codeword interleaver: ILV (43_interleaver.md). -/

namespace Sys2Proof.Machine

/-- Round `i` of the data part: byte `i` of each block that has one, in block order (R135, R136). -/
def dataRound (s : State) (r : VersionRow) (i : Nat) : List Byte :=
  ((List.range r.blocks).filter (fun b => i < r.blockLen b)).map (fun b => s.msgAt (r.blockOff b + i))

/-- Round `i` of the error-correction part: codeword `i` of each block (R138). -/
def ecRound (s : State) (r : VersionRow) (i : Nat) : List Byte := (List.range r.blocks).map (fun b => s.ecbAt b i)

/-- `STREAM[0..T-1]`: the data part, then the error-correction part (R135). -/
def interleaved (s : State) (r : VersionRow) : List Byte :=
  (List.range r.dMax).flatMap (dataRound s r) ++ (List.range r.e).flatMap (ecRound s r)

/-- The pseudocode of ILV (R135). -/
def ilvBody (s : State) : Ran := withVersion s fun r => .ended (s.mem.putAll .stream 0 (interleaved s r))

/-- ILV (R135, 30_encoding.md R77). -/
def execIlv (s : State) : Host.Outcome State Fault Refusal := .next (s.finish (ilvBody s))

end Sys2Proof.Machine
end

