-- ==== Sys2Proof/Machine/Format.lean ====
section
/-! DEFINITION. The message formatter: FMT (41_formatter.md). -/

namespace Sys2Proof.Machine

/-- `((a & 0xF) << 4) | (b >> 4)`: the low nibble of the earlier byte, then the high nibble of the later one (R113). -/
def packNibbles (a b : Byte) : Byte := ((a &&& 0x0F) <<< 4) ||| (b >>> 4)

/-- Pad byte number `j` (R114). -/
def padByte (j : Nat) : Byte := if j % 2 = 0 then 0xEC else 0x11

/-- The first two bytes: the mode nibble `0b0100` and the 8-bit count `L`, high bit first, then the high nibble of the
first text byte (R110, R113). -/
def headBytes (s : State) (l : Nat) : List Byte :=
  [0x40 ||| (BitVec.ofNat 8 l >>> 4), packNibbles (BitVec.ofNat 8 l) (s.textAt l 0)]

/-- `MSG[2+i]`, `0 <= i < L` (R110). -/
def payloadBytes (s : State) (l : Nat) : List Byte :=
  (List.range l).map (fun i => packNibbles (s.textAt l i) (s.textAt l (i + 1)))

/-- The pad bytes up to `N` (R114). -/
def padBytes (l n : Nat) : List Byte := (List.range (n - l - 2)).map padByte

/-- `MSG[0..N-1]` (R110). -/
def formatted (s : State) (l n : Nat) : List Byte := headBytes s l ++ payloadBytes s l ++ padBytes l n

/-- The capacity test (R112). -/
def exceedsCapacity (l n : Nat) : Bool := l > 255 || l + 2 > n

/-- A pair of 16-bit numbers as an information word, the first in bits 31:16. -/
def infoPair (hi lo : Nat) : Word := BitVec.ofNat 16 hi ++ BitVec.ofNat 16 lo

/-- The pseudocode of FMT (R110). -/
def fmtBody (s : State) : Ran :=
  withVersion s fun r =>
    if exceedsCapacity s.tlen.toNat r.dataCount then
      .raised s.mem .capacityExceeded (infoPair r.dataCount s.tlen.toNat)
    else .ended (s.mem.putAll .msg 0 (formatted s s.tlen.toNat r.dataCount))

/-- FMT (R110, 30_encoding.md R77). -/
def execFmt (s : State) : Host.Outcome State Fault Refusal := .next (s.finish (fmtBody s))

end Sys2Proof.Machine
end

