-- ==== Sys2Proof/Machine/Place.lean ====
section
/-! DEFINITION. The bit-placement engine: PLACE (45_placement.md). -/

namespace Sys2Proof.Machine

/-- The strips of the walk from right-hand column `right` on (R165, R171): the right-hand column and the direction of each,
until no column is left. Column 6 is never a right-hand column. `fuel` bounds the number of strips. -/
def strips : Nat → Nat → Bool → List (Nat × Bool)
  | 0, _, _ => []
  | fuel + 1, right, up =>
    if right = 0 then []
    else
      let col := if right = 6 then 5 else right
      (col, up) :: strips fuel (col - 2) (!up)

/-- The cells one strip passes (R171): row by row, upward from the bottom or downward from the top, the right-hand cell
before the left-hand one. -/
def stripCells (n : Nat) (strip : Nat × Bool) : List (Nat × Nat) :=
  (List.range n).flatMap fun vert =>
    let row := if strip.2 then n - 1 - vert else vert
    [(row, strip.1), (row, strip.1 - 1)]

/-- Every cell the walk passes on an `n × n` matrix, in order (R165, R171). -/
def route (n : Nat) : List (Nat × Nat) := (strips n (n - 1) true).flatMap (stripCells n)

/-- The mask predicate: row index even (R168). -/
def maskApplies (row : Nat) : Bool := row % 2 == 0

/-- The payload of bit-step `k`: the stream bit while `k < 8*T`, then 0 (R172). -/
def payloadBit (s : State) (t k : Nat) : Bool := if k < 8 * t then s.streamBit k else false

/-- One candidate cell of the walk (R165): a reserved cell is passed over; a free one takes the next payload bit, masked,
and the counter goes up. -/
def placeCell (t : Nat) (at_ : State × Nat) (cell : Nat × Nat) : State × Nat :=
  if at_.1.rsv cell.1 cell.2 then at_
  else
    (at_.1.setDark cell.1 cell.2 (xor (payloadBit at_.1 t at_.2) (maskApplies cell.1)), at_.2 + 1)

/-- The walk (R165): the state and the bit-step counter at its end. -/
def placeWalk (s : State) (r : VersionRow) : State × Nat := (route r.side).foldl (placeCell r.total) (s, 0)

/-- The pseudocode of PLACE (R165): the version, the mask (R167) and the geometry (R169) are checked, in this order, before
any cell is written. -/
def placeBody (s : State) : Ran :=
  withVersion s fun r =>
    if s.mask.toNat ≠ maskSel then .raised s.mem .unsupportedMask (s.mask.setWidth 32)
    else if s.freeCount r.side ≠ r.budget then
      .raised s.mem .geometryMismatch (infoPair r.budget (s.freeCount r.side))
    else .ended (placeWalk s r).1.mem

/-- PLACE (R165, 30_encoding.md R77). -/
def execPlace (s : State) : Host.Outcome State Fault Refusal := .next (s.finish (placeBody s))

end Sys2Proof.Machine
end

