-- ==== Sys2Proof/Machine/System.lean ====
section
/-! DEFINITION. The pipeline command and the system commands: ENCODE, NOP, CLRERR, SRST (46_system.md). -/

namespace Sys2Proof.Machine

/-- The pseudocode of ENCODE (R185, R190): the bodies of four commands, each seeing the writes of the ones before it; the
first `raise` ends the whole. -/
def encodeBody (s : State) : Ran :=
  (((fmtBody s).andThen s rsencBody).andThen s ilvBody).andThen s placeBody

/-- ENCODE (R185, 30_encoding.md R77). -/
def execEncode (s : State) : Host.Outcome State Fault Refusal := .next (s.finish (encodeBody s))

/-- NOP (R187). -/
def execNop (s : State) : Host.Outcome State Fault Refusal := .next s.setDone

/-- CLRERR (R188). -/
def execClrerr (s : State) : Host.Outcome State Fault Refusal := .next s.leaveFaulted.setDone

/-- SRST (R189). -/
def execSrst (s : State) : Host.Outcome State Fault Refusal := .next s.resetRegisters

end Sys2Proof.Machine
end

