-- ==== Sys2Proof/Machine/Dispatch.lean ====
section
/-! DEFINITION. What each command does: one arm per constructor of `Instr`. For a long command this is the engine's step
of 30_encoding.md R77; for an immediate one it is what the accepting step performs (log 17). Which words are accepted, and
when, is `Machine.writeCmd` (R75). -/

namespace Sys2Proof.Machine

def exec (i : Instr) (s : State) : Host.Outcome State Fault Refusal :=
  match i with
  | .nop => Sys2Proof.Machine.execNop s
  | .fmt => Sys2Proof.Machine.execFmt s
  | .rsdiv e blk => Sys2Proof.Machine.execRsdiv e blk s
  | .rsenc => Sys2Proof.Machine.execRsenc s
  | .ilv => Sys2Proof.Machine.execIlv s
  | .place => Sys2Proof.Machine.execPlace s
  | .encode => Sys2Proof.Machine.execEncode s
  | .clrerr => Sys2Proof.Machine.execClrerr s
  | .srst => Sys2Proof.Machine.execSrst s

end Sys2Proof.Machine
end

