-- ==== Sys2Proof/Machine/Port.lean ====
section
/-! DEFINITION. What the outside does to the block: the host's two transfers (20_memory.md R44 to R47), the handling of a
command word (30_encoding.md R75 to R78), WAIT (R82), the engine's turn, hardware reset (70_reset_and_hazards.md R240,
R241), the transfers made while it is asserted (R240) and power-up (60_exceptions.md R221). -/

namespace Sys2Proof.Machine

/-- A word written to CMD, by the state at the instant of the write (30_encoding.md R75). -/
def writeCmd (s : State) (w : Word) : Host.Outcome State Fault Refusal :=
  if s.busy then .next s.setHzd
  else if s.err then
    if w = 0x0000000E then exec .clrerr s
    else if w = 0x0000000F then exec .srst s
    else .next s.setHzd
  else
    match decode w with
    | .ok i => if i.isLong then .next (s.accept w) else exec i s
    | .error _ => .next (s.takeFault .illegalCommand w)

/-- A write to an operand register or a memory element: dropped with HZD while BUSY (20_memory.md R46). -/
def unlessBusy (s t : State) : State := if s.busy then s.setHzd else t

/-- A host write to a register (20_memory.md R45). -/
def writeReg (s : State) (r : Reg) (v : Word) : Host.Outcome State Fault Refusal :=
  match r with
  | .cmd => writeCmd s v
  | .status => .next (s.writeStatus v)
  | .ie => .next { s with ie := v.setWidth 2 }
  | .ver => .next (unlessBusy s { s with ver := v.setWidth 6 })
  | .tlen => .next (unlessBusy s { s with tlen := v.setWidth 16 })
  | .mask => .next (unlessBusy s { s with mask := v.setWidth 3 })
  | .rsrc => .next (unlessBusy s { s with rsrc := v.setWidth 11 })
  | .rlen => .next (unlessBusy s { s with rlen := v.setWidth 12 })
  | .ident => .next s
  | .errcode => .next s
  | .errinfo => .next s
  | .ndata => .next s
  | .ntotal => .next s
  | .side => .next s

/-- `HostWrite(a, v)` (20_memory.md R45). An element takes the low bits of `v` it has (R42). -/
def hostWrite (s : State) (a : Index) (v : Word) : Host.Outcome State Fault Refusal :=
  match target a with
  | .reg r => writeReg s r v
  | .elem m i => .next (unlessBusy s (s.setMem (s.mem.put m i (v.setWidth 8))))
  | .reserved => .next s

/-- The word `HostRead(a)` returns (20_memory.md R44): an element reads 0 while BUSY. -/
def hostReadValue (s : State) (a : Index) : Word :=
  match target a with
  | .reg r => s.readReg r
  | .elem m i => if s.busy then 0 else (s.elem m i).setWidth 32
  | .reserved => 0

/-- What `HostRead(a)` does to the block: nothing, but for HZD in the dropped case (R44). -/
def hostReadEffect (s : State) (a : Index) : State :=
  match target a with
  | .reg _ => s
  | .elem _ _ => unlessBusy s s
  | .reserved => s

/-- `HostRead(a)`, the value going to the program's log (30_encoding.md R80; log 6). -/
def hostRead (s : State) (a : Index) : State := (hostReadEffect s a).record (hostReadValue s a)

/-- The engine's turn: its one step is enabled exactly in `RUN(w)` (30_encoding.md R77, 20_memory.md R55); elsewhere the
block "does nothing and changes nothing" (60_exceptions.md R221; log 4). -/
def engineTurn (s : State) : Host.Outcome State Fault Refusal :=
  match s.seq with
  | .run w =>
    match decode w with
    | .ok i => if i.isLong then exec i s else .fault (.runHoldsNoCommand w)
    | .error _ => .fault (.runHoldsNoCommand w)
  | .idle => .next s
  | .faulted => .next s

/-- One element takes the free value of a cut-short command; of a cell only its `dark` bit, the one a command may write
(70_reset_and_hazards.md R241; log 9). -/
def scrub (cuts : Nat) (s : State) (e : MemName × Nat) : State :=
  match e.1 with
  | .mat => s.setMem (s.mem.put .mat e.2
      ((s.elem .mat e.2 &&& 0x02) ||| (Config.cutShort cuts .mat e.2 &&& 0x01)))
  | m => s.setMem (s.mem.put m e.2 (Config.cutShort cuts m e.2))

/-- Every element the command of word `w` may write becomes unspecified (R241). -/
def abandon (s : State) (w : Word) : State :=
  match decode w with
  | .ok i => { (s.mayWrite i).foldl (scrub s.cuts) s with cuts := s.cuts + 1 }
  | .error _ => s

/-- Hardware reset (70_reset_and_hazards.md R240, R241): registers at their reset values; memories kept, but for what an
abandoned command may write. -/
def hardReset (s : State) : State :=
  match s.seq with
  | .run w => (abandon s w).resetRegisters
  | .idle => s.resetRegisters
  | .faulted => s.resetRegisters

/-- `rst` is asserted: the state of R240, which it keeps until `rst` is released (log 11). -/
def assertReset (s : State) : State := (hardReset s).setRst true

/-- `rst` is released: the state is the one R240 gives for "the instant it is released", where it stands already. -/
def releaseReset (s : State) : State := s.setRst false

/-- `HostRead` while `rst` is asserted: no effect, unspecified data (R240; log 25). -/
def readInReset (s : State) : State := (s.record (Config.readInReset s.resetReads)).countResetRead

/-- One poll of WAIT while `rst` is asserted, `rest` being the events after the WAIT: the data polled is unspecified
(R240), and the WAIT is over where its BUSY bit is 0 (30_encoding.md R82; log 5). -/
def pollInReset (s : State) (rest : List Event) : State :=
  if (Config.readInReset s.resetReads).getLsbD 0 then s.countResetRead else (s.withInputs rest).countResetRead

/-- A new power-up (60_exceptions.md R221, 10_state.md R38; log 12): registers at their reset values, every element
unspecified anew, `rst` released as in `State.reset`. -/
def powerUp (s : State) : State :=
  { s.resetRegisters with mem := Memory.empty, rst := false, powerUps := s.powerUps + 1 }

/-- What the next event `e` does, `rest` being the events after it. WAIT stays in place while BUSY is 1 and the engine
moves, and is over when BUSY is 0 (30_encoding.md R82; log 5); every other event is used up. While `rst` is asserted "host
transfers have no effect and reads return unspecified data" (70_reset_and_hazards.md R240). -/
def occur (s : State) (rest : List Event) (e : Event) : Host.Outcome State Fault Refusal :=
  match e with
  | .write a v => if s.rst then .next (s.withInputs rest) else hostWrite (s.withInputs rest) a v
  | .read a => .next (if s.rst then readInReset (s.withInputs rest) else hostRead (s.withInputs rest) a)
  | .wait => if s.rst then .next (pollInReset s rest) else if s.busy then engineTurn s else .next (s.withInputs rest)
  | .engine => engineTurn (s.withInputs rest)
  | .assertReset => .next (assertReset (s.withInputs rest))
  | .releaseReset => .next (releaseReset (s.withInputs rest))
  | .powerUp => .next (powerUp (s.withInputs rest))

/-- The word index of CMD (10_state.md R22). -/
def cmdIndex : Index := 0x1

/-- The word `w` is about to be handled as a command word in IDLE with `rst` released (log 1): a long command stands accepted (30_encoding.md
R76) and the engine's turn is next; any other word is about to be written to CMD. -/
def present (s : State) (w : Word) : State :=
  let idle : State := { s.leaveFaulted with busy := false, rst := false }
  match decode w with
  | .ok i =>
    if i.isLong then (idle.accept w).withInputs (.engine :: s.inputs)
    else idle.withInputs (.write cmdIndex w :: s.inputs)
  | .error _ => idle.withInputs (.write cmdIndex w :: s.inputs)

end Sys2Proof.Machine
end

