-- ==== Sys2Proof/Machine/Step.lean ====
section
/-! DEFINITION. One step of the system: the next outside event, or, with none waiting, the engine's turn (20_memory.md R55,
R56; logs 2, 3). -/

namespace Sys2Proof.Machine

/-- One step. -/
def step (s : State) : Host.Outcome State Fault Refusal :=
  match s.inputs with
  | [] => engineTurn s
  | e :: rest => occur s rest e

/-- The state in which the very next step runs the command of the low `nbits` bits of `w` (log 1). The block fetches
nothing (10_state.md R16, 20_memory.md R57): a command comes from the host's write to CMD, and this stands for it. -/
def State.withFetchWord (s : State) (nbits w : Nat) : State := present s (BitVec.ofNat 32 (w % 2 ^ nbits))

end Sys2Proof.Machine
end

