-- ==== Sys2Proof/Machine/Skeleton.lean ====
section
/-! DEFINITION. The reference skeleton SKEL(V) the host loads before PLACE (44_matrix_skeleton.md R145 to R159). It is the
host's, no part of the block (00_scope.md R5): no step of the machine uses this file (log 22). -/

namespace Sys2Proof.Machine

/-- `|a - b|`. -/
def apart (a b : Nat) : Nat := if a ≤ b then b - a else a - b

/-- The ring of a cell around a centre: the larger of the distances in rows and in columns. -/
def ringAround (c centre : Nat × Nat) : Nat := max (apart c.1 centre.1) (apart c.2 centre.2)

/-- The centres of the three finder patterns (R148). -/
def finderCentres (n : Nat) : List (Nat × Nat) := [(3, 3), (3, n - 4), (n - 4, 3)]

/-- Finder patterns and their separators (R148, R149): rings 0, 1, 3 dark, ring 2 light, the separator ring 4 light. -/
def finderStamp (n : Nat) (c : Nat × Nat) : Option Bool :=
  ((finderCentres n).find? (fun p => ringAround c p ≤ 4)).map
    (fun p => ringAround c p != 2 && ringAround c p != 4)

/-- The coordinates of versions 1 to 10 (R150). -/
def alignCoords0 : List (List Nat) :=
  [ [],
    [6, 18],
    [6, 22],
    [6, 26],
    [6, 30],
    [6, 34],
    [6, 22, 38],
    [6, 24, 42],
    [6, 26, 46],
    [6, 28, 50] ]

/-- The coordinates of versions 11 to 20 (R150). -/
def alignCoords1 : List (List Nat) :=
  [ [6, 30, 54],
    [6, 32, 58],
    [6, 34, 62],
    [6, 26, 46, 66],
    [6, 26, 48, 70],
    [6, 26, 50, 74],
    [6, 30, 54, 78],
    [6, 30, 56, 82],
    [6, 30, 58, 86],
    [6, 34, 62, 90] ]

/-- The coordinates of versions 21 to 30 (R150). -/
def alignCoords2 : List (List Nat) :=
  [ [6, 28, 50, 72, 94],
    [6, 26, 50, 74, 98],
    [6, 30, 54, 78, 102],
    [6, 28, 54, 80, 106],
    [6, 32, 58, 84, 110],
    [6, 30, 58, 86, 114],
    [6, 34, 62, 90, 118],
    [6, 26, 50, 74, 98, 122],
    [6, 30, 54, 78, 102, 126],
    [6, 26, 52, 78, 104, 130] ]

/-- The coordinates of versions 31 to 40 (R150). -/
def alignCoords3 : List (List Nat) :=
  [ [6, 30, 56, 82, 108, 134],
    [6, 34, 60, 86, 112, 138],
    [6, 30, 58, 86, 114, 142],
    [6, 34, 62, 90, 118, 146],
    [6, 30, 54, 78, 102, 126, 150],
    [6, 24, 50, 76, 102, 128, 154],
    [6, 28, 54, 80, 106, 132, 158],
    [6, 32, 58, 84, 110, 136, 162],
    [6, 26, 54, 82, 110, 138, 166],
    [6, 30, 58, 86, 114, 142, 170] ]

/-- The alignment-pattern centre coordinates of a version (R150). -/
def alignCoords (v : Nat) : List Nat :=
  (alignCoords0 ++ alignCoords1 ++ alignCoords2 ++ alignCoords3).getD (v - 1) []

/-- The centres of the alignment patterns (R151): all pairs but the three at the finders. -/
def alignCentres (v : Nat) : List (Nat × Nat) :=
  let l := alignCoords v
  let last := l.getLastD 0
  (l.flatMap (fun a => l.map (fun b => (a, b)))).filter
    (fun p => p != (6, 6) && p != (6, last) && p != (last, 6))

/-- Alignment patterns (R151): rings 0 and 2 dark, ring 1 light. -/
def alignStamp (v : Nat) (c : Nat × Nat) : Option Bool :=
  ((alignCentres v).find? (fun p => ringAround c p ≤ 2)).map (fun p => ringAround c p != 1)

/-- Timing patterns (R152): row 6 and column 6 between the separators, dark at even indices. -/
def timingStamp (n : Nat) (c : Nat × Nat) : Option Bool :=
  if c.1 = 6 ∧ 8 ≤ c.2 ∧ c.2 ≤ n - 9 then some (c.2 % 2 == 0)
  else if c.2 = 6 ∧ 8 ≤ c.1 ∧ c.1 ≤ n - 9 then some (c.1 % 2 == 0)
  else none

/-- The format words of level Q by mask index (R154). -/
def formatWords : List Nat := [ 0x355F, 0x3068, 0x3F31, 0x3A06, 0x24B4, 0x2183, 0x2EDA, 0x2BED ]

/-- Bit `i` of the format word of the one supported mask. -/
def formatBit (i : Nat) : Bool := (formatWords.getD maskSel 0).testBit i

/-- Format information (R154): copy 1 around the top-left finder, copy 2 beside the other two. -/
def formatStamp (n : Nat) (c : Nat × Nat) : Option Bool :=
  if c.2 = 8 then
    if c.1 ≤ 5 then some (formatBit c.1)
    else if c.1 = 7 then some (formatBit 6)
    else if c.1 = 8 then some (formatBit 7)
    else if n - 7 ≤ c.1 ∧ c.1 < n then some (formatBit (c.1 + 15 - n))
    else none
  else if c.1 = 8 then
    if c.2 = 7 then some (formatBit 8)
    else if c.2 ≤ 5 then some (formatBit (14 - c.2))
    else if n - 8 ≤ c.2 ∧ c.2 < n then some (formatBit (n - 1 - c.2))
    else none
  else none

/-- The dark module (R153). -/
def darkModuleStamp (n : Nat) (c : Nat × Nat) : Option Bool := if c = (n - 8, 8) then some true else none

/-- The 18-bit version words, versions 7 to 40 (R155). -/
def versionWords : List Nat :=
  [ 0x07C94, 0x085BC, 0x09A99, 0x0A4D3, 0x0BBF6, 0x0C762, 0x0D847, 0x0E60D,
    0x0F928, 0x10B78, 0x1145D, 0x12A17, 0x13532, 0x149A6, 0x15683, 0x168C9,
    0x177EC, 0x18EC4, 0x191E1, 0x1AFAB, 0x1B08E, 0x1CC1A, 0x1D33F, 0x1ED75,
    0x1F250, 0x209D5, 0x216F0, 0x228BA, 0x2379F, 0x24B0B, 0x2542E, 0x26A64,
    0x27541, 0x28C69 ]

/-- Bit `i` of the version word of `v`. -/
def versionBit (v i : Nat) : Bool := (versionWords.getD (v - 7) 0).testBit i

/-- Version information (R155), versions 7 and up: two 6 by 3 areas. -/
def versionStamp (v n : Nat) (c : Nat × Nat) : Option Bool :=
  if v < 7 then none
  else if n - 11 ≤ c.1 ∧ c.1 ≤ n - 9 ∧ c.2 ≤ 5 then some (versionBit v (3 * c.2 + (c.1 + 11 - n)))
  else if n - 11 ≤ c.2 ∧ c.2 ≤ n - 9 ∧ c.1 ≤ 5 then some (versionBit v (3 * c.1 + (c.2 + 11 - n)))
  else none

/-- The stamp of a cell of SKEL(V), if it is structural: `some dark` (R156, R157). No two stamps give one cell different
values, so their order does not matter. -/
def skelStamp (v : Nat) (c : Nat × Nat) : Option Bool :=
  let n := 4 * v + 17
  finderStamp n c <|> alignStamp v c <|> timingStamp n c <|> darkModuleStamp n c <|> formatStamp n c <|>
    versionStamp v n c

/-- A cell of SKEL(V) as an element of MAT: a structural cell is reserved, every other one free and light (R145). -/
def skelByte (v : Nat) (c : Nat × Nat) : Byte :=
  match skelStamp v c with
  | some d => cellByte true d
  | none => cellByte false false

/-- SKEL(V) as the cells of MAT, in rising order. -/
def skelCells (v : Nat) : List Host.Cell :=
  (squareCells (4 * v + 17)).map (fun c => (cellIndex c.1 c.2, skelByte v c))

end Sys2Proof.Machine
end

