-- ==== Sys2Proof/Machine/Assembler.lean ====
section
/-! DEFINITION. The host's program notation (30_encoding.md R80 to R82) as lists of events. It is the host's, no part of
the block: no step of the machine uses this file (log 22). -/

namespace Sys2Proof.Machine

/-- The word index of a register (10_state.md R20). -/
def regIndex : Reg → Index
  | .ident => 0x0
  | .cmd => 0x1
  | .status => 0x2
  | .errcode => 0x3
  | .errinfo => 0x4
  | .ie => 0x5
  | .ver => 0x6
  | .tlen => 0x7
  | .mask => 0x8
  | .rsrc => 0x9
  | .rlen => 0xA
  | .ndata => 0xB
  | .ntotal => 0xC
  | .side => 0xD

/-- The word index of element `i` of a memory (20_memory.md R41). -/
def elemIndex (m : MemName) (i : Nat) : Index := BitVec.ofNat 17 (memBase m + i)

/-- A command statement: `HostWrite(0x1, w)` (R80). -/
def asmCommand (i : Instr) : List Event := [.write (regIndex .cmd) (encode i)]

/-- `WR name, value`. -/
def asmWr (r : Reg) (v : Word) : List Event := [.write (regIndex r) v]

/-- `WR [index], value`. -/
def asmWrAt (a : Index) (v : Word) : List Event := [.write a v]

/-- `RD name`. -/
def asmRd (r : Reg) : List Event := [.read (regIndex r)]

/-- `RD [index]`. -/
def asmRdAt (a : Index) : List Event := [.read a]

/-- `WAIT` (R82). -/
def asmWait : List Event := [.wait]

/-- Writes of consecutive elements. -/
def asmBytes (m : MemName) (i : Nat) (l : List Byte) : List Event :=
  l.zipIdx.map (fun p => .write (elemIndex m (i + p.2)) (p.1.setWidth 32))

/-- `TEXT "s"` (R81). -/
def asmText (l : List Byte) : List Event := asmBytes .text 0 l ++ asmWr .tlen (BitVec.ofNat 32 l.length)

/-- `MSGB i, b0 b1 ...` (R81). -/
def asmMsgb (i : Nat) (l : List Byte) : List Event := asmBytes .msg i l

/-- `ECBB blk, b0 b1 ...` (R81). -/
def asmEcbb (blk : Nat) (l : List Byte) : List Event := asmBytes .ecb (ecbIndex blk 0) l

/-- `SKEL v` (R81): every cell of the reference skeleton. -/
def asmSkel (v : Nat) : List Event :=
  (squareCells (4 * v + 17)).map
    (fun c => .write (elemIndex .mat (cellIndex c.1 c.2)) ((skelByte v c).setWidth 32))

/-- `ENCODE_SEQ` (R81). -/
def asmEncodeSeq : List Event :=
  asmCommand .fmt ++ asmWait ++ asmCommand .rsenc ++ asmWait ++ asmCommand .ilv ++ asmWait ++ asmCommand .place ++ asmWait

end Sys2Proof.Machine
end

