-- ==== Sys2Proof/Safety.lean ====
section
/-! DEFINITION. What the claims mean by a state the block can be in, by the end of a run and a
run whose result may be used (20_memory.md R60), by completing and faulting, by the elements a command may write
and those it depends on, and by GF(256) without its tables. No step of the machine uses this file. -/

namespace Sys2Proof.Machine

/-! ### States the block can be in -/

/-- The word of a long command. -/
def spellsLong (w : Word) : Bool :=
  match decode w with
  | .ok i => i.isLong
  | .error _ => false

/-- The codes that some command raises: all but 3 and 4 of 60_exceptions.md R200 (R203, R207, 93_implementation_defined.md
U7). -/
def raisedCodes : List (BitVec 4) := [1, 2, 5, 6, 7, 8]

/-- The sequencer and the two flags that show it agree: BUSY = 1 exactly in RUN(w), with `w` a long command's word, and
ERR = 1 exactly in FAULTED (10_state.md R16, R17). -/
def State.seqAgrees (s : State) : Bool :=
  match s.seq with
  | .idle => !s.busy && !s.err
  | .run w => s.busy && !s.err && spellsLong w
  | .faulted => !s.busy && s.err

/-- The fault registers describe the one fault of the state: both are 0 with ERR = 0, and the code is one that is raised
with ERR = 1 (10_state.md R24, R25, 60_exceptions.md R214). -/
def State.faultAgrees (s : State) : Bool :=
  if s.err then raisedCodes.contains s.errcode else s.errcode == 0 && s.errinfo == 0

/-- DONE is 0 while a command runs and in FAULTED (10_state.md R12). -/
def State.doneAgrees (s : State) : Bool := !s.done || (!s.busy && !s.err)

/-- Every register at its reset value (10_state.md R37). -/
def RegistersReset (t : State) : Prop :=
  t.seq = .idle ∧ t.busy = false ∧ t.done = false ∧ t.err = false ∧ t.hzd = false ∧ t.errcode = 0 ∧ t.errinfo = 0 ∧
    t.ie = 0 ∧ t.ver = 0 ∧ t.tlen = 0 ∧ t.mask = 1 ∧ t.rsrc = 0 ∧ t.rlen = 0

/-- THE INVARIANT: what holds of every state the block can be in. The last clauses: a well-formed configuration (10_state.md
R33), and the registers at their reset values while `rst` is asserted (70_reset_and_hazards.md R240). -/
def State.Inv (s : State) : Prop :=
  s.seqAgrees = true ∧ s.faultAgrees = true ∧ s.doneAgrees = true ∧ s.mem.wf = true ∧ s.config.wf = true ∧
    (s.rst = true → RegistersReset s)

/-! ### The end of a run -/

/-- A command is in execution: `seq` is `RUN(w)`. -/
def State.running (s : State) : Bool :=
  match s.seq with
  | .run _ => true
  | .idle => false
  | .faulted => false

/-- The run has ended (20_memory.md R60): the host has performed its last transfer and `seq` is not `RUN(w)`. DESIGN CHOICE
(log 27): every event still in the list holds off the end, also one that is no transfer (an engine turn, `rst`, power-up),
of which R60 does not speak. -/
def State.ended (s : State) : Bool := s.inputs.isEmpty && !s.running

/-- The run ended in a fault (R60). -/
def State.endedInFault (s : State) : Bool := s.ended && s.err

/-- The run has ended with the premises R60 asks of a claim about results: ERR = 0 and HZD = 0. -/
def State.cleanEnd (s : State) : Bool := s.ended && !s.err && !s.hzd

/-! ### How a command ends -/

/-- What no long command changes: HZD, IE, the operand registers, `rst`, the configuration, and the model's own fields. -/
def KeepsRest (s t : State) : Prop :=
  t.hzd = s.hzd ∧ t.ie = s.ie ∧ t.ver = s.ver ∧ t.tlen = s.tlen ∧ t.mask = s.mask ∧ t.rsrc = s.rsrc ∧ t.rlen = s.rlen ∧
    t.rst = s.rst ∧ t.config = s.config ∧ t.powerUps = s.powerUps ∧ t.cuts = s.cuts ∧ t.resetReads = s.resetReads ∧
    t.inputs = s.inputs ∧ t.log = s.log

/-- A long command completed (30_encoding.md R77): every field of the state but the memories is accounted for. -/
def Completes (s t : State) : Prop :=
  t.seq = .idle ∧ t.busy = false ∧ t.done = true ∧ t.err = s.err ∧ t.errcode = s.errcode ∧ t.errinfo = s.errinfo ∧
    KeepsRest s t

/-- A command faulted with a code and an information word (60_exceptions.md R212): every field but the memories. -/
def Faults (s t : State) (code : BitVec 4) (info : Word) : Prop :=
  t.seq = .faulted ∧ t.busy = false ∧ t.done = false ∧ t.err = true ∧ t.errcode = code ∧ t.errinfo = info ∧
    KeepsRest s t

/-! ### What commands write and read -/

/-- A free cell of a version's square (00_scope.md R9). -/
def FreeCell (s : State) (r : VersionRow) (row col : Nat) : Prop :=
  row < r.side ∧ col < r.side ∧ s.rsv row col = false

/-- FMT may write element `j` of `m`: `MSG[0..N-1]` (20_memory.md R53). -/
def FmtWrites (r : VersionRow) (m : MemName) (j : Nat) : Prop := m = .msg ∧ j < r.dataCount

/-- RSENC may write it: `ECB[b*32 .. b*32+E-1]` for `b` in `0..B-1`. -/
def RsencWrites (r : VersionRow) (m : MemName) (j : Nat) : Prop :=
  m = .ecb ∧ ∃ b i, b < r.blocks ∧ i < r.e ∧ j = b * 32 + i

/-- ILV may write it: `STREAM[0..T-1]`. -/
def IlvWrites (r : VersionRow) (m : MemName) (j : Nat) : Prop := m = .stream ∧ j < r.total

/-- PLACE may write it: the free cells. -/
def PlaceWrites (s : State) (r : VersionRow) (m : MemName) (j : Nat) : Prop :=
  m = .mat ∧ ∃ row col, FreeCell s r row col ∧ j = row * 256 + col

/-- The table of 20_memory.md R53: command `i` may write element `j` of memory `m`. -/
def MayWrite (s : State) (i : Instr) (m : MemName) (j : Nat) : Prop :=
  match i with
  | .nop => False
  | .fmt => ∃ r, s.row = some r ∧ FmtWrites r m j
  | .rsdiv e blk => m = .ecb ∧ blk * 32 ≤ j ∧ j < blk * 32 + e
  | .rsenc => ∃ r, s.row = some r ∧ RsencWrites r m j
  | .ilv => ∃ r, s.row = some r ∧ IlvWrites r m j
  | .place => ∃ r, s.row = some r ∧ PlaceWrites s r m j
  | .encode => ∃ r, s.row = some r ∧
      (FmtWrites r m j ∨ RsencWrites r m j ∨ IlvWrites r m j ∨ PlaceWrites s r m j)
  | .clrerr => False
  | .srst => False

/-- Two states agree on the `rsv` plane of a version's square. -/
def SameRsv (s u : State) (r : VersionRow) : Prop :=
  ∀ row col, row < r.side → col < r.side → s.rsv row col = u.rsv row col

/-- The table of 70_reset_and_hazards.md R246: two states agree on everything command `i` needs. -/
def SameInputs (i : Instr) (s u : State) : Prop :=
  match i with
  | .nop => True
  | .fmt => s.ver = u.ver ∧ s.tlen = u.tlen ∧ ∀ j, j < s.tlen.toNat → s.elem .text j = u.elem .text j
  | .rsdiv _ _ => s.rsrc = u.rsrc ∧ s.rlen = u.rlen ∧
      ∀ j, j < s.rlen.toNat → s.elem .msg (s.rsrc.toNat + j) = u.elem .msg (s.rsrc.toNat + j)
  | .rsenc => s.ver = u.ver ∧ ∀ r j, s.row = some r → j < r.dataCount → s.elem .msg j = u.elem .msg j
  | .ilv => s.ver = u.ver ∧ ∀ r, s.row = some r →
      (∀ j, j < r.dataCount → s.elem .msg j = u.elem .msg j) ∧
      (∀ b i, b < r.blocks → i < r.e → s.elem .ecb (b * 32 + i) = u.elem .ecb (b * 32 + i))
  | .place => s.ver = u.ver ∧ s.mask = u.mask ∧ ∀ r, s.row = some r →
      (∀ j, j < r.total → s.elem .stream j = u.elem .stream j) ∧ SameRsv s u r
  | .encode => s.ver = u.ver ∧ s.tlen = u.tlen ∧ s.mask = u.mask ∧
      (∀ j, j < s.tlen.toNat → s.elem .text j = u.elem .text j) ∧ ∀ r, s.row = some r → SameRsv s u r
  | .clrerr => True
  | .srst => True

/-! ### GF(256): multiplication without the tables, and polynomials -/

/-- Multiplication by `x` modulo `x^8 + x^4 + x^3 + x^2 + 1` (40_gf256.md R90). -/
def timesX (a : Byte) : Byte := if a.getLsbD 7 then (a <<< 1) ^^^ 0x1D else a <<< 1

/-- Multiplication of polynomials over GF(2) modulo the primitive polynomial (R90), by shift and reduce from the highest
bit of `b` down. -/
def polyMul (a b : Byte) : Byte :=
  [7, 6, 5, 4, 3, 2, 1, 0].foldl (fun acc i => timesX acc ^^^ (if b.getLsbD i then a else 0)) 0

/-- The value at `x` of the polynomial whose coefficients, highest degree first, are `l` (Horner's rule), with the tables
of `c`. -/
def polyEval (c : Config) (x : Byte) (l : List Byte) : Byte := l.foldl (fun acc b => gfadd (gfmul c acc x) b) 0

/-- A polynomial, highest degree first, times `(x + a)`. -/
def timesRoot (c : Config) (p : List Byte) (a : Byte) : List Byte :=
  List.zipWith gfadd (p ++ [0]) (0 :: p.map (gfmul c a))

/-- `(x + α^0)(x + α^1)...(x + α^(n-1))`, highest degree first (40_gf256.md R99). -/
def rootProduct (c : Config) (n : Nat) : List Byte := ((List.range n).map (alog c)).foldl (timesRoot c) [1]

/-- A word of codewords is divisible by the generator of `e` error-correction codewords: it is 0 at `α^0 .. α^(e-1)`
(42_rs_divider.md R124). -/
def IsCodeword (c : Config) (e : Nat) (l : List Byte) : Prop := ∀ j, j < e → polyEval c (alog c j) l = 0

/-! ### The walk -/

/-- The free cells the walk visits, in order (45_placement.md R165, R173). -/
def visited (s : State) (r : VersionRow) : List (Nat × Nat) := (route r.side).filter (fun c => !s.rsv c.1 c.2)

/-- The elements of a memory from index `i` on, as a list. -/
def State.slice (s : State) (m : MemName) (i n : Nat) : List Byte := (List.range n).map (fun j => s.elem m (i + j))

end Sys2Proof.Machine
end

