-- ==== Sys2Proof/Certificates/Slice0/Obligations.lean ====
section
/-! DEFINITION. The statements for the provers. Each docstring names the rules of spec/ it rests on; what rests on the
model's own choices names the log entry. `s.config.wf = true` is what 10_state.md R33 and 40_gf256.md R91 to R99 let a model
assume of the parameters of 00_scope.md R6; `cfg` is their printed default (log 13). -/

open Sys2Proof Sys2Proof.Machine

/-! ### Encoding -/

/-- 30_encoding.md R71 to R73: decoding the word of a well-formed command gives the command back, at every value of its
operands. -/
def Obligations.DecodeOfEncode : Prop :=
  ∀ i : Instr, i.wellFormed = true → decode (encode i) = .ok i

/-- 30_encoding.md R71 to R73: a word that decodes is the word of the command it decodes to, which is well formed, so no
bit of a word is dropped. -/
def Obligations.EncodeOfDecode : Prop :=
  ∀ (w : Word) (i : Instr), decode w = .ok i → i.wellFormed = true ∧ encode i = w

/-- 30_encoding.md R73: "The matches are pairwise disjoint, so a word spells at most one command." -/
def Obligations.EachWordSpellsAtMostOneCommand : Prop :=
  ∀ w : Word, (opcodeMap.filter (fun r => r.spells w)).length ≤ 1

/-- 30_encoding.md R74: the illegal words and the reason of each: opcodes `0x07` to `0x0D` and `0x10` to `0xFF` with any
upper bits, and the nine opcodes with a nonzero must-be-zero bit. An `E` outside ESET does not make a word illegal. -/
def Obligations.IllegalWordsByReason : Prop :=
  ∀ w : Word,
    (∀ op, decode w = .error (.reservedOpcode op) ↔
      op = opField w ∧ ((0x07 ≤ opField w ∧ opField w ≤ 0x0D) ∨ 0x10 ≤ opField w)) ∧
    (∀ op, decode w = .error (.mustBeZero op) ↔
      op = opField w ∧ (opField w ≤ 0x06 ∨ opField w = 0x0E ∨ opField w = 0x0F) ∧
        w &&& (if opField w = 0x02 then 0xFF80E000 else 0xFFFFFF00) ≠ 0)

/-- 30_encoding.md R71, R73, 95_test_vectors.md V19: words written out bit by bit from the encodings. -/
def Obligations.WordsWrittenOutDecode : Prop :=
  decode 0b00000000000000000000000000000000 = .ok .nop ∧
  decode 0b00000000000000000000000000000001 = .ok .fmt ∧
  decode 0b00000000011111110001111000000010 = .ok (.rsdiv 30 127) ∧
  decode 0b00000000000000110000101000000010 = .ok (.rsdiv 10 3) ∧
  decode 0b00000000000000000000000000000011 = .ok .rsenc ∧
  decode 0b00000000000000000000000000000100 = .ok .ilv ∧
  decode 0b00000000000000000000000000000101 = .ok .place ∧
  decode 0b00000000000000000000000000000110 = .ok .encode ∧
  decode 0b00000000000000000000000000001110 = .ok .clrerr ∧
  decode 0b00000000000000000000000000001111 = .ok .srst ∧
  decode 0b00000000100000000000011100000010 = .error (.mustBeZero 2)

/-! ### A step -/

/-- 30_encoding.md R75, R77, 20_memory.md R55: a step runs the decoded command. In RUN(w) the engine's turn is the meaning
of the long command `w` spells, whether the turn stands in the inputs, nothing stands there, or the host waits (logs 2, 3,
5); an immediate command is performed in the step of the write. The consumed event is the only thing the step adds. For the
host's write and the host's WAIT, `rst` is released (70_reset_and_hazards.md R240). -/
def Obligations.StepRunsTheDecodedCommand : Prop :=
  ∀ (s : State) (w : Word) (i : Instr) (rest : List Event), decode w = .ok i →
    (i.isLong = true → s.seq = .run w →
      (s.inputs = .engine :: rest → step s = exec i (s.withInputs rest)) ∧
      (s.inputs = [] → step s = exec i s) ∧
      (s.inputs = .wait :: rest → s.rst = false → s.busy = true → step s = exec i s)) ∧
    (i.isLong = false → s.rst = false → s.busy = false → s.err = false → s.inputs = .write cmdIndex w :: rest →
      step s = exec i (s.withInputs rest))

/-- 30_encoding.md R75: dispatch of a word written to CMD, by the state at the instant of the write. -/
def Obligations.CommandWordDispatch : Prop :=
  ∀ (s : State) (w : Word) (rest : List Event), s.rst = false → s.inputs = .write cmdIndex w :: rest →
    (s.busy = true → step s = .next { s with inputs := rest, hzd := true }) ∧
    (s.busy = false → s.err = true → w = 0x0000000E → step s = exec .clrerr (s.withInputs rest)) ∧
    (s.busy = false → s.err = true → w = 0x0000000F → step s = exec .srst (s.withInputs rest)) ∧
    (s.busy = false → s.err = true → w ≠ 0x0000000E → w ≠ 0x0000000F →
      step s = .next { s with inputs := rest, hzd := true }) ∧
    (s.busy = false → s.err = false → ∀ i, decode w = .ok i → i.isLong = false →
      step s = exec i (s.withInputs rest)) ∧
    (s.busy = false → s.err = false → ∀ i, decode w = .ok i → i.isLong = true →
      step s = .next { s with inputs := rest, seq := .run w, busy := true, done := false }) ∧
    (s.busy = false → s.err = false → ∀ reason, decode w = .error reason →
      step s = .next { s with
        inputs := rest, seq := .faulted, err := true, done := false, busy := false, errcode := 5, errinfo := w })

/-- 30_encoding.md R76: acceptance of a long command, and "nothing else changes in that step". -/
def Obligations.AcceptanceChangesNothingElse : Prop :=
  ∀ (s : State) (i : Instr) (rest : List Event), i.wellFormed = true → i.isLong = true → s.rst = false →
    s.busy = false → s.err = false → s.inputs = .write cmdIndex (encode i) :: rest →
    step s = .next { s with inputs := rest, seq := .run (encode i), busy := true, done := false }

/-- 30_encoding.md R78: an illegal word written when BUSY = 0 and ERR = 0. -/
def Obligations.IllegalWordFaultsAtTheWrite : Prop :=
  ∀ (s : State) (w : Word) (rest : List Event), s.rst = false → s.busy = false → s.err = false →
    (∀ r ∈ opcodeMap, r.spells w = false) → s.inputs = .write cmdIndex w :: rest →
    step s = .next { s with inputs := rest, seq := .faulted, err := true, done := false, errcode := 5, errinfo := w }

/-! ### The immediate commands -/

/-- 46_system.md R187: NOP reports completion and does nothing else; written while BUSY = 1 or ERR = 1 it is dropped and
sets HZD. -/
def Obligations.NopReportsCompletion : Prop :=
  (∀ s : State, exec .nop s = .next { s with done := true }) ∧
  (∀ (s : State) (rest : List Event), s.rst = false → s.inputs = .write cmdIndex 0x00000000 :: rest →
    (s.busy = true ∨ s.err = true → step s = .next { s with inputs := rest, hzd := true }) ∧
    (s.busy = false → s.err = false → step s = .next { s with inputs := rest, done := true })) ∧
  (∃ t, Host.Core.run Sys2Proof.core 2 (State.reset.withInputs (asmWr .ie 1 ++ asmCommand .nop)) = .next t ∧
    t.status = 0x2 ∧ t.irq = true)

/-- 46_system.md R188: CLRERR leaves the faulted state, keeps HZD, the operand registers and the memories, is accepted in
FAULTED and in IDLE, and is dropped with HZD while BUSY = 1. -/
def Obligations.ClrerrLeavesTheFaultedState : Prop :=
  (∀ s : State, exec .clrerr s =
    .next { s with err := false, errcode := 0, errinfo := 0, seq := .idle, done := true }) ∧
  (∀ (s : State) (rest : List Event), s.rst = false → s.inputs = .write cmdIndex 0x0000000E :: rest →
    (s.busy = true → step s = .next { s with inputs := rest, hzd := true }) ∧
    (s.busy = false → step s =
      .next { s with inputs := rest, err := false, errcode := 0, errinfo := 0, seq := .idle, done := true }))

/-- 46_system.md R189, 10_state.md R37, R38: SRST puts every register at its reset value and keeps every memory; it is
accepted in IDLE and in FAULTED, and cannot stop a running command. -/
def Obligations.SrstResetsTheRegisters : Prop :=
  (∀ s : State, exec .srst s =
    .next { s with
      seq := .idle, busy := false, done := false, err := false, hzd := false, errcode := 0, errinfo := 0, ie := 0, ver := 0,
      tlen := 0, mask := 1, rsrc := 0, rlen := 0 }) ∧
  (∀ (s : State) (rest : List Event), s.rst = false → s.inputs = .write cmdIndex 0x0000000F :: rest →
    (s.busy = true → step s = .next { s with inputs := rest, hzd := true }) ∧
    (s.busy = false → ∃ t, step s = .next t ∧ RegistersReset t ∧ t.mem = s.mem))

/-! ### The flags and the registers -/

/-- 60_exceptions.md R210: the interrupt output; it is 0 after reset, HZD does not drive it. -/
def Obligations.IrqIsTheEnabledStatus : Prop :=
  (∀ s : State, s.irq = true ↔
    (s.ie.getLsbD 0 = true ∧ s.done = true) ∨ (s.ie.getLsbD 1 = true ∧ s.err = true)) ∧
  State.reset.irq = false ∧ (∀ (s : State) (b : Bool), { s with hzd := b }.irq = s.irq)

/-- 10_state.md R23: the STATUS register: what a read returns, and that a write clears DONE and HZD where it has a 1 and
changes nothing else, whatever BUSY is. -/
def Obligations.StatusReadsAndClears : Prop :=
  ∀ (s : State) (rest : List Event), s.rst = false →
    (s.inputs = .read 0x2 :: rest → step s = .next { s with
      inputs := rest
      log := s.log ++ [BitVec.ofNat 32 (s.busy.toNat + 2 * s.done.toNat + 4 * s.err.toNat + 8 * s.hzd.toNat)] }) ∧
    (∀ v : Word, s.inputs = .write 0x2 v :: rest → step s = .next { s with
      inputs := rest, done := if v.getLsbD 1 then false else s.done, hzd := if v.getLsbD 3 then false else s.hzd })

/-- 10_state.md R20 to R31: what a host read of each register returns, whatever BUSY is. -/
def Obligations.RegisterReads : Prop :=
  ∀ s : State,
    hostReadValue s 0x0 = 0x54515207 ∧ hostReadValue s 0x1 = 0 ∧ hostReadValue s 0x3 = s.errcode.setWidth 32 ∧
    hostReadValue s 0x4 = s.errinfo ∧ hostReadValue s 0x5 = s.ie.setWidth 32 ∧ hostReadValue s 0x6 = s.ver.setWidth 32 ∧
    hostReadValue s 0x7 = s.tlen.setWidth 32 ∧ hostReadValue s 0x8 = s.mask.setWidth 32 ∧
    hostReadValue s 0x9 = s.rsrc.setWidth 32 ∧ hostReadValue s 0xA = s.rlen.setWidth 32 ∧
    (∀ a : Index, a.toNat < 0x10 → hostReadEffect s a = s) ∧
    (∀ (a : Index) (v : Word), a = 0x0 ∨ a = 0x3 ∨ a = 0x4 → hostWrite s a v = .next s)

/-- 10_state.md R34: NDATA, NTOTAL and SIDE are functions of VER, 0 when VER is not in VSET (whatever the parameters are); a
write is ignored. That a number too wide for the register (N = 2048, T = 4096; R20, R33) is read whole is THE MODEL'S CHOICE,
log 26. -/
def Obligations.InformationRegisters : Prop :=
  ∀ s : State,
    (∀ r, s.row = some r → hostReadValue s 0xB = BitVec.ofNat 32 r.dataCount ∧
      hostReadValue s 0xC = BitVec.ofNat 32 r.total ∧ hostReadValue s 0xD = BitVec.ofNat 32 (4 * s.ver.toNat + 17)) ∧
    (s.ver.toNat ∈ s.config.vset → s.row ≠ none) ∧
    (s.ver.toNat ∉ s.config.vset →
      hostReadValue s 0xB = 0 ∧ hostReadValue s 0xC = 0 ∧ hostReadValue s 0xD = 0) ∧
    (s.config.wf = true → (s.ver = 0 ∨ 41 ≤ s.ver.toNat) →
      hostReadValue s 0xB = 0 ∧ hostReadValue s 0xC = 0 ∧ hostReadValue s 0xD = 0) ∧
    (∀ (a : Index) (v : Word), a = 0xB ∨ a = 0xC ∨ a = 0xD → hostWrite s a v = .next s)

/-- 10_state.md R20, R26 to R31, 20_memory.md R42: an operand register written while BUSY = 0, and IE at any time, reads
back the bits it has; no other register and no memory changes. -/
def Obligations.RegisterWriteReadsBack : Prop :=
  ∀ (s : State) (v : Word),
    (s.busy = false →
      hostWrite s 0x6 v = .next { s with ver := v.setWidth 6 } ∧
      hostWrite s 0x7 v = .next { s with tlen := v.setWidth 16 } ∧
      hostWrite s 0x8 v = .next { s with mask := v.setWidth 3 } ∧
      hostWrite s 0x9 v = .next { s with rsrc := v.setWidth 11 } ∧
      hostWrite s 0xA v = .next { s with rlen := v.setWidth 12 }) ∧
    hostWrite s 0x5 v = .next { s with ie := v.setWidth 2 } ∧
    (∀ (a : Index) (n : Nat) (t : State),
      (a, n) ∈ ([(0x5, 2), (0x6, 6), (0x7, 16), (0x8, 3), (0x9, 11), (0xA, 12)] : List (Index × Nat)) →
      (s.busy = false ∨ a = 0x5) → hostWrite s a v = .next t → hostReadValue t a = v &&& BitVec.ofNat 32 (2 ^ n - 1))

/-! ### The host's accesses to the memories -/

/-- 20_memory.md R41, R42, R49: while BUSY = 0 an element read after a write of it gives the bits it has, and a write of one
element changes what is read at no other word index. -/
def Obligations.ElementReadAfterWrite : Prop :=
  ∀ (s : State) (a : Index) (v : Word) (m : MemName) (i : Nat), s.busy = false → target a = .elem m i →
    ∃ t, hostWrite s a v = .next t ∧
      hostReadValue t a = v &&& (if m = .mat then 0x3 else 0xFF) ∧
      (∀ b, b ≠ a → hostReadValue t b = hostReadValue s b) ∧ hostReadEffect t a = t

/-- 20_memory.md R46: accesses while BUSY = 1. A write to an operand register, to a memory or to CMD is dropped and sets
HZD; a read of a memory gives 0 and sets HZD; reads of registers and writes of STATUS and IE are performed normally. -/
def Obligations.AccessesWhileBusy : Prop :=
  ∀ (s : State) (rest : List Event), s.rst = false → s.busy = true →
    (∀ (a : Index) (v : Word), s.inputs = .write a v :: rest →
      (a = 0x1 ∨ a = 0x6 ∨ a = 0x7 ∨ a = 0x8 ∨ a = 0x9 ∨ a = 0xA ∨ (∃ m i, target a = .elem m i)) →
      step s = .next { s with inputs := rest, hzd := true }) ∧
    (∀ (a : Index) (m : MemName) (i : Nat), s.inputs = .read a :: rest → target a = .elem m i →
      step s = .next { s with inputs := rest, hzd := true, log := s.log ++ [0] }) ∧
    (∀ (a : Index) (r : Reg), s.inputs = .read a :: rest → target a = .reg r →
      step s = .next { s with inputs := rest, log := s.log ++ [s.readReg r] }) ∧
    (∀ v : Word, s.inputs = .write 0x5 v :: rest → step s = .next { s with inputs := rest, ie := v.setWidth 2 }) ∧
    (∀ v : Word, s.inputs = .write 0x2 v :: rest → step s = .next { s with
      inputs := rest, done := if v.getLsbD 1 then false else s.done, hzd := if v.getLsbD 3 then false else s.hzd })

/-- 20_memory.md R41, R47: which indices are reserved, and that a read of one returns 0 and a write does nothing, without
HZD and whatever BUSY is. -/
def Obligations.ReservedIndices : Prop :=
  (∀ a : Index, target a = .reserved ↔
    (a.toNat = 0xE ∨ a.toNat = 0xF) ∨ (0x10 ≤ a.toNat ∧ a.toNat < 0x100) ∨ (0x200 ≤ a.toNat ∧ a.toNat < 0x800) ∨
    (0x3000 ≤ a.toNat ∧ a.toNat < 0x10000) ∨
    (0x10000 ≤ a.toNat ∧ ((a.toNat - 0x10000) / 256 > 176 ∨ a.toNat % 256 > 176))) ∧
  (∀ (s : State) (a : Index) (rest : List Event), s.rst = false → target a = .reserved →
    (s.inputs = .read a :: rest → step s = .next { s with inputs := rest, log := s.log ++ [0] }) ∧
    (∀ v : Word, s.inputs = .write a v :: rest → step s = .next { s with inputs := rest }))

/-! ### Reset -/

/-- 10_state.md R37, R38, 70_reset_and_hazards.md R240, R242: the state after power-up and reset, and the information
registers and `irq` there, with the printed parameters (log 13) and `rst` released (log 11). Last, the event of a new
power-up (60_exceptions.md R221; that it is one event is log 12): every register at its reset value, every element
unspecified anew, the parameters and the model's other fields kept. -/
def Obligations.ResetValues : Prop :=
  RegistersReset State.reset ∧ (∀ m i, State.reset.mem.get? m i = none) ∧ State.reset.irq = false ∧
  State.reset.rst = false ∧ State.reset.config = cfg ∧
  hostReadValue State.reset 0x0 = 0x54515207 ∧ hostReadValue State.reset 0xB = 0 ∧
  hostReadValue State.reset 0xC = 0 ∧ hostReadValue State.reset 0xD = 0 ∧
  (∀ (s : State) (rest : List Event), s.inputs = .powerUp :: rest →
    ∃ t, step s = .next t ∧ RegistersReset t ∧
      (∀ m i, t.elem m i = Config.unwritten (s.powerUps + 1) m i &&& widthMask m) ∧
      t = { State.reset with
        config := s.config, powerUps := s.powerUps + 1, cuts := s.cuts, resetReads := s.resetReads, inputs := rest,
        log := s.log })

/-- 10_state.md R38, 70_reset_and_hazards.md R240, R241: asserting `rst` puts every register at its reset value in any
state; outside RUN it keeps every memory; in RUN(w) it keeps every element the command of `w` may not write. The clause that
no `rsv` bit changes is THE MODEL'S CHOICE, the deduction of log 9: R241 speaks of memory elements, and an element of MAT is
both bits (00_scope.md R8); the model frees only the `dark` bit of a cell, because R53 lets a command write no other. -/
def Obligations.HardResetFromAnyState : Prop :=
  ∀ (s : State) (rest : List Event), s.inputs = .assertReset :: rest →
    ∃ t, step s = .next t ∧ RegistersReset t ∧ t.rst = true ∧ t.config = s.config ∧ t.inputs = rest ∧ t.log = s.log ∧
      (s.seq = .idle ∨ s.seq = .faulted → t.mem = s.mem) ∧ (∀ row col, t.rsv row col = s.rsv row col) ∧
      (∀ w i m j, s.seq = .run w → decode w = .ok i → ¬ MayWrite s i m j → t.elem m j = s.elem m j)

/-- 70_reset_and_hazards.md R240: while `rst` is asserted host transfers have no effect and reads return unspecified data
(a free value, log 25; that a WAIT polls such data is log 5); the registers stay at their reset values, the engine stands
still and `irq` is 0, until `rst` is released, which changes nothing else. -/
def Obligations.TransfersWhileResetIsAsserted : Prop :=
  ∀ (s : State) (rest : List Event), s.rst = true →
    (∀ (a : Index) (v : Word), s.inputs = .write a v :: rest → step s = .next { s with inputs := rest }) ∧
    (∀ a : Index, s.inputs = .read a :: rest → step s = .next { s with
      inputs := rest, resetReads := s.resetReads + 1, log := s.log ++ [Config.readInReset s.resetReads] }) ∧
    (s.inputs = .wait :: rest → ∃ l, (l = rest ∨ l = s.inputs) ∧
      step s = .next { s with inputs := l, resetReads := s.resetReads + 1 }) ∧
    (s.inputs = .releaseReset :: rest → step s = .next { s with inputs := rest, rst := false }) ∧
    (s.Inv → RegistersReset s ∧ s.irq = false ∧ (s.inputs = [] → step s = .next s) ∧
      (s.inputs = .engine :: rest → step s = .next { s with inputs := rest }))

/-! ### Invariants -/

/-- The invariant holds after reset. -/
def Obligations.InvariantAtReset : Prop := State.reset.Inv

/-- 10_state.md R12, R13, R16, R24, R25, 60_exceptions.md R203, R207, R214, 20_memory.md R41, R51: every step keeps the
invariant: BUSY and ERR show the sequencer's state, RUN holds a long command's word, the fault registers describe the
state's one fault, DONE is 0 while a command runs or has faulted, no memory holds an element it does not have, the
parameters are well formed (10_state.md R33) and no step changes them (40_gf256.md R94), and while `rst` is asserted every
register is at its reset value (70_reset_and_hazards.md R240). -/
def Obligations.StepKeepsTheInvariant : Prop :=
  ∀ s t : State, s.Inv → step s = .next t → t.Inv ∧ t.config = s.config

/-- 70_reset_and_hazards.md R260, 93_implementation_defined.md "Nothing in this block is stuck": in every state the block
can be in, whatever event comes next, a step gives a next state. -/
def Obligations.NothingIsStuck : Prop := ∀ s : State, s.Inv → ∃ t, step s = .next t

/-- Every run from reset, with every well-formed choice of the parameters, for every list of events the outside may produce
and of every length, goes on and stays in the invariant (20_memory.md R55, 70_reset_and_hazards.md R260; that the events are
a list is log 2). Where the run has ended as 20_memory.md R60 says, the last transfer performed and `seq` not RUN(w), the
state is final; where the last transfer is performed and a command still runs, one step ends the run.That an event which
is no transfer also holds off the end is THE MODEL'S CHOICE, log 27. -/
def Obligations.EveryRunFromResetGoesOn : Prop :=
  (∀ (c : Config) (l : List Event) (n : Nat), c.wf = true → ∃ t,
    Host.Core.run Sys2Proof.core n { State.reset with config := c, inputs := l } = .next t ∧ State.Inv t ∧
      State.config t = c) ∧
  (∀ s : State, s.ended = true ↔ s.inputs = [] ∧ ∀ w, s.seq ≠ .run w) ∧
  (∀ (s : State) (n : Nat), s.ended = true → Host.Core.run Sys2Proof.core n s = .next s) ∧
  (∀ s : State, s.Inv → s.inputs = [] → s.ended = false → ∃ t, step s = .next t ∧ t.ended = true)

/-- 10_state.md R17: how `seq` advances. "There is no other transition." (Hardware reset is the assertion of `rst`, log 11;
power-up is an event of its own, log 12.) -/
def Obligations.SequencerTransitions : Prop :=
  ∀ s t : State, s.Inv → step s = .next t → t.seq ≠ s.seq →
    (∃ w rest, s.rst = false ∧ s.seq = .idle ∧ s.inputs = .write cmdIndex w :: rest ∧ spellsLong w = true ∧
      t.seq = .run w) ∨
    (∃ w rest r, s.rst = false ∧ s.seq = .idle ∧ s.inputs = .write cmdIndex w :: rest ∧ decode w = .error r ∧
      t.seq = .faulted) ∨
    (∃ w, s.seq = .run w ∧ (s.inputs = [] ∨ (∃ rest, s.inputs = .engine :: rest ∨ s.inputs = .wait :: rest)) ∧
      ((t.seq = .idle ∧ t.done = true ∧ t.err = false) ∨ (t.seq = .faulted ∧ t.done = false ∧ t.err = true))) ∨
    (∃ rest, s.rst = false ∧ s.seq = .faulted ∧ t.seq = .idle ∧
      (s.inputs = .write cmdIndex 0x0000000E :: rest ∨ s.inputs = .write cmdIndex 0x0000000F :: rest)) ∨
    (∃ rest, (s.inputs = .assertReset :: rest ∨ s.inputs = .powerUp :: rest) ∧ t.seq = .idle)

/-- 10_state.md R14: HZD is set only when the block drops a host access, and cleared only by a write of 1 to its bit, by
SRST, by hardware reset (and at power-up). -/
def Obligations.HazardFlag : Prop :=
  ∀ s t : State, s.Inv → step s = .next t →
    (s.hzd = false → t.hzd = true →
      (s.busy = true ∧ ∃ a rest, (∃ v, s.inputs = .write a v :: rest) ∨ s.inputs = .read a :: rest) ∨
      (s.err = true ∧ ∃ w rest, s.inputs = .write cmdIndex w :: rest ∧ w ≠ 0x0000000E ∧ w ≠ 0x0000000F)) ∧
    (s.hzd = true → t.hzd = false → ∃ e rest, s.inputs = e :: rest ∧
      ((∃ v : Word, e = .write 0x2 v ∧ v.getLsbD 3 = true) ∨ e = .write cmdIndex 0x0000000F ∨ e = .assertReset ∨
        e = .powerUp))

/-- 10_state.md R12: DONE is set only by a command's completion, NOP and CLRERR, and cleared only by the acceptance of a
long command, a fault, a write of 1 to its bit, SRST and reset (and at power-up, log 12). "It is sticky". -/
def Obligations.DoneFlag : Prop :=
  ∀ s t : State, s.Inv → step s = .next t →
    (s.done = false → t.done = true →
      (∃ w, s.seq = .run w ∧ t.seq = .idle ∧ (s.inputs = [] ∨ ∃ rest, s.inputs = .engine :: rest ∨ s.inputs = .wait :: rest)) ∨
      (s.busy = false ∧ ∃ rest, s.inputs = .write cmdIndex 0x0000000E :: rest) ∨
      (s.seq = .idle ∧ ∃ rest, s.inputs = .write cmdIndex 0x00000000 :: rest)) ∧
    (s.done = true → t.done = false → ∃ e rest, s.inputs = e :: rest ∧
      ((∃ v : Word, e = .write 0x2 v ∧ v.getLsbD 1 = true) ∨ (∃ w, e = .write cmdIndex w ∧ spellsLong w = true) ∨
        (∃ w r, e = .write cmdIndex w ∧ decode w = .error r) ∨ e = .write cmdIndex 0x0000000F ∨ e = .assertReset ∨
        e = .powerUp))

/-- 30_encoding.md R82, 20_memory.md R56: WAIT ends. Within two steps the block has used up the WAIT with BUSY = 0, and no
event after it has been touched. (While `rst` is asserted the polls read unspecified data: TransfersWhileResetIsAsserted.) -/
def Obligations.WaitEnds : Prop :=
  ∀ (s : State) (rest : List Event), s.Inv → s.rst = false → s.inputs = .wait :: rest →
    ∃ n t, n ≤ 2 ∧ Host.Core.run Sys2Proof.core n s = .next t ∧ State.busy t = false ∧ State.inputs t = rest

/-! ### Faults -/

/-- 30_encoding.md R77, 60_exceptions.md R212: a long command ends in ONE step, in every state, either completed or faulted
with one of the codes that are raised; every register but those the rule names keeps its value, whichever it is. -/
def Obligations.LongCommandsCompleteOrFault : Prop :=
  ∀ (i : Instr) (s : State), i.isLong = true →
    ∃ t, exec i s = .next t ∧ (Completes s t ∨ ∃ code info, code ∈ raisedCodes ∧ Faults s t code info)

/-- 60_exceptions.md R202: UnsupportedVersion is the first check of every command that reads VER; the other commands do
not raise it. With the printed VSET, VER is outside it exactly when it is 0 or 41..63; with any well-formed one, then too. -/
def Obligations.UnsupportedVersionComesFirst : Prop :=
  (∀ i ∈ ([.fmt, .rsenc, .ilv, .place, .encode] : List Instr), ∀ s : State,
    (s.ver.toNat ∉ s.config.vset →
      ∃ t, exec i s = .next t ∧ Faults s t 2 (s.ver.setWidth 32) ∧ t.mem = s.mem) ∧
    (s.ver.toNat ∈ s.config.vset →
      ∀ t, exec i s = .next t → t.errcode = s.errcode ∨ (t.err = true ∧ t.errcode ≠ 2))) ∧
  (∀ v : BitVec 6, v.toNat ∉ cfg.vset ↔ v = 0 ∨ 41 ≤ v.toNat) ∧
  (∀ (c : Config) (v : BitVec 6), c.wf = true → (v = 0 ∨ 41 ≤ v.toNat) → v.toNat ∉ c.vset) ∧
  (∀ e blk s t, exec (.rsdiv e blk) s = .next t → t.errcode = s.errcode ∨ (t.err = true ∧ t.errcode = 6)) ∧
  (∀ i ∈ ([.fmt, .rsenc, .ilv, .place, .encode] : List Instr),
    ∃ t, exec i State.reset = .next t ∧ t.errcode = 2 ∧ t.errinfo = 0)

/-- 60_exceptions.md R201, 41_formatter.md R112: CapacityExceeded, raised by FMT alone or as the first stage of ENCODE
after the version check, before any write, with `{N[15:0], L[15:0]}`. -/
def Obligations.CapacityExceededBeforeAnyWrite : Prop :=
  ∀ i ∈ ([.fmt, .encode] : List Instr), ∀ (s : State) (r : VersionRow), s.row = some r →
    (255 < s.tlen.toNat ∨ r.dataCount < s.tlen.toNat + 2) →
    ∃ t, exec i s = .next t ∧ Faults s t 1 (BitVec.ofNat 16 r.dataCount ++ s.tlen) ∧ t.mem = s.mem

/-- 60_exceptions.md R205, 42_rs_divider.md R121: BadOperand, with the command word; and the printed ESET. -/
def Obligations.BadOperandBeforeAnyWrite : Prop :=
  (∀ (s : State) (e blk : Nat), e < 32 → blk < 128 →
    (e ∉ s.config.eset ∨ 2048 < s.rsrc.toNat + s.rlen.toNat) →
    ∃ t, exec (.rsdiv e blk) s = .next t ∧
      Faults s t 6 (BitVec.ofNat 32 (2 + e * 256 + blk * 65536)) ∧ t.mem = s.mem) ∧
  cfg.eset = [7, 10, 13, 15, 16, 17, 18, 20, 22, 24, 26, 28, 30]

/-- 60_exceptions.md R206, R208, R211, 45_placement.md R167, R169: the checks of PLACE after the version's: the mask, then
the number of free cells; MAT is not written. -/
def Obligations.PlaceChecksMaskThenGeometry : Prop :=
  ∀ (s : State) (r : VersionRow), s.row = some r →
    (s.mask ≠ 1 → ∃ t, exec .place s = .next t ∧ Faults s t 7 (s.mask.setWidth 32) ∧ t.mem = s.mem) ∧
    (s.mask = 1 → s.freeCount r.side ≠ r.budget → ∃ t, exec .place s = .next t ∧
      Faults s t 8 (BitVec.ofNat 16 r.budget ++ BitVec.ofNat 16 (s.freeCount r.side)) ∧ t.mem = s.mem)

/-- 46_system.md R190, 60_exceptions.md R213: a fault of PLACE inside ENCODE leaves MSG, ECB and STREAM as FMT, RSENC and
ILV left them, and MAT unchanged. -/
def Obligations.EncodeFaultKeepsTheEarlierStages : Prop :=
  ∀ (s : State) (r : VersionRow), s.row = some r → s.tlen.toNat ≤ 255 → s.tlen.toNat + 2 ≤ r.dataCount →
    (s.mask ≠ 1 ∨ s.freeCount r.side ≠ r.budget) →
    ∃ t t1 t2 t3, exec .encode s = .next t ∧ exec .fmt s = .next t1 ∧ exec .rsenc t1 = .next t2 ∧
      exec .ilv t2 = .next t3 ∧ t.mem = t3.mem ∧ t.mem.mat = s.mem.mat ∧
      (if s.mask ≠ 1 then Faults s t 7 (s.mask.setWidth 32)
       else Faults s t 8 (BitVec.ofNat 16 r.budget ++ BitVec.ofNat 16 (s.freeCount r.side)))

/-- 20_memory.md R53, 60_exceptions.md R213: every command leaves every element unchanged that the table of R53 does not
let it write, never changes an `rsv` bit, and, faulting alone, changes no memory at all. -/
def Obligations.CommandsWriteOnlyTheirRanges : Prop :=
  ∀ (i : Instr) (s t : State), s.config.wf = true → i.wellFormed = true → exec i s = .next t →
    (∀ m j, ¬ MayWrite s i m j → t.elem m j = s.elem m j) ∧
    (∀ row col, t.rsv row col = s.rsv row col) ∧
    (i ≠ .encode → i.isLong = true → t.seq = .faulted → t.mem = s.mem)

/-! ### The formatter -/

/-- 41_formatter.md R110, R111, R113, R114, R115: what FMT leaves in MSG, byte by byte, and that it changes nothing else.
`TEXT[L]` is never read: where the last byte needs one more, it is 0. -/
def Obligations.FmtFormatsTheText : Prop :=
  ∀ (s : State) (r : VersionRow), s.row = some r → s.tlen.toNat ≤ 255 → s.tlen.toNat + 2 ≤ r.dataCount →
    ∃ t, exec .fmt s = .next t ∧ Completes s t ∧
      t.elem .msg 0 = 0x40 ||| (s.tlen.setWidth 8 >>> 4) ∧
      t.elem .msg 1 = ((s.tlen.setWidth 8 &&& 0x0F) <<< 4) |||
        ((if 0 < s.tlen.toNat then s.elem .text 0 else 0) >>> 4) ∧
      (∀ i, i < s.tlen.toNat → t.elem .msg (2 + i) = ((s.elem .text i &&& 0x0F) <<< 4) |||
        ((if i + 1 < s.tlen.toNat then s.elem .text (i + 1) else 0) >>> 4)) ∧
      (∀ j, s.tlen.toNat + 2 + j < r.dataCount →
        t.elem .msg (s.tlen.toNat + 2 + j) = if j % 2 = 0 then 0xEC else 0x11) ∧
      (∀ m j, ¬ (m = .msg ∧ j < r.dataCount) → t.elem m j = s.elem m j)

/-! ### GF(256) -/

/-- 40_gf256.md R91, R92: the two tables: the recurrence of ALOG with the primitive polynomial, and LOG as its inverse on
1..255, for every well-formed choice of the parameters; and the printed default, with `0x11D`, is such a choice. -/
def Obligations.TablesAreTheirDefinitions : Prop :=
  (∀ c : Config, c.wf = true →
    alog c 0 = 1 ∧
    (∀ e, 1 ≤ e → e ≤ 254 → (alog c e).toNat =
      if (alog c (e - 1)).toNat * 2 < 256 then (alog c (e - 1)).toNat * 2 else ((alog c (e - 1)).toNat * 2) ^^^ c.prim) ∧
    (∀ x : Byte, x ≠ 0 →
      ∃ l, logOf c x = some l ∧ l ≤ 254 ∧ alog c l = x ∧ ∀ l', l' ≤ 254 → alog c l' = x → l' = l) ∧
    logOf c 0 = none) ∧
  cfg.wf = true ∧ cfg.prim = 0x11D ∧ alog cfg 255 = 1

/-- 40_gf256.md R95: exponent addition. -/
def Obligations.ExponentAddition : Prop :=
  ∀ g l : Nat, g ≤ 254 → l ≤ 254 → expadd g l = (g + l) % 255 ∧ expadd g l ≤ 254

/-- 40_gf256.md R90, R96: multiplication through the printed tables is multiplication of polynomials over GF(2) modulo
`x^8 + x^4 + x^3 + x^2 + 1`. -/
def Obligations.TableProductIsPolynomialProduct : Prop := ∀ a b : Byte, gfmul cfg a b = polyMul a b

/-- 40_gf256.md R97: the laws of the field, with the printed tables. -/
def Obligations.FieldLaws : Prop :=
  (∀ a b, gfmul cfg a b = gfmul cfg b a) ∧
  (∀ a b c, gfmul cfg (gfmul cfg a b) c = gfmul cfg a (gfmul cfg b c)) ∧
  (∀ a, gfmul cfg a 1 = a) ∧ (∀ a, gfmul cfg a 0 = 0) ∧
  (∀ a b c, gfmul cfg a (gfadd b c) = gfadd (gfmul cfg a b) (gfmul cfg a c)) ∧
  (∀ a l, logOf cfg a = some l → gfmul cfg a (alog cfg ((255 - l) % 255)) = 1 ∧
    ∀ b, gfmul cfg a b = 1 → b = alog cfg ((255 - l) % 255)) ∧
  (∀ x l, logOf cfg x = some l → alog cfg l = x) ∧ (∀ e, e ≤ 254 → logOf cfg (alog cfg e) = some e)

/-- 40_gf256.md R99, R100: the printed ESET, and each polynomial of the printed GEN is `(x + α^0)...(x + α^(E-1))` in
exponent form. -/
def Obligations.GeneratorsAreRootProducts : Prop :=
  (∀ e, (genPoly cfg e).isSome = true ↔ e ∈ [7, 10, 13, 15, 16, 17, 18, 20, 22, 24, 26, 28, 30]) ∧
  (∀ e g, genPoly cfg e = some g → g.map (alog cfg) = rootProduct cfg e ∧ g.headD 1 = 0 ∧ ∀ x ∈ g, x ≤ 254)

/-! ### The divider -/

/-- 42_rs_divider.md R120, R121, R122, R125: RSDIV on legal operands writes the `E` bytes of `rsdiv` to slot BLK of ECB and
changes nothing else. -/
def Obligations.RsdivWritesTheRemainder : Prop :=
  ∀ (s : State) (e blk : Nat) (g : List Nat), s.config.wf = true → blk < 128 → genPoly s.config e = some g →
    s.rsrc.toNat + s.rlen.toNat ≤ 2048 →
    ∃ t, exec (.rsdiv e blk) s = .next t ∧ Completes s t ∧
      t.slice .ecb (blk * 32) e = rsdiv s.config g (fun j => s.elem .msg (s.rsrc.toNat + j)) s.rlen.toNat e ∧
      (∀ m j, ¬ (m = .ecb ∧ blk * 32 ≤ j ∧ j < blk * 32 + e) → t.elem m j = s.elem m j)

/-- 42_rs_divider.md R124: what RSDIV computes: the data codewords followed by the bytes it writes, read as a polynomial,
are 0 at `α^0, α^1, ..., α^(E-1)` (with the printed tables and generators). -/
def Obligations.RsdivMakesACodeword : Prop :=
  ∀ (s t : State) (e blk : Nat), s.config = cfg → blk < 128 → (genPoly cfg e).isSome = true →
    s.rsrc.toNat + s.rlen.toNat ≤ 2048 →
    exec (.rsdiv e blk) s = .next t →
    IsCodeword cfg e (s.slice .msg s.rsrc.toNat s.rlen.toNat ++ t.slice .ecb (blk * 32) e)

/-- 42_rs_divider.md R126, 10_state.md R33: RSENC writes the remainder of every block of the version and changes nothing
else. -/
def Obligations.RsencWritesEveryRemainder : Prop :=
  ∀ (s : State) (r : VersionRow), s.config.wf = true → s.row = some r →
    ∃ t g, genPoly s.config r.e = some g ∧ exec .rsenc s = .next t ∧ Completes s t ∧
      (∀ b, b < r.blocks → t.slice .ecb (b * 32) r.e =
        rsdiv s.config g (fun j => s.elem .msg (r.blockOff b + j)) (r.blockLen b) r.e) ∧
      (∀ m j, ¬ (m = .ecb ∧ ∃ b i, b < r.blocks ∧ i < r.e ∧ j = b * 32 + i) → t.elem m j = s.elem m j)

/-- 42_rs_divider.md R124, R126: after RSENC every block of the version, its data codewords followed by its
error-correction codewords, is a codeword of the generator (with the printed tables, rows and generators). -/
def Obligations.RsencMakesEveryBlockACodeword : Prop :=
  ∀ (s t : State) (r : VersionRow), s.config = cfg → s.row = some r → exec .rsenc s = .next t →
    ∀ b, b < r.blocks → IsCodeword cfg r.e (s.slice .msg (r.blockOff b) (r.blockLen b) ++ t.slice .ecb (b * 32) r.e)

/-- 42_rs_divider.md R122, R123, R125: the shift register's length, `D = 0`, and that a leading zero is a pure shift. -/
def Obligations.LeadingZerosAreShifts : Prop :=
  ∀ (c : Config) (e : Nat) (g : List Nat), c.wf = true → genPoly c e = some g →
    (∀ (data : Nat → Byte) (d : Nat), (rsdiv c g data d e).length = e) ∧
    (∀ data : Nat → Byte, rsdiv c g data 0 e = List.replicate e 0) ∧
    (∀ (data : Nat → Byte) (d : Nat), data 0 = 0 → rsdiv c g data (d + 1) e = rsdiv c g (fun j => data (j + 1)) d e)

/-! ### The interleaver -/

/-- 43_interleaver.md R135 to R139: ILV writes each of the `T` codewords to the place R139 gives in closed form, and
nothing else. R139 speaks of `D2 = D1 + 1`, where the only round of group 2 alone is `i = D1`; for a table with a larger `D2`
(R137, "a `VPT` taken as a parameter") its later rounds follow, `G2` codewords each. -/
def Obligations.IlvPositions : Prop :=
  ∀ (s : State) (r : VersionRow), s.config.wf = true → s.row = some r →
    ∃ t, exec .ilv s = .next t ∧ Completes s t ∧
      (∀ b i, b < r.blocks → i < r.d1 → t.elem .stream (i * r.blocks + b) = s.elem .msg (r.blockOff b + i)) ∧
      (∀ b i, r.g1 ≤ b → b < r.blocks → r.d1 ≤ i → i < r.d2 →
        t.elem .stream (r.d1 * r.blocks + (i - r.d1) * r.g2 + (b - r.g1)) = s.elem .msg (r.blockOff b + i)) ∧
      (∀ b i, b < r.blocks → i < r.e →
        t.elem .stream (r.dataCount + i * r.blocks + b) = s.elem .ecb (b * 32 + i)) ∧
      (∀ m j, ¬ (m = .stream ∧ j < r.total) → t.elem m j = s.elem m j)

/-- 43_interleaver.md R139: conservation: every stream position below `T` holds one codeword of one block. -/
def Obligations.IlvLosesNothing : Prop :=
  ∀ (s t : State) (r : VersionRow), s.config.wf = true → s.row = some r → exec .ilv s = .next t → ∀ p, p < r.total →
    (∃ b i, b < r.blocks ∧ i < r.blockLen b ∧ t.elem .stream p = s.elem .msg (r.blockOff b + i) ∧
      p = (if i < r.d1 then i * r.blocks + b else r.d1 * r.blocks + (i - r.d1) * r.g2 + (b - r.g1))) ∨
    (∃ b i, b < r.blocks ∧ i < r.e ∧ t.elem .stream p = s.elem .ecb (b * 32 + i) ∧
      p = r.dataCount + i * r.blocks + b)

/-! ### Placement -/

/-- 45_placement.md R171, R173: the walk passes every cell of the square outside column 6 exactly once, and no other; it
has `2V + 8` strips. And its ORDER: strip `k`, row step `v`, column `j` of the strip is entry `2*S*k + 2*v + j`; an even
strip runs upward from row `S-1`, an odd one downward; the right-hand column comes first, and it goes from `S-1` down by
twos, with 6 made 5. -/
def Obligations.RouteCoversTheSquareOnce : Prop :=
  ∀ V S : Nat, 1 ≤ V → S = 4 * V + 17 →
    (route S).Nodup ∧
    (∀ row col, (row, col) ∈ route S ↔ row < S ∧ col < S ∧ col ≠ 6) ∧
    (strips S (S - 1) true).length = 2 * V + 8 ∧
    (route S).length = 2 * S * (2 * V + 8) ∧
    (∀ k v j, k < 2 * V + 8 → v < S → j < 2 →
      (route S)[2 * S * k + 2 * v + j]? = some
        (if k % 2 = 0 then S - 1 - v else v, (if 6 < S - 1 - 2 * k then S - 1 - 2 * k else S - 2 - 2 * k) - j))

/-- 45_placement.md R165, R168, R170, R172, R173: what PLACE writes. The k-th free cell of the walk takes stream bit k, and
0 after the last one, inverted in an even row; every other element, every `rsv` bit and every reserved cell stay. -/
def Obligations.PlaceThreadsTheStream : Prop :=
  ∀ (s : State) (r : VersionRow), s.config.wf = true → s.row = some r → s.mask = 1 →
    s.freeCount r.side = r.budget →
    ∃ t, exec .place s = .next t ∧ Completes s t ∧
      (∀ k row col, (visited s r)[k]? = some (row, col) → t.dark row col =
        xor (if k < 8 * r.total then (s.elem .stream (k / 8)).getLsbD (7 - k % 8) else false) (row % 2 == 0)) ∧
      (∀ row col, t.rsv row col = s.rsv row col) ∧
      (∀ m j, ¬ (m = .mat ∧ ∃ row col, (row, col) ∈ visited s r ∧ j = row * 256 + col) → t.elem m j = s.elem m j)

/-- 45_placement.md R169, R174: where the check has passed and column 6 holds no free cell, the walk visits exactly
`budget = 8*T + REM` cells. -/
def Obligations.WalkConsumesTheBudget : Prop :=
  ∀ (s : State) (r : VersionRow), s.config.wf = true → s.row = some r → s.freeCount r.side = r.budget →
    (∀ row, row < r.side → s.rsv row 6 = true) →
    (visited s r).length = 8 * r.total + r.rem ∧ (placeWalk s r).2 = 8 * r.total + r.rem

/-! ### Whole-machine rules -/

/-- 70_reset_and_hazards.md R244, R246, 41_formatter.md R115, 42_rs_divider.md R127, 45_placement.md R170: a command's
outcome and the elements it writes depend on nothing but the registers and elements R246 lists for it, and the parameters
of the block. -/
def Obligations.CommandsDependOnlyOnTheirInputs : Prop :=
  ∀ (i : Instr) (s u t v : State), s.config.wf = true → u.config = s.config → i.wellFormed = true → i.isLong = true →
    SameInputs i s u →
    exec i s = .next t → exec i u = .next v →
    t.seq = v.seq ∧
    (t.seq = .faulted → t.errcode = v.errcode ∧ t.errinfo = v.errinfo) ∧
    (t.seq = .idle →
      (∀ m j, m ≠ .mat → MayWrite s i m j → t.elem m j = v.elem m j) ∧
      (∀ row col, MayWrite s i .mat (row * 256 + col) → row < 177 → col < 177 → col ≠ 6 →
        t.dark row col = v.dark row col))

/-- 45_placement.md R170, R176, 41_formatter.md R115, 70_reset_and_hazards.md R244, 95_test_vectors.md S6: idempotence:
running a command twice leaves what running it once leaves, whole state for whole state. -/
def Obligations.LongCommandsAreIdempotent : Prop :=
  ∀ (i : Instr) (s t u : State), s.config.wf = true → i.wellFormed = true → i.isLong = true → s.mem.wf = true →
    exec i s = .next t → t.seq = .idle → exec i t = .next u → u = t

/-- 46_system.md R185, R190: ENCODE completes exactly when its four stages do, and is then their composition. -/
def Obligations.EncodeIsThePipeline : Prop :=
  ∀ (s : State) (r : VersionRow), s.row = some r → s.tlen.toNat ≤ 255 → s.tlen.toNat + 2 ≤ r.dataCount →
    s.mask = 1 → s.freeCount r.side = r.budget →
    ∃ t1 t2 t3 t, exec .fmt s = .next t1 ∧ exec .rsenc t1 = .next t2 ∧ exec .ilv t2 = .next t3 ∧
      exec .place t3 = .next t ∧ exec .encode s = .next t ∧ Completes s t

/-- 46_system.md R186: the host program ENCODE_SEQ and the program ENCODE, WAIT leave the same registers and memories when
none of the commands faults, with DONE = 1 in both. (A host program as a list of events is logs 2 and 22.) -/
def Obligations.EncodeSeqEqualsEncode : Prop :=
  ∀ s t : State, s.rst = false → s.busy = false → s.err = false →
    Host.Core.run Sys2Proof.core 12 (s.withInputs asmEncodeSeq) = .next t → State.err t = false →
    Host.Core.run Sys2Proof.core 3 (s.withInputs (asmCommand .encode ++ asmWait)) = .next t ∧
      State.done t = true ∧ State.inputs t = []

/-! ### The reference skeleton and the version table -/

/-- 10_state.md R32, R33: the printed version table: one row for each of 1..40, each well formed. -/
def Obligations.VersionTableIsWellFormed : Prop :=
  (∀ v, (versionRow cfg v).isSome = true ↔ 1 ≤ v ∧ v ≤ 40) ∧
  (∀ v r, versionRow cfg v = some r → r.version = v ∧ 1 ≤ r.blocks ∧ r.blocks ≤ 128 ∧ (genPoly cfg r.e).isSome = true ∧
    r.e ≤ 30 ∧ r.dataCount ≤ 1666 ∧ r.total ≤ 3706 ∧ 1 ≤ r.d1 ∧ (r.g2 = 0 ∨ r.d2 = r.d1 + 1) ∧ r.rem ≤ 7 ∧
    ∀ b, b < r.blocks → r.blockOff b + r.blockLen b ≤ r.dataCount)

/-- 44_matrix_skeleton.md R157, R158: for every `V` in 1..40 the number of free cells of the reference skeleton is the
budget of the version's printed row. (The skeleton is the host's, log 22.) -/
def Obligations.SkeletonFreeCellsAreTheBudget : Prop :=
  ∀ V, 1 ≤ V → V ≤ 40 → ∃ r, versionRow cfg V = some r ∧
    (skelCells V).countP (fun c => !c.2.getLsbD 1) = r.budget ∧ (skelCells V).length = r.side * r.side
end

