-- ==== Sys2Proof/Laws/State.lean ====
section
/-! SUPPORT. One lemma per field of State and per named update of it, each true by unfolding, so that no later proof
unfolds a record update. -/

namespace Sys2Proof.Machine

/-! `State.setMem` -/

@[simp] theorem State.setMem_seq (s : State) (M : Memory) : (s.setMem M).seq = s.seq := rfl
@[simp] theorem State.setMem_busy (s : State) (M : Memory) : (s.setMem M).busy = s.busy := rfl
@[simp] theorem State.setMem_done (s : State) (M : Memory) : (s.setMem M).done = s.done := rfl
@[simp] theorem State.setMem_err (s : State) (M : Memory) : (s.setMem M).err = s.err := rfl
@[simp] theorem State.setMem_hzd (s : State) (M : Memory) : (s.setMem M).hzd = s.hzd := rfl
@[simp] theorem State.setMem_errcode (s : State) (M : Memory) : (s.setMem M).errcode = s.errcode := rfl
@[simp] theorem State.setMem_errinfo (s : State) (M : Memory) : (s.setMem M).errinfo = s.errinfo := rfl
@[simp] theorem State.setMem_ie (s : State) (M : Memory) : (s.setMem M).ie = s.ie := rfl
@[simp] theorem State.setMem_ver (s : State) (M : Memory) : (s.setMem M).ver = s.ver := rfl
@[simp] theorem State.setMem_tlen (s : State) (M : Memory) : (s.setMem M).tlen = s.tlen := rfl
@[simp] theorem State.setMem_mask (s : State) (M : Memory) : (s.setMem M).mask = s.mask := rfl
@[simp] theorem State.setMem_rsrc (s : State) (M : Memory) : (s.setMem M).rsrc = s.rsrc := rfl
@[simp] theorem State.setMem_rlen (s : State) (M : Memory) : (s.setMem M).rlen = s.rlen := rfl
@[simp] theorem State.setMem_mem (s : State) (M : Memory) : (s.setMem M).mem = M := rfl
@[simp] theorem State.setMem_rst (s : State) (M : Memory) : (s.setMem M).rst = s.rst := rfl
@[simp] theorem State.setMem_config (s : State) (M : Memory) : (s.setMem M).config = s.config := rfl
@[simp] theorem State.setMem_powerUps (s : State) (M : Memory) : (s.setMem M).powerUps = s.powerUps := rfl
@[simp] theorem State.setMem_cuts (s : State) (M : Memory) : (s.setMem M).cuts = s.cuts := rfl
@[simp] theorem State.setMem_resetReads (s : State) (M : Memory) : (s.setMem M).resetReads = s.resetReads := rfl
@[simp] theorem State.setMem_inputs (s : State) (M : Memory) : (s.setMem M).inputs = s.inputs := rfl
@[simp] theorem State.setMem_log (s : State) (M : Memory) : (s.setMem M).log = s.log := rfl

/-! `State.setHzd` -/

@[simp] theorem State.setHzd_seq (s : State) : (s.setHzd).seq = s.seq := rfl
@[simp] theorem State.setHzd_busy (s : State) : (s.setHzd).busy = s.busy := rfl
@[simp] theorem State.setHzd_done (s : State) : (s.setHzd).done = s.done := rfl
@[simp] theorem State.setHzd_err (s : State) : (s.setHzd).err = s.err := rfl
@[simp] theorem State.setHzd_hzd (s : State) : (s.setHzd).hzd = true := rfl
@[simp] theorem State.setHzd_errcode (s : State) : (s.setHzd).errcode = s.errcode := rfl
@[simp] theorem State.setHzd_errinfo (s : State) : (s.setHzd).errinfo = s.errinfo := rfl
@[simp] theorem State.setHzd_ie (s : State) : (s.setHzd).ie = s.ie := rfl
@[simp] theorem State.setHzd_ver (s : State) : (s.setHzd).ver = s.ver := rfl
@[simp] theorem State.setHzd_tlen (s : State) : (s.setHzd).tlen = s.tlen := rfl
@[simp] theorem State.setHzd_mask (s : State) : (s.setHzd).mask = s.mask := rfl
@[simp] theorem State.setHzd_rsrc (s : State) : (s.setHzd).rsrc = s.rsrc := rfl
@[simp] theorem State.setHzd_rlen (s : State) : (s.setHzd).rlen = s.rlen := rfl
@[simp] theorem State.setHzd_mem (s : State) : (s.setHzd).mem = s.mem := rfl
@[simp] theorem State.setHzd_rst (s : State) : (s.setHzd).rst = s.rst := rfl
@[simp] theorem State.setHzd_config (s : State) : (s.setHzd).config = s.config := rfl
@[simp] theorem State.setHzd_powerUps (s : State) : (s.setHzd).powerUps = s.powerUps := rfl
@[simp] theorem State.setHzd_cuts (s : State) : (s.setHzd).cuts = s.cuts := rfl
@[simp] theorem State.setHzd_resetReads (s : State) : (s.setHzd).resetReads = s.resetReads := rfl
@[simp] theorem State.setHzd_inputs (s : State) : (s.setHzd).inputs = s.inputs := rfl
@[simp] theorem State.setHzd_log (s : State) : (s.setHzd).log = s.log := rfl

/-! `State.accept` -/

@[simp] theorem State.accept_seq (s : State) (w : Word) : (s.accept w).seq = .run w := rfl
@[simp] theorem State.accept_busy (s : State) (w : Word) : (s.accept w).busy = true := rfl
@[simp] theorem State.accept_done (s : State) (w : Word) : (s.accept w).done = false := rfl
@[simp] theorem State.accept_err (s : State) (w : Word) : (s.accept w).err = s.err := rfl
@[simp] theorem State.accept_hzd (s : State) (w : Word) : (s.accept w).hzd = s.hzd := rfl
@[simp] theorem State.accept_errcode (s : State) (w : Word) : (s.accept w).errcode = s.errcode := rfl
@[simp] theorem State.accept_errinfo (s : State) (w : Word) : (s.accept w).errinfo = s.errinfo := rfl
@[simp] theorem State.accept_ie (s : State) (w : Word) : (s.accept w).ie = s.ie := rfl
@[simp] theorem State.accept_ver (s : State) (w : Word) : (s.accept w).ver = s.ver := rfl
@[simp] theorem State.accept_tlen (s : State) (w : Word) : (s.accept w).tlen = s.tlen := rfl
@[simp] theorem State.accept_mask (s : State) (w : Word) : (s.accept w).mask = s.mask := rfl
@[simp] theorem State.accept_rsrc (s : State) (w : Word) : (s.accept w).rsrc = s.rsrc := rfl
@[simp] theorem State.accept_rlen (s : State) (w : Word) : (s.accept w).rlen = s.rlen := rfl
@[simp] theorem State.accept_mem (s : State) (w : Word) : (s.accept w).mem = s.mem := rfl
@[simp] theorem State.accept_rst (s : State) (w : Word) : (s.accept w).rst = s.rst := rfl
@[simp] theorem State.accept_config (s : State) (w : Word) : (s.accept w).config = s.config := rfl
@[simp] theorem State.accept_powerUps (s : State) (w : Word) : (s.accept w).powerUps = s.powerUps := rfl
@[simp] theorem State.accept_cuts (s : State) (w : Word) : (s.accept w).cuts = s.cuts := rfl
@[simp] theorem State.accept_resetReads (s : State) (w : Word) : (s.accept w).resetReads = s.resetReads := rfl
@[simp] theorem State.accept_inputs (s : State) (w : Word) : (s.accept w).inputs = s.inputs := rfl
@[simp] theorem State.accept_log (s : State) (w : Word) : (s.accept w).log = s.log := rfl

/-! `State.complete` -/

@[simp] theorem State.complete_seq (s : State) (M : Memory) : (s.complete M).seq = .idle := rfl
@[simp] theorem State.complete_busy (s : State) (M : Memory) : (s.complete M).busy = false := rfl
@[simp] theorem State.complete_done (s : State) (M : Memory) : (s.complete M).done = true := rfl
@[simp] theorem State.complete_err (s : State) (M : Memory) : (s.complete M).err = s.err := rfl
@[simp] theorem State.complete_hzd (s : State) (M : Memory) : (s.complete M).hzd = s.hzd := rfl
@[simp] theorem State.complete_errcode (s : State) (M : Memory) : (s.complete M).errcode = s.errcode := rfl
@[simp] theorem State.complete_errinfo (s : State) (M : Memory) : (s.complete M).errinfo = s.errinfo := rfl
@[simp] theorem State.complete_ie (s : State) (M : Memory) : (s.complete M).ie = s.ie := rfl
@[simp] theorem State.complete_ver (s : State) (M : Memory) : (s.complete M).ver = s.ver := rfl
@[simp] theorem State.complete_tlen (s : State) (M : Memory) : (s.complete M).tlen = s.tlen := rfl
@[simp] theorem State.complete_mask (s : State) (M : Memory) : (s.complete M).mask = s.mask := rfl
@[simp] theorem State.complete_rsrc (s : State) (M : Memory) : (s.complete M).rsrc = s.rsrc := rfl
@[simp] theorem State.complete_rlen (s : State) (M : Memory) : (s.complete M).rlen = s.rlen := rfl
@[simp] theorem State.complete_mem (s : State) (M : Memory) : (s.complete M).mem = M := rfl
@[simp] theorem State.complete_rst (s : State) (M : Memory) : (s.complete M).rst = s.rst := rfl
@[simp] theorem State.complete_config (s : State) (M : Memory) : (s.complete M).config = s.config := rfl
@[simp] theorem State.complete_powerUps (s : State) (M : Memory) : (s.complete M).powerUps = s.powerUps := rfl
@[simp] theorem State.complete_cuts (s : State) (M : Memory) : (s.complete M).cuts = s.cuts := rfl
@[simp] theorem State.complete_resetReads (s : State) (M : Memory) : (s.complete M).resetReads = s.resetReads := rfl
@[simp] theorem State.complete_inputs (s : State) (M : Memory) : (s.complete M).inputs = s.inputs := rfl
@[simp] theorem State.complete_log (s : State) (M : Memory) : (s.complete M).log = s.log := rfl

/-! `State.takeFault` -/

@[simp] theorem State.takeFault_seq (s : State) (c : Cause) (info : Word) : (s.takeFault c info).seq = .faulted := rfl
@[simp] theorem State.takeFault_busy (s : State) (c : Cause) (info : Word) : (s.takeFault c info).busy = false := rfl
@[simp] theorem State.takeFault_done (s : State) (c : Cause) (info : Word) : (s.takeFault c info).done = false := rfl
@[simp] theorem State.takeFault_err (s : State) (c : Cause) (info : Word) : (s.takeFault c info).err = true := rfl
@[simp] theorem State.takeFault_hzd (s : State) (c : Cause) (info : Word) : (s.takeFault c info).hzd = s.hzd := rfl
@[simp] theorem State.takeFault_errcode (s : State) (c : Cause) (info : Word) : (s.takeFault c info).errcode = c.code := rfl
@[simp] theorem State.takeFault_errinfo (s : State) (c : Cause) (info : Word) : (s.takeFault c info).errinfo = info := rfl
@[simp] theorem State.takeFault_ie (s : State) (c : Cause) (info : Word) : (s.takeFault c info).ie = s.ie := rfl
@[simp] theorem State.takeFault_ver (s : State) (c : Cause) (info : Word) : (s.takeFault c info).ver = s.ver := rfl
@[simp] theorem State.takeFault_tlen (s : State) (c : Cause) (info : Word) : (s.takeFault c info).tlen = s.tlen := rfl
@[simp] theorem State.takeFault_mask (s : State) (c : Cause) (info : Word) : (s.takeFault c info).mask = s.mask := rfl
@[simp] theorem State.takeFault_rsrc (s : State) (c : Cause) (info : Word) : (s.takeFault c info).rsrc = s.rsrc := rfl
@[simp] theorem State.takeFault_rlen (s : State) (c : Cause) (info : Word) : (s.takeFault c info).rlen = s.rlen := rfl
@[simp] theorem State.takeFault_mem (s : State) (c : Cause) (info : Word) : (s.takeFault c info).mem = s.mem := rfl
@[simp] theorem State.takeFault_rst (s : State) (c : Cause) (info : Word) : (s.takeFault c info).rst = s.rst := rfl
@[simp] theorem State.takeFault_config (s : State) (c : Cause) (info : Word) : (s.takeFault c info).config = s.config := rfl
@[simp] theorem State.takeFault_powerUps (s : State) (c : Cause) (info : Word) : (s.takeFault c info).powerUps = s.powerUps := rfl
@[simp] theorem State.takeFault_cuts (s : State) (c : Cause) (info : Word) : (s.takeFault c info).cuts = s.cuts := rfl
@[simp] theorem State.takeFault_resetReads (s : State) (c : Cause) (info : Word) : (s.takeFault c info).resetReads = s.resetReads := rfl
@[simp] theorem State.takeFault_inputs (s : State) (c : Cause) (info : Word) : (s.takeFault c info).inputs = s.inputs := rfl
@[simp] theorem State.takeFault_log (s : State) (c : Cause) (info : Word) : (s.takeFault c info).log = s.log := rfl

/-! `State.leaveFaulted` -/

@[simp] theorem State.leaveFaulted_seq (s : State) : (s.leaveFaulted).seq = .idle := rfl
@[simp] theorem State.leaveFaulted_busy (s : State) : (s.leaveFaulted).busy = s.busy := rfl
@[simp] theorem State.leaveFaulted_done (s : State) : (s.leaveFaulted).done = s.done := rfl
@[simp] theorem State.leaveFaulted_err (s : State) : (s.leaveFaulted).err = false := rfl
@[simp] theorem State.leaveFaulted_hzd (s : State) : (s.leaveFaulted).hzd = s.hzd := rfl
@[simp] theorem State.leaveFaulted_errcode (s : State) : (s.leaveFaulted).errcode = 0 := rfl
@[simp] theorem State.leaveFaulted_errinfo (s : State) : (s.leaveFaulted).errinfo = 0 := rfl
@[simp] theorem State.leaveFaulted_ie (s : State) : (s.leaveFaulted).ie = s.ie := rfl
@[simp] theorem State.leaveFaulted_ver (s : State) : (s.leaveFaulted).ver = s.ver := rfl
@[simp] theorem State.leaveFaulted_tlen (s : State) : (s.leaveFaulted).tlen = s.tlen := rfl
@[simp] theorem State.leaveFaulted_mask (s : State) : (s.leaveFaulted).mask = s.mask := rfl
@[simp] theorem State.leaveFaulted_rsrc (s : State) : (s.leaveFaulted).rsrc = s.rsrc := rfl
@[simp] theorem State.leaveFaulted_rlen (s : State) : (s.leaveFaulted).rlen = s.rlen := rfl
@[simp] theorem State.leaveFaulted_mem (s : State) : (s.leaveFaulted).mem = s.mem := rfl
@[simp] theorem State.leaveFaulted_rst (s : State) : (s.leaveFaulted).rst = s.rst := rfl
@[simp] theorem State.leaveFaulted_config (s : State) : (s.leaveFaulted).config = s.config := rfl
@[simp] theorem State.leaveFaulted_powerUps (s : State) : (s.leaveFaulted).powerUps = s.powerUps := rfl
@[simp] theorem State.leaveFaulted_cuts (s : State) : (s.leaveFaulted).cuts = s.cuts := rfl
@[simp] theorem State.leaveFaulted_resetReads (s : State) : (s.leaveFaulted).resetReads = s.resetReads := rfl
@[simp] theorem State.leaveFaulted_inputs (s : State) : (s.leaveFaulted).inputs = s.inputs := rfl
@[simp] theorem State.leaveFaulted_log (s : State) : (s.leaveFaulted).log = s.log := rfl

/-! `State.setDone` -/

@[simp] theorem State.setDone_seq (s : State) : (s.setDone).seq = s.seq := rfl
@[simp] theorem State.setDone_busy (s : State) : (s.setDone).busy = s.busy := rfl
@[simp] theorem State.setDone_done (s : State) : (s.setDone).done = true := rfl
@[simp] theorem State.setDone_err (s : State) : (s.setDone).err = s.err := rfl
@[simp] theorem State.setDone_hzd (s : State) : (s.setDone).hzd = s.hzd := rfl
@[simp] theorem State.setDone_errcode (s : State) : (s.setDone).errcode = s.errcode := rfl
@[simp] theorem State.setDone_errinfo (s : State) : (s.setDone).errinfo = s.errinfo := rfl
@[simp] theorem State.setDone_ie (s : State) : (s.setDone).ie = s.ie := rfl
@[simp] theorem State.setDone_ver (s : State) : (s.setDone).ver = s.ver := rfl
@[simp] theorem State.setDone_tlen (s : State) : (s.setDone).tlen = s.tlen := rfl
@[simp] theorem State.setDone_mask (s : State) : (s.setDone).mask = s.mask := rfl
@[simp] theorem State.setDone_rsrc (s : State) : (s.setDone).rsrc = s.rsrc := rfl
@[simp] theorem State.setDone_rlen (s : State) : (s.setDone).rlen = s.rlen := rfl
@[simp] theorem State.setDone_mem (s : State) : (s.setDone).mem = s.mem := rfl
@[simp] theorem State.setDone_rst (s : State) : (s.setDone).rst = s.rst := rfl
@[simp] theorem State.setDone_config (s : State) : (s.setDone).config = s.config := rfl
@[simp] theorem State.setDone_powerUps (s : State) : (s.setDone).powerUps = s.powerUps := rfl
@[simp] theorem State.setDone_cuts (s : State) : (s.setDone).cuts = s.cuts := rfl
@[simp] theorem State.setDone_resetReads (s : State) : (s.setDone).resetReads = s.resetReads := rfl
@[simp] theorem State.setDone_inputs (s : State) : (s.setDone).inputs = s.inputs := rfl
@[simp] theorem State.setDone_log (s : State) : (s.setDone).log = s.log := rfl

/-! `State.resetRegisters` -/

@[simp] theorem State.resetRegisters_seq (s : State) : (s.resetRegisters).seq = .idle := rfl
@[simp] theorem State.resetRegisters_busy (s : State) : (s.resetRegisters).busy = false := rfl
@[simp] theorem State.resetRegisters_done (s : State) : (s.resetRegisters).done = false := rfl
@[simp] theorem State.resetRegisters_err (s : State) : (s.resetRegisters).err = false := rfl
@[simp] theorem State.resetRegisters_hzd (s : State) : (s.resetRegisters).hzd = false := rfl
@[simp] theorem State.resetRegisters_errcode (s : State) : (s.resetRegisters).errcode = 0 := rfl
@[simp] theorem State.resetRegisters_errinfo (s : State) : (s.resetRegisters).errinfo = 0 := rfl
@[simp] theorem State.resetRegisters_ie (s : State) : (s.resetRegisters).ie = 0 := rfl
@[simp] theorem State.resetRegisters_ver (s : State) : (s.resetRegisters).ver = 0 := rfl
@[simp] theorem State.resetRegisters_tlen (s : State) : (s.resetRegisters).tlen = 0 := rfl
@[simp] theorem State.resetRegisters_mask (s : State) : (s.resetRegisters).mask = 1 := rfl
@[simp] theorem State.resetRegisters_rsrc (s : State) : (s.resetRegisters).rsrc = 0 := rfl
@[simp] theorem State.resetRegisters_rlen (s : State) : (s.resetRegisters).rlen = 0 := rfl
@[simp] theorem State.resetRegisters_mem (s : State) : (s.resetRegisters).mem = s.mem := rfl
@[simp] theorem State.resetRegisters_rst (s : State) : (s.resetRegisters).rst = s.rst := rfl
@[simp] theorem State.resetRegisters_config (s : State) : (s.resetRegisters).config = s.config := rfl
@[simp] theorem State.resetRegisters_powerUps (s : State) : (s.resetRegisters).powerUps = s.powerUps := rfl
@[simp] theorem State.resetRegisters_cuts (s : State) : (s.resetRegisters).cuts = s.cuts := rfl
@[simp] theorem State.resetRegisters_resetReads (s : State) : (s.resetRegisters).resetReads = s.resetReads := rfl
@[simp] theorem State.resetRegisters_inputs (s : State) : (s.resetRegisters).inputs = s.inputs := rfl
@[simp] theorem State.resetRegisters_log (s : State) : (s.resetRegisters).log = s.log := rfl

/-! `State.withInputs` -/

@[simp] theorem State.withInputs_seq (s : State) (l : List Event) : (s.withInputs l).seq = s.seq := rfl
@[simp] theorem State.withInputs_busy (s : State) (l : List Event) : (s.withInputs l).busy = s.busy := rfl
@[simp] theorem State.withInputs_done (s : State) (l : List Event) : (s.withInputs l).done = s.done := rfl
@[simp] theorem State.withInputs_err (s : State) (l : List Event) : (s.withInputs l).err = s.err := rfl
@[simp] theorem State.withInputs_hzd (s : State) (l : List Event) : (s.withInputs l).hzd = s.hzd := rfl
@[simp] theorem State.withInputs_errcode (s : State) (l : List Event) : (s.withInputs l).errcode = s.errcode := rfl
@[simp] theorem State.withInputs_errinfo (s : State) (l : List Event) : (s.withInputs l).errinfo = s.errinfo := rfl
@[simp] theorem State.withInputs_ie (s : State) (l : List Event) : (s.withInputs l).ie = s.ie := rfl
@[simp] theorem State.withInputs_ver (s : State) (l : List Event) : (s.withInputs l).ver = s.ver := rfl
@[simp] theorem State.withInputs_tlen (s : State) (l : List Event) : (s.withInputs l).tlen = s.tlen := rfl
@[simp] theorem State.withInputs_mask (s : State) (l : List Event) : (s.withInputs l).mask = s.mask := rfl
@[simp] theorem State.withInputs_rsrc (s : State) (l : List Event) : (s.withInputs l).rsrc = s.rsrc := rfl
@[simp] theorem State.withInputs_rlen (s : State) (l : List Event) : (s.withInputs l).rlen = s.rlen := rfl
@[simp] theorem State.withInputs_mem (s : State) (l : List Event) : (s.withInputs l).mem = s.mem := rfl
@[simp] theorem State.withInputs_rst (s : State) (l : List Event) : (s.withInputs l).rst = s.rst := rfl
@[simp] theorem State.withInputs_config (s : State) (l : List Event) : (s.withInputs l).config = s.config := rfl
@[simp] theorem State.withInputs_powerUps (s : State) (l : List Event) : (s.withInputs l).powerUps = s.powerUps := rfl
@[simp] theorem State.withInputs_cuts (s : State) (l : List Event) : (s.withInputs l).cuts = s.cuts := rfl
@[simp] theorem State.withInputs_resetReads (s : State) (l : List Event) : (s.withInputs l).resetReads = s.resetReads := rfl
@[simp] theorem State.withInputs_inputs (s : State) (l : List Event) : (s.withInputs l).inputs = l := rfl
@[simp] theorem State.withInputs_log (s : State) (l : List Event) : (s.withInputs l).log = s.log := rfl

/-! `State.record` -/

@[simp] theorem State.record_seq (s : State) (v : Word) : (s.record v).seq = s.seq := rfl
@[simp] theorem State.record_busy (s : State) (v : Word) : (s.record v).busy = s.busy := rfl
@[simp] theorem State.record_done (s : State) (v : Word) : (s.record v).done = s.done := rfl
@[simp] theorem State.record_err (s : State) (v : Word) : (s.record v).err = s.err := rfl
@[simp] theorem State.record_hzd (s : State) (v : Word) : (s.record v).hzd = s.hzd := rfl
@[simp] theorem State.record_errcode (s : State) (v : Word) : (s.record v).errcode = s.errcode := rfl
@[simp] theorem State.record_errinfo (s : State) (v : Word) : (s.record v).errinfo = s.errinfo := rfl
@[simp] theorem State.record_ie (s : State) (v : Word) : (s.record v).ie = s.ie := rfl
@[simp] theorem State.record_ver (s : State) (v : Word) : (s.record v).ver = s.ver := rfl
@[simp] theorem State.record_tlen (s : State) (v : Word) : (s.record v).tlen = s.tlen := rfl
@[simp] theorem State.record_mask (s : State) (v : Word) : (s.record v).mask = s.mask := rfl
@[simp] theorem State.record_rsrc (s : State) (v : Word) : (s.record v).rsrc = s.rsrc := rfl
@[simp] theorem State.record_rlen (s : State) (v : Word) : (s.record v).rlen = s.rlen := rfl
@[simp] theorem State.record_mem (s : State) (v : Word) : (s.record v).mem = s.mem := rfl
@[simp] theorem State.record_rst (s : State) (v : Word) : (s.record v).rst = s.rst := rfl
@[simp] theorem State.record_config (s : State) (v : Word) : (s.record v).config = s.config := rfl
@[simp] theorem State.record_powerUps (s : State) (v : Word) : (s.record v).powerUps = s.powerUps := rfl
@[simp] theorem State.record_cuts (s : State) (v : Word) : (s.record v).cuts = s.cuts := rfl
@[simp] theorem State.record_resetReads (s : State) (v : Word) : (s.record v).resetReads = s.resetReads := rfl
@[simp] theorem State.record_inputs (s : State) (v : Word) : (s.record v).inputs = s.inputs := rfl
@[simp] theorem State.record_log (s : State) (v : Word) : (s.record v).log = s.log ++ [v] := rfl

/-! `State.setRst` -/

@[simp] theorem State.setRst_seq (s : State) (b : Bool) : (s.setRst b).seq = s.seq := rfl
@[simp] theorem State.setRst_busy (s : State) (b : Bool) : (s.setRst b).busy = s.busy := rfl
@[simp] theorem State.setRst_done (s : State) (b : Bool) : (s.setRst b).done = s.done := rfl
@[simp] theorem State.setRst_err (s : State) (b : Bool) : (s.setRst b).err = s.err := rfl
@[simp] theorem State.setRst_hzd (s : State) (b : Bool) : (s.setRst b).hzd = s.hzd := rfl
@[simp] theorem State.setRst_errcode (s : State) (b : Bool) : (s.setRst b).errcode = s.errcode := rfl
@[simp] theorem State.setRst_errinfo (s : State) (b : Bool) : (s.setRst b).errinfo = s.errinfo := rfl
@[simp] theorem State.setRst_ie (s : State) (b : Bool) : (s.setRst b).ie = s.ie := rfl
@[simp] theorem State.setRst_ver (s : State) (b : Bool) : (s.setRst b).ver = s.ver := rfl
@[simp] theorem State.setRst_tlen (s : State) (b : Bool) : (s.setRst b).tlen = s.tlen := rfl
@[simp] theorem State.setRst_mask (s : State) (b : Bool) : (s.setRst b).mask = s.mask := rfl
@[simp] theorem State.setRst_rsrc (s : State) (b : Bool) : (s.setRst b).rsrc = s.rsrc := rfl
@[simp] theorem State.setRst_rlen (s : State) (b : Bool) : (s.setRst b).rlen = s.rlen := rfl
@[simp] theorem State.setRst_mem (s : State) (b : Bool) : (s.setRst b).mem = s.mem := rfl
@[simp] theorem State.setRst_rst (s : State) (b : Bool) : (s.setRst b).rst = b := rfl
@[simp] theorem State.setRst_config (s : State) (b : Bool) : (s.setRst b).config = s.config := rfl
@[simp] theorem State.setRst_powerUps (s : State) (b : Bool) : (s.setRst b).powerUps = s.powerUps := rfl
@[simp] theorem State.setRst_cuts (s : State) (b : Bool) : (s.setRst b).cuts = s.cuts := rfl
@[simp] theorem State.setRst_resetReads (s : State) (b : Bool) : (s.setRst b).resetReads = s.resetReads := rfl
@[simp] theorem State.setRst_inputs (s : State) (b : Bool) : (s.setRst b).inputs = s.inputs := rfl
@[simp] theorem State.setRst_log (s : State) (b : Bool) : (s.setRst b).log = s.log := rfl

/-! `State.countResetRead` -/

@[simp] theorem State.countResetRead_seq (s : State) : (s.countResetRead).seq = s.seq := rfl
@[simp] theorem State.countResetRead_busy (s : State) : (s.countResetRead).busy = s.busy := rfl
@[simp] theorem State.countResetRead_done (s : State) : (s.countResetRead).done = s.done := rfl
@[simp] theorem State.countResetRead_err (s : State) : (s.countResetRead).err = s.err := rfl
@[simp] theorem State.countResetRead_hzd (s : State) : (s.countResetRead).hzd = s.hzd := rfl
@[simp] theorem State.countResetRead_errcode (s : State) : (s.countResetRead).errcode = s.errcode := rfl
@[simp] theorem State.countResetRead_errinfo (s : State) : (s.countResetRead).errinfo = s.errinfo := rfl
@[simp] theorem State.countResetRead_ie (s : State) : (s.countResetRead).ie = s.ie := rfl
@[simp] theorem State.countResetRead_ver (s : State) : (s.countResetRead).ver = s.ver := rfl
@[simp] theorem State.countResetRead_tlen (s : State) : (s.countResetRead).tlen = s.tlen := rfl
@[simp] theorem State.countResetRead_mask (s : State) : (s.countResetRead).mask = s.mask := rfl
@[simp] theorem State.countResetRead_rsrc (s : State) : (s.countResetRead).rsrc = s.rsrc := rfl
@[simp] theorem State.countResetRead_rlen (s : State) : (s.countResetRead).rlen = s.rlen := rfl
@[simp] theorem State.countResetRead_mem (s : State) : (s.countResetRead).mem = s.mem := rfl
@[simp] theorem State.countResetRead_rst (s : State) : (s.countResetRead).rst = s.rst := rfl
@[simp] theorem State.countResetRead_config (s : State) : (s.countResetRead).config = s.config := rfl
@[simp] theorem State.countResetRead_powerUps (s : State) : (s.countResetRead).powerUps = s.powerUps := rfl
@[simp] theorem State.countResetRead_cuts (s : State) : (s.countResetRead).cuts = s.cuts := rfl
@[simp] theorem State.countResetRead_resetReads (s : State) : (s.countResetRead).resetReads = s.resetReads + 1 := rfl
@[simp] theorem State.countResetRead_inputs (s : State) : (s.countResetRead).inputs = s.inputs := rfl
@[simp] theorem State.countResetRead_log (s : State) : (s.countResetRead).log = s.log := rfl

/-! `State.writeStatus` -/

@[simp] theorem State.writeStatus_seq (s : State) (v : Word) : (s.writeStatus v).seq = s.seq := rfl
@[simp] theorem State.writeStatus_busy (s : State) (v : Word) : (s.writeStatus v).busy = s.busy := rfl
@[simp] theorem State.writeStatus_done (s : State) (v : Word) : (s.writeStatus v).done = (s.done && !v.getLsbD 1) := rfl
@[simp] theorem State.writeStatus_err (s : State) (v : Word) : (s.writeStatus v).err = s.err := rfl
@[simp] theorem State.writeStatus_hzd (s : State) (v : Word) : (s.writeStatus v).hzd = (s.hzd && !v.getLsbD 3) := rfl
@[simp] theorem State.writeStatus_errcode (s : State) (v : Word) : (s.writeStatus v).errcode = s.errcode := rfl
@[simp] theorem State.writeStatus_errinfo (s : State) (v : Word) : (s.writeStatus v).errinfo = s.errinfo := rfl
@[simp] theorem State.writeStatus_ie (s : State) (v : Word) : (s.writeStatus v).ie = s.ie := rfl
@[simp] theorem State.writeStatus_ver (s : State) (v : Word) : (s.writeStatus v).ver = s.ver := rfl
@[simp] theorem State.writeStatus_tlen (s : State) (v : Word) : (s.writeStatus v).tlen = s.tlen := rfl
@[simp] theorem State.writeStatus_mask (s : State) (v : Word) : (s.writeStatus v).mask = s.mask := rfl
@[simp] theorem State.writeStatus_rsrc (s : State) (v : Word) : (s.writeStatus v).rsrc = s.rsrc := rfl
@[simp] theorem State.writeStatus_rlen (s : State) (v : Word) : (s.writeStatus v).rlen = s.rlen := rfl
@[simp] theorem State.writeStatus_mem (s : State) (v : Word) : (s.writeStatus v).mem = s.mem := rfl
@[simp] theorem State.writeStatus_rst (s : State) (v : Word) : (s.writeStatus v).rst = s.rst := rfl
@[simp] theorem State.writeStatus_config (s : State) (v : Word) : (s.writeStatus v).config = s.config := rfl
@[simp] theorem State.writeStatus_powerUps (s : State) (v : Word) : (s.writeStatus v).powerUps = s.powerUps := rfl
@[simp] theorem State.writeStatus_cuts (s : State) (v : Word) : (s.writeStatus v).cuts = s.cuts := rfl
@[simp] theorem State.writeStatus_resetReads (s : State) (v : Word) : (s.writeStatus v).resetReads = s.resetReads := rfl
@[simp] theorem State.writeStatus_inputs (s : State) (v : Word) : (s.writeStatus v).inputs = s.inputs := rfl
@[simp] theorem State.writeStatus_log (s : State) (v : Word) : (s.writeStatus v).log = s.log := rfl

end Sys2Proof.Machine
end

