-- ==== Sys2Proof/Laws/Memory.lean ====
section
/-! SUPPORT. The laws of memory elements: a read after a write to the same element gives the value written, a write leaves
every other element alone (20_memory.md R49, R55), and every memory operation keeps the canonical form. -/

namespace Sys2Proof.Machine

/-! ### Lists of cells -/

theorem lookup_insertCell (l : List Host.Cell) (i : Nat) (v : Byte) (j : Nat) :
    lookup (insertCell l i v) j = if j = i then some v else lookup l j := by
  induction l with
  | nil => simp [insertCell, lookup]
  | cons c t ih =>
    obtain ⟨a, w⟩ := c
    simp only [insertCell]
    split
    · simp [lookup]
    · split
      · subst_vars; by_cases h : j = a <;> simp [lookup, h]
      · simp only [lookup, ih]
        by_cases h : j = a <;> by_cases h' : j = i <;> simp_all

/-- Every index of a list is above `k`. -/
abbrev above (k : Nat) (l : List Host.Cell) : Prop := ∀ c ∈ l, k < c.1

theorem rising_cons (a : Nat) (v : Byte) (l : List Host.Cell) :
    rising ((a, v) :: l) = true ↔ above a l ∧ rising l = true := by
  induction l generalizing a v with
  | nil => simp [rising]
  | cons c t ih =>
    obtain ⟨b, w⟩ := c
    simp only [rising, Bool.and_eq_true, decide_eq_true_eq]
    constructor
    · rintro ⟨hab, hr⟩
      refine ⟨fun c hc => ?_, hr⟩
      rcases List.mem_cons.1 hc with rfl | hc
      · exact hab
      · exact Nat.lt_trans hab ((ih b w).1 hr |>.1 c hc)
    · rintro ⟨hab, hr⟩
      exact ⟨hab (b, w) List.mem_cons_self, hr⟩

theorem mem_insertCell {l : List Host.Cell} {i : Nat} {v : Byte} {c : Host.Cell} (h : c ∈ insertCell l i v) :
    c = (i, v) ∨ c ∈ l := by
  induction l with
  | nil => simpa [insertCell] using h
  | cons d t ih =>
    obtain ⟨a, w⟩ := d
    simp only [insertCell] at h
    split at h
    · simpa using h
    · split at h
      · rcases List.mem_cons.1 h with h | h
        · exact .inl h
        · exact .inr (List.mem_cons_of_mem _ h)
      · rcases List.mem_cons.1 h with h | h
        · exact .inr (h ▸ List.mem_cons_self)
        · rcases ih h with h | h
          · exact .inl h
          · exact .inr (List.mem_cons_of_mem _ h)

theorem rising_insertCell (l : List Host.Cell) (i : Nat) (v : Byte) (h : rising l = true) :
    rising (insertCell l i v) = true := by
  induction l with
  | nil => rfl
  | cons c t ih =>
    obtain ⟨a, w⟩ := c
    have ha := (rising_cons a w t).1 h
    simp only [insertCell]
    split
    · rename_i hlt
      refine (rising_cons i v _).2 ⟨?_, h⟩
      intro c hc
      rcases List.mem_cons.1 hc with rfl | hc
      · exact hlt
      · exact Nat.lt_trans hlt (ha.1 c hc)
    · split
      · rename_i heq; subst heq; exact (rising_cons _ v t).2 ha
      · refine (rising_cons a w _).2 ⟨?_, ih ha.2⟩
        intro c hc
        rcases mem_insertCell hc with rfl | hc
        · simp only; omega
        · exact ha.1 c hc

/-! ### The five memories -/

@[simp] theorem Memory.cells_withCells (M : Memory) (m : MemName) (l : List Host.Cell) : (M.withCells m l).cells m = l := by
  cases m <;> rfl

theorem Memory.cells_withCells_other (M : Memory) {m m' : MemName} (l : List Host.Cell) (h : m' ≠ m) :
    (M.withCells m l).cells m' = M.cells m' := by
  cases m <;> cases m' <;> first | rfl | exact absurd rfl h

theorem Memory.get?_put (M : Memory) (m m' : MemName) (i j : Nat) (v : Byte) :
    (M.put m i v).get? m' j = if m' = m ∧ j = i then some (v &&& widthMask m) else M.get? m' j := by
  by_cases h : m' = m
  · subst h; simp [Memory.get?, Memory.put, lookup_insertCell]
  · simp [Memory.get?, Memory.put, h, Memory.cells_withCells_other]

theorem Memory.elem_eq (M : Memory) (p : Nat) (m : MemName) (i : Nat) :
    M.elem p m i = (M.get? m i).getD (Config.unwritten p m i &&& widthMask m) := by
  unfold Memory.elem; cases M.get? m i <;> rfl

/-- A read after a write. -/
theorem Memory.elem_put (M : Memory) (p : Nat) (m m' : MemName) (i j : Nat) (v : Byte) :
    (M.put m i v).elem p m' j = if m' = m ∧ j = i then v &&& widthMask m else M.elem p m' j := by
  simp only [Memory.elem_eq, Memory.get?_put]
  split <;> rfl

theorem Memory.cells_put_other (M : Memory) {m m' : MemName} (i : Nat) (v : Byte) (h : m' ≠ m) :
    (M.put m i v).cells m' = M.cells m' := M.cells_withCells_other _ h

theorem Memory.cells_putAll_other (M : Memory) {m m' : MemName} (i : Nat) (l : List Byte) (h : m' ≠ m) :
    (M.putAll m i l).cells m' = M.cells m' := by
  induction l generalizing M i with
  | nil => rfl
  | cons v vs ih => rw [Memory.putAll, ih, Memory.cells_put_other _ _ _ h]

/-- What consecutive writes leave: the bytes written inside the range, everything else as before. -/
theorem Memory.get?_putAll (M : Memory) (m m' : MemName) (i j : Nat) (l : List Byte) :
    (M.putAll m i l).get? m' j =
      if m' = m ∧ i ≤ j ∧ j < i + l.length then some (l.getD (j - i) 0 &&& widthMask m) else M.get? m' j := by
  induction l generalizing M i with
  | nil =>
    rw [Memory.putAll, if_neg]
    rintro ⟨-, h1, h2⟩
    rw [List.length_nil] at h2
    omega
  | cons v vs ih =>
    rw [Memory.putAll, ih, Memory.get?_put]
    by_cases hm : m' = m
    · subst hm
      by_cases hji : j = i
      · subst hji
        have h0 : ¬ (j + 1 ≤ j ∧ j < j + 1 + vs.length) := by omega
        have h1 : j ≤ j ∧ j < j + (v :: vs).length := by simp only [List.length_cons]; omega
        simp only [true_and, h0, h1, and_self, if_false, if_true, Nat.sub_self, List.getD_cons_zero]
      · by_cases h1 : i + 1 ≤ j ∧ j < i + 1 + vs.length
        · have h2 : i ≤ j ∧ j < i + (v :: vs).length := by simp only [List.length_cons]; omega
          have h3 : j - i = (j - (i + 1)) + 1 := by omega
          simp only [true_and, h1, and_self, if_true, h2, h3, List.getD_cons_succ]
        · have h2 : ¬ (i ≤ j ∧ j < i + (v :: vs).length) := by simp only [List.length_cons]; omega
          simp only [true_and, h1, if_false, h2, hji]
    · simp [hm]

theorem Memory.elem_putAll (M : Memory) (p : Nat) (m m' : MemName) (i j : Nat) (l : List Byte) :
    (M.putAll m i l).elem p m' j =
      if m' = m ∧ i ≤ j ∧ j < i + l.length then l.getD (j - i) 0 &&& widthMask m else M.elem p m' j := by
  simp only [Memory.elem_eq, Memory.get?_putAll]
  split <;> rfl

/-- A byte memory holds every bit of a byte. -/
theorem and_widthMask {m : MemName} (h : m ≠ .mat) (v : Byte) : v &&& widthMask m = v := by
  have hv : v &&& 0xFF = v := by
    have : (0xFF : Byte) = BitVec.allOnes 8 := by decide
    rw [this, BitVec.and_allOnes]
  cases m <;> first | exact hv | exact absurd rfl h

/-! ### The canonical form -/

theorem Memory.wf_iff (M : Memory) : M.wf = true ↔ ∀ m, M.wfOf m = true := by
  simp only [Memory.wf, Bool.and_eq_true]
  constructor
  · rintro ⟨⟨⟨⟨h1, h2⟩, h3⟩, h4⟩, h5⟩ m; cases m <;> assumption
  · intro h; exact ⟨⟨⟨⟨h _, h _⟩, h _⟩, h _⟩, h _⟩

theorem Memory.wf_empty : Memory.empty.wf = true := by decide

/-- Writing an implemented element keeps the canonical form. -/
theorem Memory.wf_put {M : Memory} (m : MemName) (i : Nat) (v : Byte) (hi : implemented m i = true) (h : M.wf = true) :
    (M.put m i v).wf = true := by
  rw [Memory.wf_iff] at h ⊢
  intro m'
  by_cases hm : m' = m
  · subst hm
    have hw := h m'
    simp only [Memory.wfOf, Bool.and_eq_true, List.all_eq_true] at hw ⊢
    simp only [Memory.put, Memory.cells_withCells]
    refine ⟨rising_insertCell _ _ _ hw.1, ?_⟩
    intro c hc
    rcases mem_insertCell hc with rfl | hc
    · simp [cellFits, hi, BitVec.and_assoc]
    · exact hw.2 c hc
  · have := h m'
    simpa [Memory.wfOf, Memory.cells_put_other _ _ _ hm] using this

theorem Memory.wf_putAll {M : Memory} (m : MemName) (i : Nat) (l : List Byte)
    (hi : ∀ j, i ≤ j → j < i + l.length → implemented m j = true) (h : M.wf = true) : (M.putAll m i l).wf = true := by
  induction l generalizing M i with
  | nil => exact h
  | cons v vs ih =>
    refine ih _ ?_ (Memory.wf_put m i v (hi i (Nat.le_refl _) (by simp)) h)
    intro j h1 h2
    exact hi j (by omega) (by simp only [List.length_cons]; omega)

/-! ### Elements of a state -/

@[simp] theorem State.elem_setMem (s : State) (M : Memory) (m : MemName) (i : Nat) :
    (s.setMem M).elem m i = M.elem s.powerUps m i := rfl

theorem State.elem_eq_of_cells {s t : State} {m : MemName} (hp : t.powerUps = s.powerUps) (hc : t.mem.cells m = s.mem.cells m)
    (i : Nat) : t.elem m i = s.elem m i := by
  simp only [State.elem, Memory.elem, Memory.get?, hp, hc]

end Sys2Proof.Machine
end

