-- ==== Sys2Proof/Laws/Rom.lean ====
section
/-! SUPPORT. Facts about a well-formed configuration: its rows meet the bounds of 10_state.md R33, its two tables are each
other's inverse (40_gf256.md R92, R97), and its generator polynomials have the lengths and entries that R99 promises. The
printed configuration is well formed. -/

namespace Sys2Proof.Machine

/-- What well-formedness of a configuration says. -/
theorem Config.wf_iff (c : Config) : c.wf = true ↔
    c.vpt.all (VersionRow.wf c.eset) = true ∧ c.gen.all genWf = true ∧ c.alogWf = true ∧ c.logWf = true := by
  simp only [Config.wf, Bool.and_eq_true, and_assoc]

theorem cfg_vptWf : cfg.vpt.all (VersionRow.wf cfg.eset) = true := by decide +kernel
theorem cfg_genWf : cfg.gen.all genWf = true := by decide +kernel
theorem cfg_alogWf : cfg.alogWf = true := by decide +kernel
theorem cfg_logWf : cfg.logWf = true := by decide +kernel

theorem cfg_wf : cfg.wf = true := (Config.wf_iff cfg).2 ⟨cfg_vptWf, cfg_genWf, cfg_alogWf, cfg_logWf⟩

/-! ### The generator polynomials -/

/-- The facts of a generator polynomial. -/
structure GenFacts (e : Nat) (g : List Nat) : Prop where
  length_eq : g.length = e + 1
  ge : 1 ≤ e
  le : e ≤ 30
  entries : ∀ x ∈ g, x < 255
  monic : g.headD 1 = 0

theorem genPoly_mem {c : Config} {e : Nat} {g : List Nat} (h : genPoly c e = some g) : (e, g) ∈ c.gen := by
  simp only [genPoly, Option.map_eq_some_iff] at h
  obtain ⟨p, hp, rfl⟩ := h
  have h1 := List.find?_some hp
  have h2 : p.1 = e := by simpa using h1
  have h3 := List.mem_of_find?_eq_some hp
  rw [← h2]; exact h3

theorem genFacts {c : Config} (hc : c.wf = true) {e : Nat} {g : List Nat} (h : genPoly c e = some g) : GenFacts e g := by
  have h1 := List.all_eq_true.1 ((Config.wf_iff c).1 hc).2.1 _ (genPoly_mem h)
  simp only [genWf, decide_eq_true_eq] at h1
  exact ⟨h1.1, h1.2.1, h1.2.2.1, h1.2.2.2.1, h1.2.2.2.2⟩

/-- A length has a generator exactly when it is in `ESET`. -/
theorem genPoly_isSome_iff (c : Config) (e : Nat) : (genPoly c e).isSome = true ↔ e ∈ c.eset := by
  simp only [genPoly, Option.isSome_map, List.find?_isSome, Config.eset, List.mem_map, beq_iff_eq]

theorem cfg_eset : cfg.eset = [7, 10, 13, 15, 16, 17, 18, 20, 22, 24, 26, 28, 30] := by decide

/-! ### The rows -/

/-- What a looked-up row is known to be. -/
theorem versionRow_mem {c : Config} {v : Nat} {r : VersionRow} (h : versionRow c v = some r) :
    r ∈ c.vpt ∧ r.version = v := by
  refine ⟨List.mem_of_find?_eq_some h, ?_⟩
  simpa using List.find?_some h

/-- The bounds of a row of a well-formed configuration (10_state.md R33, 20_memory.md R51), in one place. -/
structure RowFacts (c : Config) (r : VersionRow) : Prop where
  blocks_pos : 1 ≤ r.blocks
  blocks_le : r.blocks ≤ 128
  e_le : r.e ≤ 30
  n_le : r.dataCount ≤ 2048
  t_le : r.total ≤ 4096
  d1_pos : 1 ≤ r.d1
  d2_ge : r.g2 = 0 ∨ r.d1 ≤ r.d2
  rem_le : r.rem ≤ 7
  version_pos : 1 ≤ r.version
  version_le : r.version ≤ 40
  in_eset : (genPoly c r.e).isSome = true

theorem rowFacts {c : Config} (hc : c.wf = true) {v : Nat} {r : VersionRow} (h : versionRow c v = some r) :
    RowFacts c r := by
  have h1 := List.all_eq_true.1 ((Config.wf_iff c).1 hc).1 r (versionRow_mem h).1
  simp only [VersionRow.wf, Bool.and_eq_true, decide_eq_true_eq, List.contains_iff_mem] at h1
  obtain ⟨⟨a1, a2, a3, a4, a5, a6, a7, a8, a9, a10⟩, a11⟩ := h1
  exact ⟨a1, a2, a3, a4, a5, a6, a7, a8, a9, a10, (genPoly_isSome_iff c r.e).2 a11⟩

/-- A version has a row exactly when it is in `VSET`. -/
theorem versionRow_isSome_iff (c : Config) (v : Nat) : (versionRow c v).isSome = true ↔ v ∈ c.vset := by
  simp only [versionRow, List.find?_isSome, Config.vset, List.mem_map, beq_iff_eq]

/-- Versions outside 1..40 have no row. -/
theorem versionRow_eq_none {c : Config} (hc : c.wf = true) {v : Nat} (hv : v = 0 ∨ 41 ≤ v) : versionRow c v = none := by
  cases hr : versionRow c v with
  | none => rfl
  | some r =>
    have h0 := (rowFacts hc hr).version_pos
    have h1 := (rowFacts hc hr).version_le
    have h2 := (versionRow_mem hr).2
    omega

/-- The printed table has a row for each of 1..40. -/
theorem versionRow_eq_none_iff (v : Nat) : versionRow cfg v = none ↔ v = 0 ∨ 41 ≤ v := by
  have hall : ∀ v ∈ List.range 41, (versionRow cfg v).isNone = (v == 0) := by decide +kernel
  constructor
  · intro h
    by_cases hv : v < 41
    · have := hall v (List.mem_range.2 hv)
      rw [h] at this
      exact .inl (by simpa using this.symm)
    · omega
  · exact versionRow_eq_none cfg_wf

/-! ### The tables -/

theorem alog_toNat {c : Config} (hc : c.wf = true) {e : Nat} (h : e < 255) :
    (alog c e).toNat = c.alog.getD e 0 ∧ 1 ≤ (alog c e).toNat := by
  have h1 := ((Config.wf_iff c).1 hc).2.2.1
  simp only [Config.alogWf, Bool.and_eq_true, List.all_eq_true, List.mem_range, decide_eq_true_eq] at h1
  have h2 := h1.2 e h
  have h3 : (alog c e).toNat = c.alog.getD e 0 := by
    rw [alog, BitVec.toNat_ofNat, Nat.mod_eq_of_lt (by omega)]
  exact ⟨h3, by omega⟩

theorem logOf_zero {c : Config} (hc : c.wf = true) : logOf c 0 = none := by
  have h1 := ((Config.wf_iff c).1 hc).2.2.2
  simp only [Config.logWf, Bool.and_eq_true, beq_iff_eq] at h1
  exact h1.1.1

/-- `LOG` of a byte other than 0 (40_gf256.md R92). -/
theorem logOf_of_ne {c : Config} (hc : c.wf = true) {x : Byte} (hx : x ≠ 0) :
    ∃ l, logOf c x = some l ∧ l < 255 ∧ alog c l = x := by
  have h1 := ((Config.wf_iff c).1 hc).2.2.2
  simp only [Config.logWf, Bool.and_eq_true, List.all_eq_true, List.mem_range] at h1
  have hlt := x.isLt
  have hne : x.toNat ≠ 0 := fun h => hx (BitVec.eq_of_toNat_eq h)
  have h2 := h1.2 (x.toNat - 1) (by omega)
  have h3 : x.toNat - 1 + 1 = x.toNat := by omega
  rw [h3] at h2
  cases hl : c.log.getD x.toNat none with
  | none => rw [hl] at h2; cases h2
  | some l =>
    rw [hl] at h2
    simp only [Bool.and_eq_true, decide_eq_true_eq, beq_iff_eq] at h2
    refine ⟨l, hl, h2.1, ?_⟩
    rw [alog, h2.2]
    simp

theorem logOf_eq_none_iff {c : Config} (hc : c.wf = true) (x : Byte) : logOf c x = none ↔ x = 0 := by
  constructor
  · intro h
    by_cases hx : x = 0
    · exact hx
    · obtain ⟨l, hl, -⟩ := logOf_of_ne hc hx
      rw [h] at hl; cases hl
  · rintro rfl; exact logOf_zero hc

theorem logOf_some {c : Config} (hc : c.wf = true) {x : Byte} {l : Nat} (h : logOf c x = some l) :
    l < 255 ∧ alog c l = x := by
  by_cases hx : x = 0
  · rw [hx, logOf_zero hc] at h; cases h
  · obtain ⟨l', hl, h1⟩ := logOf_of_ne hc hx
    rw [h] at hl; cases hl; exact h1

theorem logOf_alog {c : Config} (hc : c.wf = true) {e : Nat} (h : e < 255) : logOf c (alog c e) = some e := by
  have h1 := ((Config.wf_iff c).1 hc).2.2.2
  simp only [Config.logWf, Bool.and_eq_true, List.all_eq_true, List.mem_range, beq_iff_eq] at h1
  rw [logOf, (alog_toNat hc h).1]
  exact h1.1.2 e h

theorem expadd_eq {g l : Nat} (hg : g < 255) (hl : l < 255) : expadd g l = (g + l) % 255 := by
  unfold expadd; split <;> omega

theorem expadd_lt {g l : Nat} (hg : g < 255) (hl : l < 255) : expadd g l < 255 := by
  unfold expadd; split <;> omega

end Sys2Proof.Machine
end

