-- ==== Sys2Proof/Laws/Commands.lean ====
section
/-! SUPPORT. What each shared operation of the commands can do, said once: completing and faulting (30_encoding.md R77,
60_exceptions.md R212), the version check (R202), the stages of ENCODE (46_system.md R185), and the bytes FMT, RSDIV,
RSENC and ILV write. -/

namespace Sys2Proof.Machine

/-! ### Reading a joined list -/

theorem getD_left {α : Type} {l : List α} (l' : List α) {i : Nat} (z : α) (h : i < l.length) :
    (l ++ l').getD i z = l.getD i z := by
  simp [List.getD_eq_getElem?_getD, List.getElem?_append_left h]

theorem getD_right {α : Type} {l : List α} (l' : List α) {i : Nat} (z : α) (h : l.length ≤ i) :
    (l ++ l').getD i z = l'.getD (i - l.length) z := by
  simp [List.getD_eq_getElem?_getD, List.getElem?_append_right h]

/-! ### A slice just written -/

theorem slice_putAll (s : State) {m : MemName} (i : Nat) (l : List Byte) (hm : m ≠ .mat) :
    (s.setMem (s.mem.putAll m i l)).slice m i l.length = l := by
  apply List.ext_getElem
  · simp [State.slice]
  · intro j h1 h2
    simp only [State.slice, List.getElem_map, List.getElem_range, State.elem_setMem, Memory.elem_putAll]
    have h3 : i + j - i = j := by omega
    rw [if_pos ⟨trivial, by omega, by omega⟩, and_widthMask hm, h3]
    simp [List.getD_eq_getElem?_getD, h2]

/-! ### Canonical memories with the same elements are equal -/

theorem lookup_eq_none_of_above {l : List Host.Cell} {i : Nat} (h : ∀ c ∈ l, i < c.1) : lookup l i = none := by
  induction l with
  | nil => rfl
  | cons c t ih =>
    obtain ⟨a, v⟩ := c
    have ha : i < a := h (a, v) List.mem_cons_self
    have hne : ¬ i = a := by omega
    simp only [lookup, hne, if_false]
    exact ih (fun c hc => h c (List.mem_cons_of_mem _ hc))

theorem rising_ext {l l' : List Host.Cell} (h : rising l = true) (h' : rising l' = true)
    (he : ∀ i, lookup l i = lookup l' i) : l = l' := by
  induction l generalizing l' with
  | nil =>
    cases l' with
    | nil => rfl
    | cons c t => obtain ⟨a, v⟩ := c; have := he a; simp [lookup] at this
  | cons c t ih =>
    obtain ⟨a, v⟩ := c
    cases l' with
    | nil => have := he a; simp [lookup] at this
    | cons c' t' =>
      obtain ⟨a', v'⟩ := c'
      obtain ⟨ha, ht⟩ := (rising_cons a v t).1 h
      obtain ⟨ha', ht'⟩ := (rising_cons a' v' t').1 h'
      have haa : a = a' := by
        rcases Nat.lt_trichotomy a a' with hlt | heq | hgt
        · have h1 := he a
          have h2 : lookup ((a', v') :: t') a = none := by
            apply lookup_eq_none_of_above
            intro c hc
            rcases List.mem_cons.1 hc with rfl | hc
            · exact hlt
            · exact Nat.lt_trans hlt (ha' c hc)
          rw [h2] at h1; simp [lookup] at h1
        · exact heq
        · have h1 := he a'
          have h2 : lookup ((a, v) :: t) a' = none := by
            apply lookup_eq_none_of_above
            intro c hc
            rcases List.mem_cons.1 hc with rfl | hc
            · exact hgt
            · exact Nat.lt_trans hgt (ha c hc)
          rw [h2] at h1; simp [lookup] at h1
      subst haa
      have hv : v = v' := by have := he a; simpa [lookup] using this
      subst hv
      congr 1
      refine ih ht ht' (fun i => ?_)
      by_cases hi : i = a
      · subst hi; rw [lookup_eq_none_of_above ha, lookup_eq_none_of_above ha']
      · have := he i; simpa [lookup, hi] using this

theorem Memory.ext_get? {M M' : Memory} (h : M.wf = true) (h' : M'.wf = true) (he : ∀ m i, M.get? m i = M'.get? m i) :
    M = M' := by
  rw [Memory.wf_iff] at h h'
  have hc : ∀ m, M.cells m = M'.cells m := by
    intro m
    have h1 := h m; have h2 := h' m
    simp only [Memory.wfOf, Bool.and_eq_true] at h1 h2
    exact rising_ext h1.1 h2.1 (he m)
  obtain ⟨a, b, c, d, e⟩ := M
  obtain ⟨a', b', c', d', e'⟩ := M'
  have h1 := hc .text; have h2 := hc .msg; have h3 := hc .ecb; have h4 := hc .stream; have h5 := hc .mat
  simp only [Memory.cells] at h1 h2 h3 h4 h5
  subst h1 h2 h3 h4 h5; rfl

/-- Writing to an element the value it holds changes nothing. -/
theorem Memory.put_same {M : Memory} {m : MemName} {i : Nat} {v : Byte} (hw : M.wf = true) (hi : implemented m i = true)
    (h : M.get? m i = some (v &&& widthMask m)) : M.put m i v = M := by
  refine Memory.ext_get? (Memory.wf_put m i v hi hw) hw (fun m' j => ?_)
  rw [Memory.get?_put]
  split
  · rename_i hc; rw [hc.1, hc.2, h]
  · rfl

/-! ### The version -/

theorem State.row_version {s : State} {r : VersionRow} (h : s.row = some r) : r.version = s.ver.toNat :=
  (versionRow_mem h).2

/-- Without a row: a version outside `VSET`; with a well-formed configuration that takes in 0 and 41..63. -/
theorem State.row_eq_none {s : State} (hc : s.config.wf = true) (h : s.ver = 0 ∨ 41 ≤ s.ver.toNat) : s.row = none :=
  versionRow_eq_none hc (h.imp (fun h => by rw [h]; rfl) id)

/-- With the printed configuration a version has no row exactly when it is 0 or 41..63 (60_exceptions.md R202). -/
theorem State.row_eq_none_iff {s : State} (hc : s.config = cfg) : s.row = none ↔ s.ver = 0 ∨ 41 ≤ s.ver.toNat := by
  unfold State.row
  rw [hc, versionRow_eq_none_iff]
  constructor <;> rintro (h | h)
  · exact .inl (BitVec.eq_of_toNat_eq h)
  · exact .inr h
  · rw [h]; exact .inl rfl
  · exact .inr h

theorem withVersion_some {s : State} {r : VersionRow} (h : s.row = some r) (body : VersionRow → Ran) :
    withVersion s body = body r := by simp [withVersion, h]

theorem withVersion_none {s : State} (h : s.row = none) (body : VersionRow → Ran) :
    withVersion s body = .raised s.mem .unsupportedVersion (s.ver.setWidth 32) := by simp [withVersion, h]

theorem State.row_congr {s u : State} (hc : s.config = u.config) (h : s.ver = u.ver) : s.row = u.row := by
  simp [State.row, hc, h]

/-! ### The end of a command -/

/-- The memories at the end of a command's pseudocode. -/
def Ran.mem : Ran → Memory
  | .ended M => M
  | .raised M _ _ => M

@[simp] theorem Ran.mem_ended (M : Memory) : (Ran.ended M).mem = M := rfl
@[simp] theorem Ran.mem_raised (M : Memory) (c : Cause) (info : Word) : (Ran.raised M c info).mem = M := rfl

@[simp] theorem State.finish_ended (s : State) (M : Memory) : s.finish (.ended M) = s.complete M := rfl
@[simp] theorem State.finish_raised (s : State) (M : Memory) (c : Cause) (info : Word) :
    s.finish (.raised M c info) = (s.setMem M).takeFault c info := rfl

@[simp] theorem State.finish_mem (s : State) (r : Ran) : (s.finish r).mem = r.mem := by cases r <;> rfl
@[simp] theorem State.finish_powerUps (s : State) (r : Ran) : (s.finish r).powerUps = s.powerUps := by cases r <;> rfl
@[simp] theorem State.finish_config (s : State) (r : Ran) : (s.finish r).config = s.config := by cases r <;> rfl
@[simp] theorem State.finish_rst (s : State) (r : Ran) : (s.finish r).rst = s.rst := by cases r <;> rfl
@[simp] theorem State.finish_busy (s : State) (r : Ran) : (s.finish r).busy = false := by cases r <;> rfl
@[simp] theorem State.finish_hzd (s : State) (r : Ran) : (s.finish r).hzd = s.hzd := by cases r <;> rfl
@[simp] theorem State.finish_inputs (s : State) (r : Ran) : (s.finish r).inputs = s.inputs := by cases r <;> rfl

theorem State.finish_keepsRest (s : State) (r : Ran) : KeepsRest s (s.finish r) := by
  cases r <;> exact ⟨rfl, rfl, rfl, rfl, rfl, rfl, rfl, rfl, rfl, rfl, rfl, rfl, rfl, rfl⟩

theorem State.complete_completes (s : State) (M : Memory) : Completes s (s.complete M) :=
  ⟨rfl, rfl, rfl, rfl, rfl, rfl, s.finish_keepsRest (.ended M)⟩

theorem State.takeFault_faults (s : State) (M : Memory) (c : Cause) (info : Word) :
    Faults s ((s.setMem M).takeFault c info) c.code info :=
  ⟨rfl, rfl, rfl, rfl, rfl, rfl, s.finish_keepsRest (.raised M c info)⟩

/-- Every element read of a finished command is a read of the memories its pseudocode left. -/
theorem State.finish_elem (s : State) (r : Ran) (m : MemName) (i : Nat) :
    (s.finish r).elem m i = r.mem.elem s.powerUps m i := by
  simp [State.elem]

/-- The pseudocode of each long command; the others have none and end where they began. -/
def ranOf : Instr → State → Ran
  | .nop, s => .ended s.mem
  | .fmt, s => fmtBody s
  | .rsdiv e blk, s => rsdivBody e blk s
  | .rsenc, s => rsencBody s
  | .ilv, s => ilvBody s
  | .place, s => placeBody s
  | .encode, s => encodeBody s
  | .clrerr, s => .ended s.mem
  | .srst, s => .ended s.mem

/-- A long command's meaning is the engine's one step on its pseudocode. -/
theorem exec_long {i : Instr} (h : i.isLong = true) (s : State) : exec i s = .next (s.finish (ranOf i s)) := by
  cases i <;> first | rfl | cases h

/-- Every command has a next state, in every state. -/
theorem exec_next (i : Instr) (s : State) : ∃ t, exec i s = .next t := by
  cases i <;> exact ⟨_, rfl⟩

/-! ### Stages -/

theorem Ran.andThen_ended (M : Memory) (s : State) (f : State → Ran) : (Ran.ended M).andThen s f = f (s.setMem M) := rfl
theorem Ran.andThen_raised (M : Memory) (c : Cause) (info : Word) (s : State) (f : State → Ran) :
    (Ran.raised M c info).andThen s f = .raised M c info := rfl

/-- A property of the memories that every stage keeps holds at the end of the stages. -/
theorem Ran.andThen_mem {P : Memory → Prop} {r : Ran} {s : State} {f : State → Ran} (h : P r.mem)
    (hf : ∀ M, P M → P (f (s.setMem M)).mem) : P (r.andThen s f).mem := by
  cases r with
  | ended M => exact hf M h
  | raised M c info => exact h

/-! ### FMT -/

theorem fmtBody_row {s : State} {r : VersionRow} (h : s.row = some r) :
    fmtBody s = if exceedsCapacity s.tlen.toNat r.dataCount then
      .raised s.mem .capacityExceeded (infoPair r.dataCount s.tlen.toNat)
    else .ended (s.mem.putAll .msg 0 (formatted s s.tlen.toNat r.dataCount)) := withVersion_some h _

theorem exceedsCapacity_eq_false_iff (l n : Nat) : exceedsCapacity l n = false ↔ l ≤ 255 ∧ l + 2 ≤ n := by
  simp [exceedsCapacity]

theorem exceedsCapacity_eq_true_iff (l n : Nat) : exceedsCapacity l n = true ↔ 255 < l ∨ n < l + 2 := by
  simp [exceedsCapacity]

theorem fmtBody_ok {s : State} {r : VersionRow} (h : s.row = some r) (h1 : s.tlen.toNat ≤ 255)
    (h2 : s.tlen.toNat + 2 ≤ r.dataCount) :
    fmtBody s = .ended (s.mem.putAll .msg 0 (formatted s s.tlen.toNat r.dataCount)) := by
  rw [fmtBody_row h, (exceedsCapacity_eq_false_iff _ _).2 ⟨h1, h2⟩]; rfl

@[simp] theorem headBytes_length (s : State) (l : Nat) : (headBytes s l).length = 2 := rfl
@[simp] theorem payloadBytes_length (s : State) (l : Nat) : (payloadBytes s l).length = l := by simp [payloadBytes]
@[simp] theorem padBytes_length (l n : Nat) : (padBytes l n).length = n - l - 2 := by simp [padBytes]

theorem formatted_length (s : State) {l n : Nat} (h : l + 2 ≤ n) : (formatted s l n).length = n := by
  simp [formatted]; omega

theorem formatted_head (s : State) (l n i : Nat) (h : i < 2) : (formatted s l n).getD i 0 = (headBytes s l).getD i 0 := by
  unfold formatted
  rw [List.append_assoc, getD_left _ _ (by simpa using h)]

theorem formatted_payload (s : State) (l n i : Nat) (h : i < l) :
    (formatted s l n).getD (2 + i) 0 = packNibbles (s.textAt l i) (s.textAt l (i + 1)) := by
  unfold formatted
  rw [getD_left _ _ (by simp; omega), getD_right _ _ (by simp)]
  simp [payloadBytes, h]

theorem formatted_pad (s : State) (l n j : Nat) (h : l + 2 + j < n) :
    (formatted s l n).getD (l + 2 + j) 0 = padByte j := by
  have hj : l + 2 + j - (2 + l) = j := by omega
  have hlt : j < n - l - 2 := by omega
  unfold formatted
  rw [getD_right _ _ (by simp; omega)]
  simp [padBytes, hj, hlt]

/-- What FMT computes depends on the text below `L` only. -/
theorem formatted_congr {s u : State} {l : Nat} (h : ∀ j, j < l → s.elem .text j = u.elem .text j) (n : Nat) :
    formatted s l n = formatted u l n := by
  have ht : ∀ i, s.textAt l i = u.textAt l i := by
    intro i; unfold State.textAt; split
    · rename_i hi; exact h i hi
    · rfl
  simp [formatted, headBytes, payloadBytes, ht]

/-! ### RSDIV and RSENC -/

theorem badOperands_eq_false_iff (s : State) (e : Nat) :
    badOperands s e = false ↔ (genPoly s.config e).isSome = true ∧ s.rsrc.toNat + s.rlen.toNat ≤ 2048 := by
  cases h : genPoly s.config e <;> simp [badOperands, h]

theorem rsdivBody_ok {s : State} {e : Nat} (blk : Nat) (h : (genPoly s.config e).isSome = true)
    (h2 : s.rsrc.toNat + s.rlen.toNat ≤ 2048) :
    rsdivBody e blk s = .ended (s.mem.putAll .ecb (ecbIndex blk 0) (rsdivResult s e)) := by
  rw [rsdivBody, (badOperands_eq_false_iff s e).2 ⟨h, h2⟩]; rfl

theorem rsdivBody_bad {s : State} {e : Nat} (blk : Nat) (h : badOperands s e = true) :
    rsdivBody e blk s = .raised s.mem .badOperand (encode (.rsdiv e blk)) := by
  rw [rsdivBody, h]; rfl

@[simp] theorem rsLoad_length (data : Nat → Byte) (d e : Nat) : (rsLoad data d e).length = e := by simp [rsLoad]

theorem rsReduce_length (c : Config) {g : List Nat} {R : List Byte} (lead : Byte) (h : g.length = R.length + 1) :
    (rsReduce c g lead R).length = R.length := by
  unfold rsReduce; split
  · rfl
  · simp [h]

theorem rsStep_length (c : Config) {g : List Nat} {R : List Byte} {e : Nat} (data : Nat → Byte) (d k : Nat) (hg : g.length = e + 1)
    (hR : R.length = e) (he : 1 ≤ e) : (rsStep c g data d e R k).length = e := by
  have hs : ∀ b, (rsShift R b).length = e := by intro b; simp [rsShift, hR]; omega
  unfold rsStep
  rw [rsReduce_length, hs]
  rw [hs]; exact hg

/-- A loop keeps the length of the shift register. -/
theorem rsLoop_length (c : Config) {g : List Nat} {e : Nat} (data : Nat → Byte) (d : Nat) (hg : g.length = e + 1) (he : 1 ≤ e)
    (ks : List Nat) (R : List Byte) (hR : R.length = e) : (ks.foldl (rsStep c g data d e) R).length = e := by
  induction ks generalizing R with
  | nil => exact hR
  | cons k ks ih => exact ih _ (rsStep_length c data d k hg hR he)

theorem rsdiv_length {c : Config} (hc : c.wf = true) {g : List Nat} {e : Nat} (data : Nat → Byte) (d : Nat)
    (hg : genPoly c e = some g) : (rsdiv c g data d e).length = e := by
  have hf := genFacts hc hg
  exact rsLoop_length c data d hf.length_eq hf.ge _ _ (rsLoad_length data d e)

/-- The divider reads the data codewords below `D` only. -/
theorem rsdiv_congr (c : Config) (g : List Nat) {data data' : Nat → Byte} {d : Nat} (e : Nat) (h : ∀ j, j < d → data j = data' j) :
    rsdiv c g data d e = rsdiv c g data' d e := by
  have hl : rsLoad data d e = rsLoad data' d e := by
    unfold rsLoad; refine List.map_congr_left (fun j _ => ?_)
    split
    · rename_i hj; exact h j hj
    · rfl
  have hs : rsStep c g data d e = rsStep c g data' d e := by
    funext R k
    have : (if k + e < d then data (k + e) else 0) = (if k + e < d then data' (k + e) else 0) := by
      split
      · rename_i hj; exact h _ hj
      · rfl
    simp only [rsStep, this]
  rw [rsdiv, rsdiv, hl, hs]

theorem rsencBody_row {s : State} {r : VersionRow} (h : s.row = some r) : rsencBody s = .ended (rsencMemory s r) :=
  withVersion_some h _

theorem blockRemainder_length {s : State} (hc : s.config.wf = true) {r : VersionRow} (h : s.row = some r) (b : Nat) :
    (blockRemainder s r b).length = r.e := by
  obtain ⟨g, hg⟩ := Option.isSome_iff_exists.1 (rowFacts hc h).in_eset
  rw [blockRemainder, hg]; exact rsdiv_length hc _ _ hg

/-- Writes of slots, one for each of `n` blocks: what they leave. -/
theorem get?_putSlots (M : Memory) (f : Nat → List Byte) (e : Nat) (he : e ≤ 32) (hf : ∀ b, (f b).length = e) (n : Nat)
    (m : MemName) (j : Nat) :
    ((List.range n).foldl (fun M b => M.putAll .ecb (ecbIndex b 0) (f b)) M).get? m j =
      if m = .ecb ∧ j / 32 < n ∧ j % 32 < e then some ((f (j / 32)).getD (j % 32) 0) else M.get? m j := by
  induction n with
  | zero => simp
  | succ n ih =>
    rw [List.range_succ, List.foldl_append]
    simp only [List.foldl_cons, List.foldl_nil]
    rw [Memory.get?_putAll, ih, hf]
    by_cases hm : m = .ecb
    · subst hm
      simp only [true_and, ecbIndex, and_widthMask (m := .ecb) (by decide)]
      by_cases h1 : n * 32 + 0 ≤ j ∧ j < n * 32 + 0 + e
      · have hd : j / 32 = n := by omega
        have hr : j % 32 = j - (n * 32 + 0) := by omega
        rw [if_pos h1, if_pos (by omega), hd, hr]
      · rw [if_neg h1]
        by_cases h2 : j / 32 < n ∧ j % 32 < e
        · rw [if_pos h2, if_pos (by omega)]
        · rw [if_neg h2, if_neg]; omega
    · simp [hm]

theorem rsencMemory_get? {s : State} (hc : s.config.wf = true) {r : VersionRow} (h : s.row = some r) (m : MemName) (j : Nat) :
    (rsencMemory s r).get? m j =
      if m = .ecb ∧ j / 32 < r.blocks ∧ j % 32 < r.e then some ((blockRemainder s r (j / 32)).getD (j % 32) 0)
      else s.mem.get? m j := by
  have := (rowFacts hc h).e_le
  exact get?_putSlots s.mem _ r.e (by omega) (blockRemainder_length hc h) r.blocks m j

theorem rsencMemory_elem {s : State} (hc : s.config.wf = true) {r : VersionRow} (h : s.row = some r) (p : Nat)
    (m : MemName) (j : Nat) :
    (rsencMemory s r).elem p m j =
      if m = .ecb ∧ j / 32 < r.blocks ∧ j % 32 < r.e then (blockRemainder s r (j / 32)).getD (j % 32) 0
      else s.mem.elem p m j := by
  simp only [Memory.elem_eq, rsencMemory_get? hc h]
  split <;> rfl

theorem blockRemainder_congr {s u : State} {r : VersionRow} (hc : s.config = u.config)
    (h : ∀ b j, b < r.blocks → j < r.blockLen b → s.elem .msg (r.blockOff b + j) = u.elem .msg (r.blockOff b + j))
    {b : Nat} (hb : b < r.blocks) : blockRemainder s r b = blockRemainder u r b := by
  rw [blockRemainder, blockRemainder, hc]
  exact rsdiv_congr _ _ _ (fun j hj => h b j hb hj)

/-- A block lies in `MSG[0..N-1]`. -/
theorem block_fits {r : VersionRow} {b : Nat} (hb : b < r.blocks) :
    r.blockOff b + r.blockLen b ≤ r.dataCount := by
  unfold VersionRow.blockOff VersionRow.blockLen VersionRow.dataCount
  unfold VersionRow.blocks at hb
  by_cases h1 : b < r.g1
  · rw [if_pos h1, if_pos h1]
    have : (b + 1) * r.d1 ≤ r.g1 * r.d1 := Nat.mul_le_mul_right _ h1
    rw [Nat.add_mul] at this; omega
  · rw [if_neg h1, if_neg h1]
    have : (b - r.g1 + 1) * r.d2 ≤ r.g2 * r.d2 := Nat.mul_le_mul_right _ (by omega)
    rw [Nat.add_mul] at this; omega

/-! ### ILV -/

/-- Rows of equal length, one after the other. -/
theorem length_rows {α : Type} (f : Nat → Nat → α) (w n : Nat) :
    ((List.range n).flatMap (fun i => (List.range w).map (f i))).length = n * w := by
  induction n with
  | zero => simp
  | succ n ih => simp [List.range_succ, ih, Nat.add_mul]

theorem getD_rows {α : Type} (f : Nat → Nat → α) (w n i b : Nat) (z : α) (hi : i < n) (hb : b < w) :
    ((List.range n).flatMap (fun i => (List.range w).map (f i))).getD (i * w + b) z = f i b := by
  induction n with
  | zero => omega
  | succ n ih =>
    rw [List.range_succ, List.flatMap_append]
    have hl := length_rows f w n
    by_cases h : i < n
    · have : i * w + b < n * w := by
        have : (i + 1) * w ≤ n * w := Nat.mul_le_mul_right _ h
        rw [Nat.add_mul] at this; omega
      rw [getD_left _ _ (by rw [hl]; exact this)]
      exact ih h
    · have hin : i = n := by omega
      subst hin
      rw [getD_right _ _ (by rw [hl]; omega), hl]
      have : i * w + b - i * w = b := by omega
      simp [this, hb]

/-- Round `i` below `D1` takes one byte of every block. -/
theorem dataRound_full (s : State) {r : VersionRow} (hd : r.g2 = 0 ∨ r.d1 ≤ r.d2) {i : Nat} (hi : i < r.d1) :
    dataRound s r i = (List.range r.blocks).map (fun b => s.msgAt (r.blockOff b + i)) := by
  unfold dataRound
  congr 1
  rw [List.filter_eq_self]
  intro b hb
  have hb := List.mem_range.1 hb
  unfold VersionRow.blocks at hb
  unfold VersionRow.blockLen
  rw [decide_eq_true_eq]
  split <;> omega

/-- A round from `D1` on takes one byte of every block of group 2. -/
theorem dataRound_last (s : State) (r : VersionRow) {i : Nat} (h1 : r.d1 ≤ i) (h2 : i < r.d2) :
    dataRound s r i = (List.range r.g2).map (fun j => s.msgAt (r.blockOff (r.g1 + j) + i)) := by
  have hf : (List.range r.blocks).filter (fun b => decide (i < r.blockLen b)) =
      (List.range r.g2).map (fun j => r.g1 + j) := by
    unfold VersionRow.blocks
    rw [List.range_add, List.filter_append]
    have h3 : (List.range r.g1).filter (fun b => decide (i < r.blockLen b)) = [] := by
      rw [List.filter_eq_nil_iff]
      intro b hb
      have := List.mem_range.1 hb
      simp [VersionRow.blockLen, this, h1]
    have h4 : ((List.range r.g2).map (r.g1 + ·)).filter (fun b => decide (i < r.blockLen b)) =
        (List.range r.g2).map (r.g1 + ·) := by
      rw [List.filter_eq_self]
      intro b hb
      obtain ⟨j, hj, rfl⟩ := List.mem_map.1 hb
      rw [decide_eq_true_eq]
      unfold VersionRow.blockLen
      rw [if_neg (by omega)]; exact h2
    rw [h3, h4]; rfl
  rw [dataRound, hf, List.map_map]; rfl

theorem dMax_ge (r : VersionRow) : r.d1 ≤ r.dMax := by
  unfold VersionRow.dMax; split <;> omega

/-- The rounds from `D1` on exist for group 2 only. -/
theorem dMax_spec {r : VersionRow} (hd : r.g2 = 0 ∨ r.d1 ≤ r.d2) :
    (r.g2 = 0 ∧ r.dMax = r.d1) ∨ (r.dMax = r.d2) := by
  unfold VersionRow.dMax
  split
  · exact .inr (by omega)
  · exact .inl (by omega)

/-- The data part: `D1` whole rounds, then the rounds of group 2 alone. -/
theorem dataPart_eq (s : State) {r : VersionRow} (hd : r.g2 = 0 ∨ r.d1 ≤ r.d2) :
    (List.range r.dMax).flatMap (dataRound s r) =
      (List.range r.d1).flatMap (fun i => (List.range r.blocks).map (fun b => s.msgAt (r.blockOff b + i))) ++
      (List.range (r.dMax - r.d1)).flatMap
        (fun k => (List.range r.g2).map (fun j => s.msgAt (r.blockOff (r.g1 + j) + (r.d1 + k)))) := by
  have h1 : r.dMax = r.d1 + (r.dMax - r.d1) := by have := dMax_ge r; omega
  have hsplit : List.range r.dMax = List.range r.d1 ++ (List.range (r.dMax - r.d1)).map (r.d1 + ·) := by
    rw [← List.range_add, ← h1]
  rw [hsplit, List.flatMap_append]
  congr 1
  · simp only [List.flatMap]
    congr 1
    exact List.map_congr_left (fun i hi => dataRound_full s hd (List.mem_range.1 hi))
  · simp only [List.flatMap, List.map_map]
    congr 1
    refine List.map_congr_left (fun k hk => ?_)
    have hk := List.mem_range.1 hk
    exact dataRound_last s r (Nat.le_add_right _ _) (by
      show r.d1 + k < r.d2
      rcases dMax_spec hd with ⟨-, h2⟩ | h2 <;> omega)

theorem dataCount_eq {r : VersionRow} (hd : r.g2 = 0 ∨ r.d1 ≤ r.d2) :
    r.dataCount = r.d1 * r.blocks + (r.dMax - r.d1) * r.g2 := by
  unfold VersionRow.dataCount VersionRow.blocks
  rcases dMax_spec hd with ⟨hg, h2⟩ | h2
  · rw [hg, h2, Nat.mul_comm r.g1]; simp
  · by_cases hg : r.g2 = 0
    · rw [hg, Nat.mul_comm r.g1]; simp
    · obtain ⟨k, hk⟩ : ∃ k, r.d2 = r.d1 + k := ⟨r.d2 - r.d1, by omega⟩
      have h3 : r.d1 + k - r.d1 = k := by omega
      rw [h2, hk, h3, Nat.mul_add, Nat.mul_add, Nat.mul_comm r.g1, Nat.mul_comm r.g2 r.d1, Nat.mul_comm r.g2 k]; omega

theorem dataPart_length (s : State) {r : VersionRow} (hd : r.g2 = 0 ∨ r.d1 ≤ r.d2) :
    ((List.range r.dMax).flatMap (dataRound s r)).length = r.dataCount := by
  rw [dataPart_eq s hd, List.length_append, length_rows, length_rows, dataCount_eq hd]

theorem interleaved_length (s : State) {r : VersionRow} (hd : r.g2 = 0 ∨ r.d1 ≤ r.d2) :
    (interleaved s r).length = r.total := by
  have : (List.range r.e).flatMap (ecRound s r) =
      (List.range r.e).flatMap (fun i => (List.range r.blocks).map (fun b => s.ecbAt b i)) := rfl
  rw [interleaved, List.length_append, dataPart_length s hd, this, length_rows, VersionRow.total, Nat.mul_comm]

/-- A place in a row lies before the end of the rows. -/
theorem place_lt {i b n w : Nat} (hi : i < n) (hb : b < w) : i * w + b < n * w := by
  have : (i + 1) * w ≤ n * w := Nat.mul_le_mul_right _ hi
  rw [Nat.add_mul] at this; omega

theorem interleaved_data (s : State) {r : VersionRow} (hd : r.g2 = 0 ∨ r.d1 ≤ r.d2) {b i : Nat} (hb : b < r.blocks)
    (hi : i < r.d1) : (interleaved s r).getD (i * r.blocks + b) 0 = s.msgAt (r.blockOff b + i) := by
  have hlt := place_lt hi hb
  rw [interleaved, getD_left _ _ (by rw [dataPart_length s hd, dataCount_eq hd]; omega), dataPart_eq s hd,
    getD_left _ _ (by rw [length_rows]; exact hlt)]
  exact getD_rows (fun i b => s.msgAt (r.blockOff b + i)) r.blocks r.d1 i b 0 hi hb

theorem interleaved_last (s : State) {r : VersionRow} (hd : r.g2 = 0 ∨ r.d1 ≤ r.d2) {b i : Nat} (h1 : r.g1 ≤ b)
    (hb : b < r.blocks) (hi : r.d1 ≤ i) (hi2 : i < r.d2) :
    (interleaved s r).getD (r.d1 * r.blocks + (i - r.d1) * r.g2 + (b - r.g1)) 0 = s.msgAt (r.blockOff b + i) := by
  have hj : b - r.g1 < r.g2 := by unfold VersionRow.blocks at hb; omega
  have hk : i - r.d1 < r.dMax - r.d1 := by
    rcases dMax_spec hd with ⟨h2, -⟩ | h2 <;> omega
  have hlt := place_lt hk hj
  rw [interleaved, getD_left _ _ (by rw [dataPart_length s hd, dataCount_eq hd]; omega), dataPart_eq s hd,
    getD_right _ _ (by rw [length_rows]; omega), length_rows]
  have h2 : r.d1 * r.blocks + (i - r.d1) * r.g2 + (b - r.g1) - r.d1 * r.blocks = (i - r.d1) * r.g2 + (b - r.g1) := by omega
  rw [h2, getD_rows (fun k j => s.msgAt (r.blockOff (r.g1 + j) + (r.d1 + k))) r.g2 (r.dMax - r.d1) _ _ 0 hk hj]
  have h3 : r.g1 + (b - r.g1) = b := by omega
  have h4 : r.d1 + (i - r.d1) = i := by omega
  rw [h3, h4]

theorem interleaved_ec (s : State) {r : VersionRow} (hd : r.g2 = 0 ∨ r.d1 ≤ r.d2) {b i : Nat} (hb : b < r.blocks)
    (hi : i < r.e) : (interleaved s r).getD (r.dataCount + i * r.blocks + b) 0 = s.ecbAt b i := by
  rw [interleaved, getD_right _ _ (by rw [dataPart_length s hd]; omega), dataPart_length s hd]
  have : r.dataCount + i * r.blocks + b - r.dataCount = i * r.blocks + b := by omega
  rw [this]
  exact getD_rows (fun i b => s.ecbAt b i) r.blocks r.e i b 0 hi hb

theorem ilvBody_row {s : State} {r : VersionRow} (h : s.row = some r) :
    ilvBody s = .ended (s.mem.putAll .stream 0 (interleaved s r)) := withVersion_some h _

/-- ILV depends on the data codewords of the blocks and their error-correction codewords only. -/
theorem interleaved_congr {s u : State} {r : VersionRow}
    (hm : ∀ j, j < r.dataCount → s.elem .msg j = u.elem .msg j)
    (he : ∀ b i, b < r.blocks → i < r.e → s.elem .ecb (b * 32 + i) = u.elem .ecb (b * 32 + i)) :
    interleaved s r = interleaved u r := by
  have hd : ∀ i, dataRound s r i = dataRound u r i := by
    intro i
    refine List.map_congr_left (fun b hb => ?_)
    obtain ⟨h1, h2⟩ := List.mem_filter.1 hb
    have h3 := block_fits (List.mem_range.1 h1)
    exact hm _ (by have : i < r.blockLen b := by simpa using h2
                   omega)
  have h1 : dataRound s r = dataRound u r := funext hd
  have h2 : (List.range r.e).flatMap (ecRound s r) = (List.range r.e).flatMap (ecRound u r) := by
    simp only [List.flatMap]
    congr 1
    refine List.map_congr_left (fun i hi => List.map_congr_left (fun b hb => ?_))
    exact he b i (List.mem_range.1 hb) (List.mem_range.1 hi)
  rw [interleaved, interleaved, h1, h2]

end Sys2Proof.Machine
end

