-- ==== Sys2Proof/Laws/Place.lean ====
section
/-! SUPPORT. The placement walk: what writing one `dark` bit does, what a walk over any list of cells does (45_placement.md
R165, R170, R172, R173), and which cells the walk passes. -/

namespace Sys2Proof.Machine

/-! ### One cell -/

theorem cellIndex_inj {r c r' c' : Nat} (h : c < 256) (h' : c' < 256) (he : cellIndex r c = cellIndex r' c') :
    r = r' ∧ c = c' := by unfold cellIndex at he; omega

theorem cellByte_mask (a b : Bool) : cellByte a b &&& widthMask .mat = cellByte a b := by cases a <;> cases b <;> decide
theorem cellByte_dark (a b : Bool) : (cellByte a b).getLsbD 0 = b := by cases a <;> cases b <;> decide
theorem cellByte_rsv (a b : Bool) : (cellByte a b).getLsbD 1 = a := by cases a <;> cases b <;> decide

@[simp] theorem State.setDark_powerUps (s : State) (row col : Nat) (d : Bool) :
    (s.setDark row col d).powerUps = s.powerUps := rfl

theorem State.setDark_eq (s : State) (row col : Nat) (d : Bool) :
    s.setDark row col d = s.setMem (s.setDark row col d).mem := rfl

theorem State.setDark_cells_other (s : State) (row col : Nat) (d : Bool) {m : MemName} (h : m ≠ .mat) :
    (s.setDark row col d).mem.cells m = s.mem.cells m := Memory.cells_put_other _ _ _ h

theorem State.setDark_get? (s : State) (row col : Nat) (d : Bool) (m : MemName) (j : Nat) :
    (s.setDark row col d).mem.get? m j =
      if m = .mat ∧ j = cellIndex row col then some (cellByte (s.rsv row col) d) else s.mem.get? m j := by
  simp only [State.setDark, State.setMem_mem, Memory.get?_put, cellByte_mask]

theorem State.setDark_elem (s : State) (row col : Nat) (d : Bool) (m : MemName) (j : Nat) :
    (s.setDark row col d).elem m j =
      if m = .mat ∧ j = cellIndex row col then cellByte (s.rsv row col) d else s.elem m j := by
  simp only [State.elem, Memory.elem_eq, State.setDark_get?, State.setDark_powerUps]
  split <;> rfl

/-- PLACE never writes an `rsv` bit (45_placement.md R170). -/
theorem State.setDark_rsv (s : State) (row col : Nat) (d : Bool) (r c : Nat) :
    (s.setDark row col d).rsv r c = s.rsv r c := by
  simp only [State.rsv, State.setDark_elem]
  split
  · rename_i h; rw [cellByte_rsv, h.2]
  · rfl

theorem State.setDark_wf {s : State} {row col : Nat} (d : Bool) (hr : row ≤ 176) (hc : col ≤ 176) (h : s.mem.wf = true) :
    (s.setDark row col d).mem.wf = true := by
  refine Memory.wf_put _ _ _ ?_ h
  unfold implemented cellIndex
  rw [Bool.and_eq_true, decide_eq_true_eq, decide_eq_true_eq]
  omega

/-! ### A walk over a list of cells -/

/-- The free cells of a list. -/
def State.freeOf (s : State) (l : List (Nat × Nat)) : List (Nat × Nat) := l.filter (fun c => !s.rsv c.1 c.2)

/-- What the walk writes to a cell of row `row` at bit-step `k`. -/
def placedByte (s : State) (t k row : Nat) : Byte := cellByte false (xor (payloadBit s t k) (maskApplies row))

theorem State.streamBit_congr {s u : State} (hp : u.powerUps = s.powerUps) (h : u.mem.cells .stream = s.mem.cells .stream)
    (k : Nat) : u.streamBit k = s.streamBit k := by
  simp only [State.streamBit, State.streamAt, State.elem_eq_of_cells hp h]

theorem payloadBit_congr {s u : State} (hp : u.powerUps = s.powerUps) (h : u.mem.cells .stream = s.mem.cells .stream)
    (t k : Nat) : payloadBit u t k = payloadBit s t k := by
  simp only [payloadBit, State.streamBit_congr hp h]

/-- What a walk leaves: the counter, the fields of the state, the other memories, the `rsv` plane, the cells it does not
write, and the cells it writes. -/
structure Walked (t : Nat) (l : List (Nat × Nat)) (s : State) (k : Nat) (out : State × Nat) : Prop where
  count : out.2 = k + (s.freeOf l).length
  rest : out.1 = s.setMem out.1.mem
  others : ∀ m, m ≠ .mat → out.1.mem.cells m = s.mem.cells m
  rsv_eq : ∀ r c, out.1.rsv r c = s.rsv r c
  kept : ∀ j, (∀ c ∈ s.freeOf l, j ≠ cellIndex c.1 c.2) → out.1.mem.get? .mat j = s.mem.get? .mat j
  written : ∀ q c, (s.freeOf l)[q]? = some c →
    out.1.mem.get? .mat (cellIndex c.1 c.2) = some (placedByte s t (k + q) c.1)

theorem walked (t : Nat) (l : List (Nat × Nat)) (hl : (l.map (fun c => cellIndex c.1 c.2)).Nodup) (s : State) (k : Nat) :
    Walked t l s k (l.foldl (placeCell t) (s, k)) := by
  induction l generalizing s k with
  | nil =>
    exact ⟨rfl, rfl, fun _ _ => rfl, fun _ _ => rfl, fun _ _ => rfl, fun q c h => by simp [State.freeOf] at h⟩
  | cons c l ih =>
    obtain ⟨hc, hl⟩ := List.nodup_cons.1 hl
    rw [List.foldl_cons]
    by_cases hrsv : s.rsv c.1 c.2 = true
    · have h1 : placeCell t (s, k) c = (s, k) := by simp [placeCell, hrsv]
      have h2 : s.freeOf (c :: l) = s.freeOf l := by simp [State.freeOf, hrsv]
      rw [h1]
      obtain ⟨a1, a2, a3, a4, a5, a6⟩ := ih hl s k
      exact ⟨by rw [h2]; exact a1, a2, a3, a4, by rw [h2]; exact a5, by rw [h2]; exact a6⟩
    · have hrsv : s.rsv c.1 c.2 = false := by simpa using hrsv
      have h1 : placeCell t (s, k) c = (s.setDark c.1 c.2 (xor (payloadBit s t k) (maskApplies c.1)), k + 1) := by
        simp [placeCell, hrsv]
      rw [h1]
      generalize hu : s.setDark c.1 c.2 (xor (payloadBit s t k) (maskApplies c.1)) = u
      have hu1 : u = s.setMem u.mem := by rw [← hu]; rfl
      have hup : u.powerUps = s.powerUps := by rw [← hu]; rfl
      have huo : ∀ m, m ≠ .mat → u.mem.cells m = s.mem.cells m := by
        intro m hm; rw [← hu]; exact s.setDark_cells_other _ _ _ hm
      have hur : ∀ r c, u.rsv r c = s.rsv r c := by intro r c; rw [← hu]; exact s.setDark_rsv _ _ _ r c
      have hug : ∀ j, u.mem.get? .mat j = if j = cellIndex c.1 c.2 then some (placedByte s t k c.1) else s.mem.get? .mat j := by
        intro j; rw [← hu, State.setDark_get?, hrsv]; simp [placedByte]
      have hf : u.freeOf l = s.freeOf l := by simp only [State.freeOf, hur]
      have h2 : s.freeOf (c :: l) = c :: s.freeOf l := by simp [State.freeOf, hrsv]
      obtain ⟨a1, a2, a3, a4, a5, a6⟩ := ih hl u (k + 1)
      rw [hf] at a1 a5 a6
      have hne : ∀ d ∈ s.freeOf l, cellIndex c.1 c.2 ≠ cellIndex d.1 d.2 := by
        intro d hd he
        exact hc (List.mem_map.2 ⟨d, (List.mem_filter.1 hd).1, he.symm⟩)
      refine ⟨?_, ?_, fun m hm => by rw [a3 m hm, huo m hm], fun r c => by rw [a4, hur], ?_, ?_⟩
      · rw [h2, a1, List.length_cons]; omega
      · rw [a2, hu1]; rfl
      · intro j hj
        rw [h2] at hj
        rw [a5 j (fun d hd => hj d (List.mem_cons_of_mem _ hd)), hug, if_neg (hj c List.mem_cons_self)]
      · intro q d hq
        rw [h2] at hq
        cases q with
        | zero =>
          have : c = d := by simpa using hq
          subst this
          rw [a5 _ hne, hug, if_pos rfl, Nat.add_zero]
        | succ q =>
          have := a6 q d (by simpa using hq)
          rw [this]
          have hk : k + 1 + q = k + (q + 1) := by omega
          rw [hk]
          simp only [placedByte, payloadBit_congr hup (huo .stream (by decide))]

/-- The configuration, registers and memories a command's pseudocode can see; flags, IE and the model's own counters are not among
them. -/
structure SameView (s u : State) : Prop where
  config : u.config = s.config
  ver : u.ver = s.ver
  tlen : u.tlen = s.tlen
  mask : u.mask = s.mask
  rsrc : u.rsrc = s.rsrc
  rlen : u.rlen = s.rlen
  mem : u.mem = s.mem
  powerUps : u.powerUps = s.powerUps

theorem SameView.elem {s u : State} (h : SameView s u) (m : MemName) (i : Nat) : u.elem m i = s.elem m i := by
  simp only [State.elem, h.mem, h.powerUps]

theorem SameView.row {s u : State} (h : SameView s u) : u.row = s.row := by simp only [State.row, h.config, h.ver]

theorem SameView.setMem {s u : State} (h : SameView s u) (M : Memory) : SameView (s.setMem M) (u.setMem M) :=
  ⟨h.config, h.ver, h.tlen, h.mask, h.rsrc, h.rlen, rfl, h.powerUps⟩

theorem SameView.freeCount {s u : State} (h : SameView s u) (n : Nat) : u.freeCount n = s.freeCount n := by
  unfold State.freeCount State.rsv
  simp only [h.elem]

/-- A walk sees nothing but the memories. -/
theorem SameView.walk {s u : State} (h : SameView s u) (t : Nat) (l : List (Nat × Nat)) (k : Nat) :
    SameView (l.foldl (placeCell t) (s, k)).1 (l.foldl (placeCell t) (u, k)).1 := by
  induction l generalizing s u k with
  | nil => exact h
  | cons c l ih =>
    have hr : u.rsv c.1 c.2 = s.rsv c.1 c.2 := by simp only [State.rsv, h.elem]
    have hb : payloadBit u t k = payloadBit s t k := by
      simp only [payloadBit, State.streamBit, State.streamAt, h.elem]
    simp only [List.foldl_cons, placeCell, hr, hb]
    split
    · exact ih h k
    · refine ih ?_ (k + 1)
      simp only [State.setDark, hr, h.mem]
      exact h.setMem _

/-! ### The cells of the walk -/

theorem mem_stripCells (n : Nat) (strip : Nat × Bool) (h : 1 ≤ strip.1) (row col : Nat) :
    (row, col) ∈ stripCells n strip ↔ row < n ∧ (col = strip.1 ∨ col + 1 = strip.1) := by
  obtain ⟨right, up⟩ := strip
  simp only at h
  simp only [stripCells, List.mem_flatMap, List.mem_range, List.mem_cons, List.not_mem_nil, or_false, Prod.mk.injEq]
  constructor
  · rintro ⟨v, hv, h1⟩
    rcases h1 with ⟨h1, h2⟩ | ⟨h1, h2⟩ <;> (cases up <;> simp at h1 <;> omega)
  · rintro ⟨hr, hc⟩
    refine ⟨if up then n - 1 - row else row, ?_, ?_⟩
    · cases up <;> simp <;> omega
    · have hrow : (if up = true then n - 1 - (if up then n - 1 - row else row) else (if up then n - 1 - row else row)) = row := by
        cases up <;> simp
        omega
      rw [hrow]
      rcases hc with hc | hc
      · exact .inl ⟨rfl, hc⟩
      · exact .inr ⟨rfl, by omega⟩

theorem nodup_stripCells (n : Nat) (strip : Nat × Bool) (h : 1 ≤ strip.1) : (stripCells n strip).Nodup := by
  obtain ⟨right, up⟩ := strip
  simp only at h
  unfold stripCells
  rw [List.Nodup, List.pairwise_flatMap]
  refine ⟨fun v _ => by simp; omega, ?_⟩
  refine List.Pairwise.imp_of_mem ?_ (List.nodup_range (n := n))
  intro a b ha hb hab c hca d hcb hcd
  subst hcd
  have ha := List.mem_range.1 ha
  have hb := List.mem_range.1 hb
  simp only [List.mem_cons, List.not_mem_nil, or_false] at hca hcb
  apply hab
  rcases hca with rfl | rfl <;> rcases hcb with hcb | hcb <;> simp only [Prod.mk.injEq] at hcb <;>
    (cases up <;> simp at hcb <;> omega)

theorem strips_le (fuel right : Nat) (up : Bool) : ∀ st ∈ strips fuel right up, 1 ≤ st.1 ∧ st.1 ≤ right := by
  induction fuel generalizing right up with
  | zero => intro st h; simp [strips] at h
  | succ f ih =>
    intro st h
    rw [strips] at h
    split at h
    · simp at h
    · rename_i hr
      simp only at h
      rcases List.mem_cons.1 h with rfl | h
      · by_cases h6 : right = 6 <;> simp [h6]; omega
      · have := ih _ _ st h
        split at this <;> omega

/-- The walk stays in the square. -/
theorem route_lt {n row col : Nat} (h : (row, col) ∈ route n) : row < n ∧ col < n := by
  unfold route at h
  obtain ⟨st, hst, hm⟩ := List.mem_flatMap.1 h
  obtain ⟨h1, h2⟩ := strips_le _ _ _ st hst
  have := (mem_stripCells n st h1 row col).1 hm
  omega

/-- A walk whose strips lie two columns apart passes no cell twice. -/
theorem route_nodup {n : Nat} (h : (strips n (n - 1) true).Pairwise (fun a b => b.1 + 2 ≤ a.1)) : (route n).Nodup := by
  have hs := strips_le n (n - 1) true
  unfold route
  rw [List.Nodup, List.pairwise_flatMap]
  refine ⟨fun a ha => nodup_stripCells n a (hs a ha).1, ?_⟩
  refine List.Pairwise.imp_of_mem ?_ h
  rintro a b ha hb hab ⟨r, c⟩ hx y hy rfl
  have h1 := (mem_stripCells n a (hs a ha).1 r c).1 hx
  have h2 := (mem_stripCells n b (hs b hb).1 r c).1 hy
  omega

/-- Different cells of the walk are different elements of MAT. -/
theorem route_cellIndex_nodup {n : Nat} (hn : n ≤ 256) (h : (route n).Nodup) :
    ((route n).map (fun c => cellIndex c.1 c.2)).Nodup := by
  rw [List.Nodup, List.pairwise_map]
  refine List.Pairwise.imp_of_mem ?_ h
  rintro ⟨a, b⟩ ⟨c, d⟩ ha hb hab he
  have h1 := route_lt ha
  have h2 := route_lt hb
  obtain ⟨rfl, rfl⟩ := cellIndex_inj (by omega) (by omega) he
  exact hab rfl

/-! ### What a command's pseudocode sees -/

theorem SameView.fmtBody {s u : State} (h : SameView s u) : fmtBody u = fmtBody s := by
  obtain ⟨h0, h1, h2, h3, h4, h5, h6, h7⟩ := h
  cases s; cases u
  simp only at h0 h1 h2 h3 h4 h5 h6 h7
  subst h0 h1 h2 h3 h4 h5 h6 h7; rfl

theorem SameView.rsdivBody {s u : State} (h : SameView s u) (e blk : Nat) : rsdivBody e blk u = rsdivBody e blk s := by
  obtain ⟨h0, h1, h2, h3, h4, h5, h6, h7⟩ := h
  cases s; cases u
  simp only at h0 h1 h2 h3 h4 h5 h6 h7
  subst h0 h1 h2 h3 h4 h5 h6 h7; rfl

theorem SameView.rsencBody {s u : State} (h : SameView s u) : rsencBody u = rsencBody s := by
  obtain ⟨h0, h1, h2, h3, h4, h5, h6, h7⟩ := h
  cases s; cases u
  simp only at h0 h1 h2 h3 h4 h5 h6 h7
  subst h0 h1 h2 h3 h4 h5 h6 h7; rfl

theorem SameView.ilvBody {s u : State} (h : SameView s u) : ilvBody u = ilvBody s := by
  obtain ⟨h0, h1, h2, h3, h4, h5, h6, h7⟩ := h
  cases s; cases u
  simp only at h0 h1 h2 h3 h4 h5 h6 h7
  subst h0 h1 h2 h3 h4 h5 h6 h7; rfl

theorem SameView.placeBody {s u : State} (h : SameView s u) : placeBody u = placeBody s := by
  cases hr : s.row with
  | none => rw [Machine.placeBody, Machine.placeBody, withVersion_none hr, withVersion_none (h.row.trans hr), h.mem, h.ver]
  | some r =>
    rw [Machine.placeBody, Machine.placeBody, withVersion_some hr, withVersion_some (h.row.trans hr), h.mem, h.mask,
      h.freeCount, placeWalk, placeWalk, (h.walk r.total (route r.side) 0).mem]

theorem SameView.andThen {s u : State} (h : SameView s u) {r : Ran} {f : State → Ran}
    (hf : ∀ s u, SameView s u → f u = f s) : r.andThen u f = r.andThen s f := by
  cases r with
  | ended M => exact hf _ _ (h.setMem M)
  | raised M c info => rfl

theorem SameView.encodeBody {s u : State} (h : SameView s u) : encodeBody u = encodeBody s := by
  unfold Machine.encodeBody
  rw [h.fmtBody, h.andThen (fun _ _ h => h.rsencBody), h.andThen (fun _ _ h => h.ilvBody),
    h.andThen (fun _ _ h => h.placeBody)]

@[simp] theorem State.setMem_row (s : State) (M : Memory) : (s.setMem M).row = s.row := rfl
@[simp] theorem State.complete_row (s : State) (M : Memory) : (s.complete M).row = s.row := rfl

/-- After a completed command the next one sees the memories it left. -/
theorem State.sameView_complete (s : State) (M : Memory) : SameView (s.setMem M) (s.complete M) :=
  ⟨rfl, rfl, rfl, rfl, rfl, rfl, rfl, rfl⟩

/-! ### The stages of ENCODE -/

/-- A slot list writes no memory but ECB. -/
theorem slots_cells_other (f : Nat → List Byte) (l : List Nat) (M : Memory) {m : MemName} (h : m ≠ .ecb) :
    (l.foldl (fun M b => M.putAll .ecb (ecbIndex b 0) (f b)) M).cells m = M.cells m := by
  induction l generalizing M with
  | nil => rfl
  | cons b l ih => rw [List.foldl_cons, ih, Memory.cells_putAll_other _ _ _ h]

theorem rsencMemory_cells_other (s : State) (r : VersionRow) {m : MemName} (h : m ≠ .ecb) :
    (rsencMemory s r).cells m = s.mem.cells m := slots_cells_other _ _ _ h

theorem State.freeCount_setMem (s : State) (M : Memory) (h : M.cells .mat = s.mem.cells .mat) (n : Nat) :
    (s.setMem M).freeCount n = s.freeCount n := by
  unfold State.freeCount State.rsv
  simp only [State.elem_eq_of_cells (s := s) (t := s.setMem M) rfl h]

/-- The memories after the first stage of ENCODE. -/
def afterFmt (s : State) (r : VersionRow) : Memory := s.mem.putAll .msg 0 (formatted s s.tlen.toNat r.dataCount)

/-- The memories after the second. -/
def afterRsenc (s : State) (r : VersionRow) : Memory := rsencMemory (s.setMem (afterFmt s r)) r

/-- The memories after the third. -/
def afterIlv (s : State) (r : VersionRow) : Memory :=
  (afterRsenc s r).putAll .stream 0 (interleaved (s.setMem (afterRsenc s r)) r)

/-- Where the version and the capacity checks pass, ENCODE is PLACE on what the first three stages leave. -/
theorem encodeBody_ok {s : State} {r : VersionRow} (hr : s.row = some r) (h1 : s.tlen.toNat ≤ 255)
    (h2 : s.tlen.toNat + 2 ≤ r.dataCount) : encodeBody s = placeBody (s.setMem (afterIlv s r)) := by
  have hr' : ∀ M, (s.setMem M).row = some r := fun _ => hr
  unfold encodeBody
  rw [fmtBody_ok hr h1 h2, Ran.andThen_ended, rsencBody_row (hr' _), Ran.andThen_ended, ilvBody_row (hr' _),
    Ran.andThen_ended]
  rfl

theorem afterIlv_mat (s : State) (r : VersionRow) : (afterIlv s r).cells .mat = s.mem.cells .mat := by
  rw [afterIlv, Memory.cells_putAll_other _ _ _ (by decide), afterRsenc, rsencMemory_cells_other _ _ (by decide)]
  exact Memory.cells_putAll_other _ _ _ (by decide)

end Sys2Proof.Machine
end

