-- ==== Sys2Proof/Laws/Port.lean ====
section
/-! SUPPORT. The host port: what a word index names (20_memory.md R41), and how a step uses up an event. -/

namespace Sys2Proof.Machine

theorem regAt_eq_none_iff (n : Nat) : regAt n = none ↔ 14 ≤ n := by
  constructor
  · intro h
    by_cases hn : n < 14
    · have hall : ∀ n : Fin 14, (regAt n).isSome = true := by decide
      have := hall ⟨n, hn⟩
      rw [h] at this; cases this
    · omega
  · intro h
    unfold regAt
    split <;> first | rfl | omega

/-- The register named by an index below 14. -/
theorem target_reg {a : Index} {r : Reg} (h : regAt a.toNat = some r) : target a = .reg r := by
  simp [target, h]

theorem elemAt_eq_some {m : MemName} {n : Nat} {t : Target} (h : elemAt m n = some t) :
    ∃ i, t = .elem m i ∧ n = memBase m + i ∧ implemented m i = true := by
  unfold elemAt at h
  split at h
  · rename_i hc
    refine ⟨n - memBase m, (Option.some.inj h).symm, by omega, hc.2.2⟩
  · cases h

theorem implemented_lt {m : MemName} {i : Nat} (h : implemented m i = true) : i < memWindow m := by
  cases m <;> simp [implemented, memWindow] at * <;> omega

theorem elemAt_base {m : MemName} {i : Nat} (h : implemented m i = true) :
    elemAt m (memBase m + i) = some (.elem m i) := by
  have := implemented_lt h
  simp [elemAt, h]; omega

theorem elemAt_other {m m' : MemName} {i : Nat} (h : implemented m i = true) (hm : m' ≠ m) :
    elemAt m' (memBase m + i) = none := by
  have := implemented_lt h
  unfold elemAt
  rw [if_neg]
  rintro ⟨h1, h2, -⟩
  cases m <;> cases m' <;> simp [memBase, memWindow] at * <;> omega

/-- The map of the word index space, element by element. -/
theorem target_eq_elem_iff (a : Index) (m : MemName) (i : Nat) :
    target a = .elem m i ↔ a.toNat = memBase m + i ∧ implemented m i = true := by
  constructor
  · intro h
    unfold target at h
    cases hr : regAt a.toNat with
    | some r => simp [hr] at h
    | none =>
      have hor : ∀ {x y : Option Target} {z : Target}, (x <|> y) = some z → x = some z ∨ y = some z := by
        intro x y z h; cases x <;> simp_all
      simp only [hr, Option.map_none] at h
      split at h
      · rename_i t ht
        subst h
        rcases hor ht with h | ht
        · cases h
        rcases hor ht with h | ht
        · obtain ⟨j, h1, h2, h3⟩ := elemAt_eq_some h; injection h1 with h1 h4; subst h1 h4; exact ⟨h2, h3⟩
        rcases hor ht with h | ht
        · obtain ⟨j, h1, h2, h3⟩ := elemAt_eq_some h; injection h1 with h1 h4; subst h1 h4; exact ⟨h2, h3⟩
        rcases hor ht with h | ht
        · obtain ⟨j, h1, h2, h3⟩ := elemAt_eq_some h; injection h1 with h1 h4; subst h1 h4; exact ⟨h2, h3⟩
        rcases hor ht with h | h
        · obtain ⟨j, h1, h2, h3⟩ := elemAt_eq_some h; injection h1 with h1 h4; subst h1 h4; exact ⟨h2, h3⟩
        · obtain ⟨j, h1, h2, h3⟩ := elemAt_eq_some h; injection h1 with h1 h4; subst h1 h4; exact ⟨h2, h3⟩
      · cases h
  · rintro ⟨h, hi⟩
    have hn : regAt (memBase m + i) = none := by
      rw [regAt_eq_none_iff]; cases m <;> simp [memBase] <;> omega
    have hb := elemAt_base hi
    unfold target
    rw [h, hn]
    cases m
    · simp [hb]
    · simp [hb, elemAt_other (m' := .text) hi (by simp)]
    · simp [hb, elemAt_other (m' := .text) hi (by simp), elemAt_other (m' := .msg) hi (by simp)]
    · simp [hb, elemAt_other (m' := .text) hi (by simp), elemAt_other (m' := .msg) hi (by simp),
        elemAt_other (m' := .ecb) hi (by simp)]
    · simp [hb, elemAt_other (m' := .text) hi (by simp), elemAt_other (m' := .msg) hi (by simp),
        elemAt_other (m' := .ecb) hi (by simp), elemAt_other (m' := .stream) hi (by simp)]

theorem target_eq_reg_iff (a : Index) (r : Reg) : target a = .reg r ↔ regAt a.toNat = some r := by
  constructor
  · intro h
    cases hr : regAt a.toNat with
    | some q => rw [target_reg hr] at h; injection h with h; rw [h]
    | none =>
      exfalso
      unfold target at h
      rw [hr] at h
      split at h
      · rename_i t ht
        subst h
        simp only [Option.map_none] at ht
        have hor : ∀ {x y : Option Target} {z : Target}, (x <|> y) = some z → x = some z ∨ y = some z := by
          intro x y z h; cases x <;> simp_all
        rcases hor ht with h | ht
        · cases h
        rcases hor ht with h | ht
        · obtain ⟨j, h1, -⟩ := elemAt_eq_some h; cases h1
        rcases hor ht with h | ht
        · obtain ⟨j, h1, -⟩ := elemAt_eq_some h; cases h1
        rcases hor ht with h | ht
        · obtain ⟨j, h1, -⟩ := elemAt_eq_some h; cases h1
        rcases hor ht with h | h
        · obtain ⟨j, h1, -⟩ := elemAt_eq_some h; cases h1
        · obtain ⟨j, h1, -⟩ := elemAt_eq_some h; cases h1
      · cases h
  · exact target_reg

/-! ### Events -/

/-- A step takes the next event. -/
theorem step_cons {s : State} {e : Event} {rest : List Event} (h : s.inputs = e :: rest) : step s = occur s rest e := by
  simp [step, h]

/-- With no event waiting, a step is the engine's turn. -/
theorem step_nil {s : State} (h : s.inputs = []) : step s = engineTurn s := by simp [step, h]

theorem target_cmdIndex : target cmdIndex = .reg .cmd := rfl

theorem hostWrite_cmdIndex (s : State) (w : Word) : hostWrite s cmdIndex w = writeCmd s w := rfl

/-- With `rst` released a host write is performed. -/
theorem step_write {s : State} {a : Index} {v : Word} {rest : List Event} (hr : s.rst = false)
    (h : s.inputs = .write a v :: rest) : step s = hostWrite (s.withInputs rest) a v := by
  rw [step_cons h]; simp [occur, hr]

/-- With `rst` released a host read is performed. -/
theorem step_read {s : State} {a : Index} {rest : List Event} (hr : s.rst = false) (h : s.inputs = .read a :: rest) :
    step s = .next (hostRead (s.withInputs rest) a) := by
  rw [step_cons h]; simp [occur, hr]

/-- With `rst` released a write to CMD is handled as a command word. -/
theorem step_cmd {s : State} {w : Word} {rest : List Event} (hr : s.rst = false)
    (h : s.inputs = .write cmdIndex w :: rest) : step s = writeCmd (s.withInputs rest) w := step_write hr h

/-! ### Runs -/

theorem run_zero (s : State) : Host.Core.run Sys2Proof.core 0 s = .next s := rfl

/-- One more step of a run. -/
theorem run_succ {s t : State} (h : step s = .next t) (n : Nat) :
    Host.Core.run Sys2Proof.core (n + 1) s = Host.Core.run Sys2Proof.core n t := by
  have hs : Host.Core.step Sys2Proof.core s = .next t := h
  simp only [Host.Core.run, hs]

end Sys2Proof.Machine
end

