-- ==== Sys2Proof/Laws/Canonical.lean ====
section
/-! SUPPORT. Every operation on the memories keeps their canonical form: a host's write, each command's writes, and a
command cut short. -/

namespace Sys2Proof.Machine

/-! ### Commands -/

theorem wf_putMsg {M : Memory} {l : List Byte} (hl : l.length ≤ 2048) (h : M.wf = true) : (M.putAll .msg 0 l).wf = true :=
  Memory.wf_putAll _ _ _ (fun j _ h2 => by simp only [implemented, decide_eq_true_eq]; omega) h

theorem wf_putStream {M : Memory} {l : List Byte} (hl : l.length ≤ 4096) (h : M.wf = true) :
    (M.putAll .stream 0 l).wf = true :=
  Memory.wf_putAll _ _ _ (fun j _ h2 => by simp only [implemented, decide_eq_true_eq]; omega) h

theorem wf_putSlot {M : Memory} {b : Nat} {l : List Byte} (hb : b < 128) (hl : l.length ≤ 32) (h : M.wf = true) :
    (M.putAll .ecb (ecbIndex b 0) l).wf = true :=
  Memory.wf_putAll _ _ _ (fun j h1 h2 => by
    simp only [ecbIndex] at h1 h2
    simp only [implemented, decide_eq_true_eq]; omega) h

theorem fmtBody_wf {s : State} (hc : s.config.wf = true) (h : s.mem.wf = true) : (fmtBody s).mem.wf = true := by
  cases hr : s.row with
  | none => rw [fmtBody, withVersion_none hr]; exact h
  | some r =>
    rw [fmtBody_row hr]
    cases hx : exceedsCapacity s.tlen.toNat r.dataCount
    · have h2 := ((exceedsCapacity_eq_false_iff _ _).1 hx).2
      have := (rowFacts hc hr).n_le
      exact wf_putMsg (by rw [formatted_length s h2]; exact this) h
    · exact h

theorem rsdivBody_wf {s : State} {e blk : Nat} (hc : s.config.wf = true) (hb : blk < 128) (h : s.mem.wf = true) :
    (rsdivBody e blk s).mem.wf = true := by
  cases hx : badOperands s e
  · obtain ⟨h1, h2⟩ := (badOperands_eq_false_iff s e).1 hx
    rw [rsdivBody_ok blk h1 h2]
    obtain ⟨g, hg⟩ := Option.isSome_iff_exists.1 h1
    have hl : (rsdivResult s e).length = e := by rw [rsdivResult, hg]; exact rsdiv_length hc _ _ hg
    exact wf_putSlot hb (by have := (genFacts hc hg).le; omega) h
  · rw [rsdivBody_bad blk hx]; exact h

theorem rsencMemory_wf {s : State} (hc : s.config.wf = true) {r : VersionRow} (hr : s.row = some r) (h : s.mem.wf = true) :
    (rsencMemory s r).wf = true := by
  have hb := (rowFacts hc hr).blocks_le
  have he := (rowFacts hc hr).e_le
  have hall : ∀ (l : List Nat) (M : Memory), (∀ b ∈ l, b < 128) → M.wf = true →
      (l.foldl (fun M b => M.putAll .ecb (ecbIndex b 0) (blockRemainder s r b)) M).wf = true := by
    intro l
    induction l with
    | nil => intro M _ hM; exact hM
    | cons b l ih =>
      intro M hl hM
      refine ih _ (fun b hb => hl b (List.mem_cons_of_mem _ hb)) ?_
      exact wf_putSlot (hl b List.mem_cons_self) (by rw [blockRemainder_length hc hr]; omega) hM
  exact hall _ _ (fun b hb' => by have := List.mem_range.1 hb'; omega) h

theorem rsencBody_wf {s : State} (hc : s.config.wf = true) (h : s.mem.wf = true) : (rsencBody s).mem.wf = true := by
  cases hr : s.row with
  | none => rw [rsencBody, withVersion_none hr]; exact h
  | some r => rw [rsencBody_row hr]; exact rsencMemory_wf hc hr h

theorem ilvBody_wf {s : State} (hc : s.config.wf = true) (h : s.mem.wf = true) : (ilvBody s).mem.wf = true := by
  cases hr : s.row with
  | none => rw [ilvBody, withVersion_none hr]; exact h
  | some r =>
    rw [ilvBody_row hr]
    exact wf_putStream (by rw [interleaved_length s (rowFacts hc hr).d2_ge]; exact (rowFacts hc hr).t_le) h

theorem placeWalk_wf {s : State} (hc : s.config.wf = true) {r : VersionRow} (hr : s.row = some r) (h : s.mem.wf = true) :
    (placeWalk s r).1.mem.wf = true := by
  have hall : ∀ (l : List (Nat × Nat)) (p : State × Nat), (∀ c ∈ l, c.1 ≤ 176 ∧ c.2 ≤ 176) → p.1.mem.wf = true →
      (l.foldl (placeCell r.total) p).1.mem.wf = true := by
    intro l
    induction l with
    | nil => intro p _ hp; exact hp
    | cons c l ih =>
      intro p hl hp
      refine ih _ (fun b hb => hl b (List.mem_cons_of_mem _ hb)) ?_
      have hb := hl c List.mem_cons_self
      unfold placeCell
      split
      · exact hp
      · exact State.setDark_wf _ hb.1 hb.2 hp
  refine hall _ _ ?_ h
  rintro ⟨row, col⟩ hm
  have h1 := route_lt hm
  have h2 := (rowFacts hc hr).version_le
  unfold VersionRow.side at h1
  omega

theorem placeBody_wf {s : State} (hc : s.config.wf = true) (h : s.mem.wf = true) : (placeBody s).mem.wf = true := by
  cases hr : s.row with
  | none => rw [placeBody, withVersion_none hr]; exact h
  | some r =>
    rw [placeBody, withVersion_some hr]
    split
    · exact h
    · split
      · exact h
      · exact placeWalk_wf hc hr h

theorem encodeBody_wf {s : State} (hc : s.config.wf = true) (h : s.mem.wf = true) : (encodeBody s).mem.wf = true := by
  refine Ran.andThen_mem (P := fun M => M.wf = true) ?_ (fun M hM => placeBody_wf hc hM)
  refine Ran.andThen_mem (P := fun M => M.wf = true) ?_ (fun M hM => ilvBody_wf hc hM)
  exact Ran.andThen_mem (P := fun M => M.wf = true) (fmtBody_wf hc h) (fun M hM => rsencBody_wf hc hM)

/-- A command keeps the canonical form. -/
theorem ranOf_wf {i : Instr} {s : State} (hi : i.wellFormed = true) (hc : s.config.wf = true)
    (h : s.mem.wf = true) : (ranOf i s).mem.wf = true := by
  cases i with
  | nop => exact h
  | fmt => exact fmtBody_wf hc h
  | rsdiv e blk =>
    simp only [Instr.wellFormed, fitsE, fitsBlk, Bool.and_eq_true, decide_eq_true_eq] at hi
    exact rsdivBody_wf hc hi.2 h
  | rsenc => exact rsencBody_wf hc h
  | ilv => exact ilvBody_wf hc h
  | place => exact placeBody_wf hc h
  | encode => exact encodeBody_wf hc h
  | clrerr => exact h
  | srst => exact h

/-! ### A decoded word is well formed -/

theorem field_lt (w : Word) (lo len : Nat) : field w lo len < 2 ^ len := Nat.mod_lt _ (Nat.pow_pos (by omega))

theorem decode_wellFormed {w : Word} {i : Instr} (h : decode w = .ok i) : i.wellFormed = true := by
  unfold decode at h
  split at h
  · rename_i r hr
    injection h with h
    subst h
    have hm := List.mem_of_find?_eq_some hr
    simp only [opcodeMap, List.mem_cons, List.not_mem_nil, or_false] at hm
    rcases hm with rfl | rfl | rfl | rfl | rfl | rfl | rfl | rfl | rfl
    any_goals rfl
    have h1 := field_lt w 8 5
    have h2 := field_lt w 16 7
    simp only [Instr.wellFormed, fitsE, fitsBlk, Bool.and_eq_true, decide_eq_true_eq]
    omega
  · cases h

/-! ### A command cut short -/

/-- Every element a command may write is one the memories have. -/
theorem mayWrite_implemented {s : State} {i : Instr} (hc : s.config.wf = true) (hi : i.wellFormed = true) :
    ∀ c ∈ s.mayWrite i, implemented c.1 c.2 = true := by
  have hrange : ∀ (m : MemName) (a n : Nat), (∀ j, a ≤ j → j < a + n → implemented m j = true) →
      ∀ c ∈ rangeOf m a n, implemented c.1 c.2 = true := by
    intro m a n h c hm
    simp only [rangeOf, List.mem_map, List.mem_range] at hm
    obtain ⟨j, hj, rfl⟩ := hm
    exact h _ (by omega) (by omega)
  have hmsg : ∀ {r}, s.row = some r → ∀ c ∈ rangeOf .msg 0 r.dataCount, implemented c.1 c.2 = true := by
    intro r hr
    have := (rowFacts hc hr).n_le
    exact hrange _ _ _ (fun j _ h => by simp only [implemented, decide_eq_true_eq]; omega)
  have hstream : ∀ {r}, s.row = some r → ∀ c ∈ rangeOf .stream 0 r.total, implemented c.1 c.2 = true := by
    intro r hr
    have := (rowFacts hc hr).t_le
    exact hrange _ _ _ (fun j _ h => by simp only [implemented, decide_eq_true_eq]; omega)
  have hslot : ∀ b e, b < 128 → e ≤ 32 → ∀ c ∈ rangeOf .ecb (ecbIndex b 0) e, implemented c.1 c.2 = true := by
    intro b e hb he
    exact hrange _ _ _ (fun j h1 h2 => by
      simp only [ecbIndex] at h1 h2
      simp only [implemented, decide_eq_true_eq]; omega)
  have hecb : ∀ {r}, s.row = some r → ∀ c ∈ ecbElems r, implemented c.1 c.2 = true := by
    intro r hr c hm
    have h1 := (rowFacts hc hr).blocks_le
    have h2 := (rowFacts hc hr).e_le
    obtain ⟨b, hb, hm⟩ := List.mem_flatMap.1 hm
    have := List.mem_range.1 hb
    exact hslot b r.e (by omega) (by omega) c hm
  have hfree : ∀ {r}, s.row = some r → ∀ c ∈ s.freeElems r, implemented c.1 c.2 = true := by
    intro r hr c hm
    have h1 := (rowFacts hc hr).version_le
    simp only [State.freeElems, List.mem_map, List.mem_filter, squareCells, List.mem_flatMap, List.mem_range] at hm
    obtain ⟨⟨a, b⟩, ⟨⟨a', ha, b', hb, hab⟩, -⟩, rfl⟩ := hm
    injection hab with e1 e2
    subst e1 e2
    unfold VersionRow.side at ha hb
    simp only
    unfold implemented cellIndex
    rw [Bool.and_eq_true, decide_eq_true_eq, decide_eq_true_eq]
    omega
  intro c hm
  cases i <;> simp only [State.mayWrite, List.not_mem_nil] at hm
  case rsdiv e blk =>
    simp only [Instr.wellFormed, fitsE, fitsBlk, Bool.and_eq_true, decide_eq_true_eq] at hi
    exact hslot blk e hi.2 (by omega) c hm
  all_goals
    cases hr : s.row with
    | none => rw [hr] at hm; simp at hm
    | some r =>
      rw [hr] at hm
      simp only [List.mem_append] at hm
      first
      | exact hmsg hr c hm
      | exact hecb hr c hm
      | exact hstream hr c hm
      | exact hfree hr c hm
      | rcases hm with ((hm | hm) | hm) | hm
        · exact hmsg hr c hm
        · exact hecb hr c hm
        · exact hstream hr c hm
        · exact hfree hr c hm

/-- Scrubbing changes one element of the memories and nothing else. -/
theorem scrub_eq (n : Nat) (s : State) (c : MemName × Nat) :
    ∃ v, scrub n s c = s.setMem (s.mem.put c.1 c.2 v) ∧
      (c.1 = .mat → v = (s.elem .mat c.2 &&& 0x02) ||| (Config.cutShort n .mat c.2 &&& 0x01)) := by
  obtain ⟨m, j⟩ := c
  cases m <;> exact ⟨_, rfl, fun h => by first | rfl | cases h⟩

theorem scrubAll_wf (n : Nat) (l : List (MemName × Nat)) (s : State) (hl : ∀ c ∈ l, implemented c.1 c.2 = true)
    (h : s.mem.wf = true) : (l.foldl (scrub n) s).mem.wf = true := by
  induction l generalizing s with
  | nil => exact h
  | cons c l ih =>
    refine ih _ (fun d hd => hl d (List.mem_cons_of_mem _ hd)) ?_
    obtain ⟨v, hv, -⟩ := scrub_eq n s c
    rw [hv]
    exact Memory.wf_put _ _ _ (hl c List.mem_cons_self) h

theorem abandon_wf {s : State} {w : Word} (hc : s.config.wf = true) (h : s.mem.wf = true) : (abandon s w).mem.wf = true := by
  unfold abandon
  split
  · rename_i i hi
    exact scrubAll_wf _ _ _ (mayWrite_implemented hc (decode_wellFormed hi)) h
  · exact h

/-! ### The host's writes -/

theorem writeElem_wf {s : State} {a : Index} {m : MemName} {i : Nat} (ha : target a = .elem m i) (v : Byte)
    (h : s.mem.wf = true) : (s.mem.put m i v).wf = true :=
  Memory.wf_put _ _ _ ((target_eq_elem_iff a m i).1 ha).2 h

/-! ### A command and its WAIT -/

/-- A long command sees the same view after its acceptance as before. -/
theorem ranOf_view {s u : State} (h : SameView s u) {i : Instr} (hl : i.isLong = true) : ranOf i u = ranOf i s := by
  cases i with
  | fmt => exact h.fmtBody
  | rsdiv e blk => exact h.rsdivBody e blk
  | rsenc => exact h.rsencBody
  | ilv => exact h.ilvBody
  | place => exact h.placeBody
  | encode => exact h.encodeBody
  | nop => cases hl
  | clrerr => cases hl
  | srst => cases hl

/-- In IDLE, the host's write of a long command and the WAIT after it take three steps: acceptance, the engine's one step,
and the end of the WAIT. -/
theorem run_command {s : State} {i : Instr} {rest : List Event} (hd : decode (encode i) = .ok i) (hl : i.isLong = true)
    (hr : s.rst = false) (hb : s.busy = false) (he : s.err = false)
    (h : s.inputs = .write cmdIndex (encode i) :: .wait :: rest) (n : Nat) :
    Host.Core.run Sys2Proof.core (n + 3) s =
      Host.Core.run Sys2Proof.core n ((s.finish (ranOf i s)).withInputs rest) := by
  have h1 : step s = .next ((s.accept (encode i)).withInputs (.wait :: rest)) := by
    rw [step_cmd hr h, writeCmd, if_neg (by simp [hb]), if_neg (by simp [he]), hd]
    simp only [hl, if_true]; rfl
  have hv : SameView s ((s.accept (encode i)).withInputs (.wait :: rest)) := ⟨rfl, rfl, rfl, rfl, rfl, rfl, rfl, rfl⟩
  have h2 : step ((s.accept (encode i)).withInputs (.wait :: rest)) =
      .next ((s.finish (ranOf i s)).withInputs (.wait :: rest)) := by
    rw [step_cons (e := .wait) (rest := rest) rfl]
    simp only [occur]
    rw [if_neg (by simp [hr]), if_pos (by rfl)]
    unfold engineTurn
    simp only [State.withInputs_seq, State.accept_seq, hd, hl, if_true, exec_long hl, ranOf_view hv hl]
    cases ranOf i s <;> rfl
  have h3 : step ((s.finish (ranOf i s)).withInputs (.wait :: rest)) = .next ((s.finish (ranOf i s)).withInputs rest) := by
    rw [step_cons (e := .wait) (rest := rest) rfl]
    simp only [occur]
    rw [if_neg (by simp [hr]), if_neg (by simp)]
    rfl
  rw [run_succ h1, run_succ h2, run_succ h3]

end Sys2Proof.Machine
end

