-- ==== Sys2Proof/Laws/PerInstr.lean ====
section
/-! SUPPORT. Statements about every command as syntax, one lemma per constructor: the word of a well-formed command spells
exactly one row of the opcode map (30_encoding.md R73). -/

namespace Sys2Proof.Laws.SpellsOneRow

/-- The word of the command spells exactly one row of the opcode map. -/
def Statement (i : Instr) : Prop :=
  i.wellFormed = true → (opcodeMap.filter (fun r => r.spells (encode i))).length = 1

theorem nop : Statement .nop := fun _ => by decide

theorem fmt : Statement .fmt := fun _ => by decide

/-- The two fields of an RSDIV word, under the mask of the RSDIV row and under the opcode's. -/
theorem rsdiv_e_masked : ∀ e : Fin 32, (BitVec.ofNat 32 e.1 <<< 8) &&& 0xFF80E0FF = (0 : Word) ∧
    (BitVec.ofNat 32 e.1 <<< 8) &&& 0x000000FF = (0 : Word) := by decide

theorem rsdiv_blk_masked : ∀ blk : Fin 128, (BitVec.ofNat 32 blk.1 <<< 16) &&& 0xFF80E0FF = (0 : Word) ∧
    (BitVec.ofNat 32 blk.1 <<< 16) &&& 0x000000FF = (0 : Word) := by decide +kernel

/-- A mask that lets neither field through leaves the opcode. -/
theorem rsdiv_masked {e blk : Nat} {m : Word} (he : (BitVec.ofNat 32 e <<< 8) &&& m = 0)
    (hb : (BitVec.ofNat 32 blk <<< 16) &&& m = 0) : Sys2Proof.encode (.rsdiv e blk) &&& m = 0x00000002 &&& m := by
  unfold Sys2Proof.encode
  rw [BitVec.and_comm, BitVec.and_or_distrib_left, BitVec.and_or_distrib_left, BitVec.and_comm m (BitVec.ofNat 32 e <<< 8),
    BitVec.and_comm m (BitVec.ofNat 32 blk <<< 16), he, hb, BitVec.and_comm m]
  simp

theorem rsdiv (e blk : Nat) : Statement (.rsdiv e blk) := by
  intro h
  simp only [Instr.wellFormed, fitsE, fitsBlk, Bool.and_eq_true, decide_eq_true_eq] at h
  have h1 := rsdiv_e_masked ⟨e, h.1⟩
  have h2 := rsdiv_blk_masked ⟨blk, h.2⟩
  have ho := rsdiv_masked h1.2 h2.2
  have hr := rsdiv_masked h1.1 h2.1
  generalize Sys2Proof.encode (.rsdiv e blk) = w at ho hr
  have hne : ∀ p : Word, p &&& 0x000000FF ≠ 0x00000002 → (w &&& 0xFFFFFFFF == p) = false := by
    intro p hp
    have hall : (0xFFFFFFFF : Word) = BitVec.allOnes 32 := by decide
    rw [hall, BitVec.and_allOnes, beq_eq_false_iff_ne]
    intro hw
    rw [hw] at ho
    exact hp ho
  have hrow : (w &&& 0xFF80E0FF == 0x00000002) = true := by rw [hr]; decide
  have a0 := hne 0x00000000 (by decide); have a1 := hne 0x00000001 (by decide); have a3 := hne 0x00000003 (by decide)
  have a4 := hne 0x00000004 (by decide); have a5 := hne 0x00000005 (by decide); have a6 := hne 0x00000006 (by decide)
  have a7 := hne 0x0000000E (by decide); have a8 := hne 0x0000000F (by decide)
  unfold opcodeMap
  simp only [List.filter, OpRow.spells]
  rw [a0, a1, hrow, a3, a4, a5, a6, a7, a8]
  rfl

theorem rsenc : Statement .rsenc := fun _ => by decide

theorem ilv : Statement .ilv := fun _ => by decide

theorem place : Statement .place := fun _ => by decide

theorem encode : Statement .encode := fun _ => by decide

theorem clrerr : Statement .clrerr := fun _ => by decide

theorem srst : Statement .srst := fun _ => by decide

end Sys2Proof.Laws.SpellsOneRow
end

