-- ==== Sys2Proof/Laws/Skeleton.lean ====
section
/-! SUPPORT. A matrix memory that holds the reference skeleton (44_matrix_skeleton.md R145): its planes, its free cells
and the cells the walk visits, read off the stamps; and the count of the free cells of a skeleton, row by
row, in a form the kernel evaluates quickly. -/

namespace Sys2Proof.Machine

/-- Looking up a key in a list made from keys, where no two entries share one. -/
theorem lookup_map {α : Type} (key : α → Nat) (f : α → Byte) (l : List α) (hk : ∀ a ∈ l, ∀ b ∈ l, key a = key b → a = b)
    {q : α} (hq : q ∈ l) : lookup (l.map (fun p => (key p, f p))) (key q) = some (f q) := by
  induction l with
  | nil => cases hq
  | cons a t ih =>
    rw [List.map_cons, lookup]
    by_cases h : key q = key a
    · rw [if_pos h, hk q hq a List.mem_cons_self h]
    · rw [if_neg h]
      rcases List.mem_cons.1 hq with rfl | hq
      · exact absurd rfl h
      · exact ih (fun x hx y hy => hk x (List.mem_cons_of_mem _ hx) y (List.mem_cons_of_mem _ hy)) hq

theorem mem_squareCells (n row col : Nat) : (row, col) ∈ squareCells n ↔ row < n ∧ col < n := by simp [squareCells]

/-- A cell of a loaded skeleton. -/
theorem skelCells_get? {M : Memory} {v : Nat} (hv : v ≤ 40) (h : M.mat = skelCells v) {row col : Nat} (hr : row < 4 * v + 17)
    (hc : col < 4 * v + 17) : M.get? .mat (cellIndex row col) = some (skelByte v (row, col)) := by
  have hm : M.cells .mat = skelCells v := h
  have hk : ∀ a ∈ squareCells (4 * v + 17), ∀ b ∈ squareCells (4 * v + 17),
      cellIndex a.1 a.2 = cellIndex b.1 b.2 → a = b := by
    rintro ⟨a, b⟩ h1 ⟨c, d⟩ h2 he
    have h1 := (mem_squareCells (4 * v + 17) a b).1 h1
    have h2 := (mem_squareCells (4 * v + 17) c d).1 h2
    obtain ⟨rfl, rfl⟩ := cellIndex_inj (by omega) (by omega) he
    rfl
  have hq : (row, col) ∈ squareCells (4 * v + 17) := (mem_squareCells (4 * v + 17) row col).2 ⟨hr, hc⟩
  have hl := lookup_map (fun c => cellIndex c.1 c.2) (skelByte v) (squareCells (4 * v + 17)) hk hq
  rw [Memory.get?, hm]
  exact hl

theorem rsv_skel {s : State} {v : Nat} (hv : v ≤ 40) (h : s.mem.mat = skelCells v) {row col : Nat} (hr : row < 4 * v + 17)
    (hc : col < 4 * v + 17) : s.rsv row col = (skelByte v (row, col)).getLsbD 1 := by
  simp only [State.rsv, State.elem, Memory.elem, skelCells_get? hv h hr hc]

/-- The free cells of a skeleton that the walk visits, in order. -/
def walkCells (v : Nat) : List (Nat × Nat) := (route (4 * v + 17)).filter (fun c => !(skelByte v c).getLsbD 1)

theorem freeOf_skel {s : State} {v : Nat} (hv : v ≤ 40) (h : s.mem.mat = skelCells v) :
    s.freeOf (route (4 * v + 17)) = walkCells v := by
  refine List.filter_congr ?_
  rintro ⟨a, b⟩ hc
  have := route_lt hc
  rw [rsv_skel hv h this.1 this.2]

theorem freeCount_skel {s : State} {v : Nat} (hv : v ≤ 40) (h : s.mem.mat = skelCells v) :
    s.freeCount (4 * v + 17) = (squareCells (4 * v + 17)).countP (fun c => !(skelByte v c).getLsbD 1) := by
  refine List.countP_congr ?_
  rintro ⟨a, b⟩ hc
  have := (mem_squareCells (4 * v + 17) a b).1 hc
  rw [rsv_skel hv h this.1 this.2]

/-! ### Counting the free cells row by row -/

/-- The number whose bits `a, ..., a+len-1` are 1. -/
def bitRun (a len : Nat) : Nat := (2 ^ len - 1) <<< a

theorem testBit_bitRun (a len c : Nat) : (bitRun a len).testBit c = decide (a ≤ c ∧ c < a + len) := by
  rw [bitRun, Nat.testBit_shiftLeft, Nat.testBit_two_pow_sub_one]
  by_cases h : a ≤ c
  · have : (c - a < len) = (c < a + len) := propext (by omega)
    simp [h, this]
  · simp [h]

/-- A run of bits where a condition holds, none elsewhere. -/
def runIf (p : Bool) (a len : Nat) : Nat := if p then bitRun a len else 0

theorem testBit_runIf (p : Bool) (a len c : Nat) : (runIf p a len).testBit c = (p && decide (a ≤ c ∧ c < a + len)) := by
  cases p <;> simp [runIf, testBit_bitRun]

/-- The cells of row `row` that the finder patterns and their separators cover, column `c` in bit `c`. -/
def finderMask (n row : Nat) : Nat := runIf (row ≤ 7) 0 8 ||| runIf (row ≤ 7) (n - 8) 8 ||| runIf (n - 8 ≤ row) 0 8

/-- The cells of row `row` that the timing patterns cover. -/
def timingMask (n row : Nat) : Nat := runIf (row == 6) 8 (n - 16) ||| runIf (8 ≤ row && row ≤ n - 9) 6 1

/-- The cell of row `row` that is the dark module. -/
def darkModuleMask (n row : Nat) : Nat := runIf (row == n - 8) 8 1

/-- The cells of row `row` that the format information covers. -/
def formatMask (n row : Nat) : Nat :=
  runIf (row ≤ 5 || row == 7 || row == 8 || n - 7 ≤ row) 8 1 ||| runIf (row == 8) 0 6 ||| runIf (row == 8) 7 1 |||
    runIf (row == 8) (n - 8) 8

/-- The cells of row `row` that the version information covers, from version 7 on. -/
def versionMask (v n row : Nat) : Nat :=
  runIf (7 ≤ v && n - 11 ≤ row && row ≤ n - 9) 0 6 ||| runIf (7 ≤ v && row ≤ 5) (n - 11) 3

/-- The cells of row `row` that the alignment patterns around some centres cover. -/
def alignMask (row : Nat) : List (Nat × Nat) → Nat
  | [] => 0
  | p :: ps => runIf (Nat.ble row (p.1 + 2) && Nat.ble p.1 (row + 2)) (p.2 - 2) 5 ||| alignMask row ps

theorem testBit_alignMask (row c : Nat) (ps : List (Nat × Nat)) (h : ∀ p ∈ ps, 2 ≤ p.2) :
    (alignMask row ps).testBit c = ps.any (fun p => decide (ringAround (row, c) p ≤ 2)) := by
  induction ps with
  | nil => simp [alignMask]
  | cons p ps ih =>
    have hp := h p List.mem_cons_self
    rw [alignMask, Nat.testBit_or, ih (fun q hq => h q (List.mem_cons_of_mem _ hq)), List.any_cons, testBit_runIf]
    congr 1
    rw [Bool.eq_iff_iff]
    simp only [ringAround, apart, Bool.and_eq_true, decide_eq_true_eq, Nat.ble_eq]
    split <;> split <;> omega

theorem isSome_orElse {α : Type} (a b : Option α) : (a <|> b).isSome = (a.isSome || b.isSome) := by
  cases a <;> simp

theorem testBit_finderMask {n row c : Nat} (hn : 21 ≤ n) (hr : row < n) (hc : c < n) :
    (finderMask n row).testBit c = (finderStamp n (row, c)).isSome := by
  rw [Bool.eq_iff_iff]
  simp only [finderMask, Nat.testBit_or, testBit_runIf, Bool.or_eq_true, Bool.and_eq_true, decide_eq_true_eq, finderStamp,
    Option.isSome_map, List.find?_isSome, finderCentres, List.mem_cons, List.not_mem_nil, or_false, ringAround]
  constructor
  · rintro ((h | h) | h)
    · exact ⟨(3, 3), by simp, by simp only [apart, decide_eq_true_eq]; split <;> split <;> omega⟩
    · exact ⟨(3, n - 4), by simp, by simp only [apart, decide_eq_true_eq]; split <;> split <;> omega⟩
    · exact ⟨(n - 4, 3), by simp, by simp only [apart, decide_eq_true_eq]; split <;> split <;> omega⟩
  · rintro ⟨p, rfl | rfl | rfl, h⟩ <;> simp only [apart, decide_eq_true_eq] at h <;> split at h <;> split at h <;> omega

theorem isSome_alignStamp (v row c : Nat) : (alignStamp v (row, c)).isSome =
    (alignCentres v).any (fun p => decide (ringAround (row, c) p ≤ 2)) := by
  simp only [alignStamp, Option.isSome_map]
  rw [Bool.eq_iff_iff, List.find?_isSome, List.any_eq_true]

theorem testBit_timingMask {n row c : Nat} (hn : 21 ≤ n) :
    (timingMask n row).testBit c = (timingStamp n (row, c)).isSome := by
  unfold timingStamp
  simp only
  rw [Bool.eq_iff_iff]
  simp only [timingMask, Nat.testBit_or, testBit_runIf, Bool.or_eq_true, Bool.and_eq_true, decide_eq_true_eq, beq_iff_eq]
  repeat' split
  all_goals first
    | (simp only [Option.isSome_some, iff_true]; omega)
    | (simp only [Option.isSome_none, Bool.false_eq_true, iff_false]; omega)

theorem testBit_darkModuleMask (n row c : Nat) :
    (darkModuleMask n row).testBit c = (darkModuleStamp n (row, c)).isSome := by
  rw [Bool.eq_iff_iff]
  simp only [darkModuleMask, darkModuleStamp, testBit_runIf, Bool.and_eq_true, decide_eq_true_eq, beq_iff_eq, Prod.mk.injEq]
  split
  · simp only [Option.isSome_some, iff_true]; omega
  · simp only [Option.isSome_none, Bool.false_eq_true, iff_false]; omega

theorem testBit_formatMask {n row c : Nat} (hn : 21 ≤ n) (hr : row < n) (hc : c < n) :
    (formatMask n row).testBit c = (formatStamp n (row, c)).isSome := by
  unfold formatStamp
  simp only
  rw [Bool.eq_iff_iff]
  simp only [formatMask, Nat.testBit_or, testBit_runIf, Bool.or_eq_true, Bool.and_eq_true, decide_eq_true_eq, beq_iff_eq]
  repeat' split
  all_goals first
    | (simp only [Option.isSome_some, iff_true]; omega)
    | (simp only [Option.isSome_none, Bool.false_eq_true, iff_false]; omega)

theorem testBit_versionMask {v n row c : Nat} (hn : 21 ≤ n) :
    (versionMask v n row).testBit c = (versionStamp v n (row, c)).isSome := by
  unfold versionStamp
  simp only
  rw [Bool.eq_iff_iff]
  simp only [versionMask, Nat.testBit_or, testBit_runIf, Bool.or_eq_true, Bool.and_eq_true, decide_eq_true_eq]
  repeat' split
  all_goals first
    | (simp only [Option.isSome_some, iff_true]; omega)
    | (simp only [Option.isSome_none, Bool.false_eq_true, iff_false]; omega)

/-- Every centre lies at least two cells in. -/
theorem alignCentres_ge : ∀ v : Fin 41, ∀ p ∈ alignCentres v.1, 2 ≤ p.2 := by decide +kernel

/-- The structural cells of row `row` of SKEL(v), the alignment centres given. -/
def rowMask (v n : Nat) (cs : List (Nat × Nat)) (row : Nat) : Nat :=
  finderMask n row ||| alignMask row cs ||| timingMask n row ||| darkModuleMask n row ||| formatMask n row |||
    versionMask v n row

theorem testBit_rowMask {v row c : Nat} (h1 : 1 ≤ v) (h2 : v ≤ 40) (hr : row < 4 * v + 17) (hc : c < 4 * v + 17) :
    (rowMask v (4 * v + 17) (alignCentres v) row).testBit c = (skelStamp v (row, c)).isSome := by
  have hn : 21 ≤ 4 * v + 17 := by omega
  unfold skelStamp rowMask
  simp only [Nat.testBit_or, isSome_orElse, testBit_finderMask hn hr hc, testBit_timingMask hn, testBit_darkModuleMask,
    testBit_formatMask hn hr hc, testBit_versionMask hn, isSome_alignStamp,
    testBit_alignMask _ _ _ (alignCentres_ge ⟨v, by omega⟩), Bool.or_assoc]

/-- The bits `0, 8, 16, ..., 8*(J-1)` of a number, counted. -/
def everyEighth : Nat → Nat → Nat
  | 0, _ => 0
  | J + 1, x => x % 2 + everyEighth J (x / 256)

/-- The number whose bits `0, 8, ..., 8*(J-1)` are 1. -/
def eighths : Nat → Nat
  | 0 => 0
  | J + 1 => 1 + 256 * eighths J

theorem and_eighths (J x : Nat) : x &&& eighths (J + 1) = x % 2 + 256 * (x / 256 &&& eighths J) := by
  have h1 : (x &&& eighths (J + 1)) / 2 ^ 8 = x / 256 &&& eighths J := by
    rw [Nat.and_div_two_pow]
    congr 1
    show (1 + 256 * eighths J) / 256 = _
    omega
  have h2 : (x &&& eighths (J + 1)) % 2 ^ 8 = x % 2 := by
    rw [Nat.and_mod_two_pow]
    have : eighths (J + 1) % 2 ^ 8 = 1 := by show (1 + 256 * eighths J) % 256 = 1; omega
    rw [this, Nat.and_one_is_mod]
    show x % 256 % 2 = x % 2
    omega
  have h3 := Nat.div_add_mod (x &&& eighths (J + 1)) (2 ^ 8)
  rw [h1, h2] at h3
  omega

theorem everyEighth_le (J x : Nat) : everyEighth J x ≤ J := by
  induction J generalizing x with
  | zero => exact Nat.le_refl _
  | succ J ih => have := ih (x / 256); rw [everyEighth]; omega

/-- Casting out 255. -/
theorem everyEighth_eq_mod {J : Nat} (hJ : J < 255) (x : Nat) : everyEighth J x = (x &&& eighths J) % 255 := by
  have h : ∀ J x, (x &&& eighths J) % 255 = everyEighth J x % 255 := by
    intro J
    induction J with
    | zero => intro x; simp [eighths, everyEighth]
    | succ J ih => intro x; rw [and_eighths, everyEighth]; have := ih (x / 256); omega
  rw [h, Nat.mod_eq_of_lt (by have := everyEighth_le J x; omega)]

theorem everyEighth_succ (J x : Nat) : everyEighth (J + 1) x = everyEighth J x + (x.testBit (8 * J)).toNat := by
  induction J generalizing x with
  | zero => simp [everyEighth, Nat.testBit_zero]; rcases Nat.mod_two_eq_zero_or_one x with h | h <;> simp [h]
  | succ J ih =>
    rw [everyEighth, ih, everyEighth]
    have : (x / 256).testBit (8 * J) = x.testBit (8 * (J + 1)) := by
      rw [show (256 : Nat) = 2 ^ 8 from rfl, Nat.testBit_div_two_pow]
      congr 1
    rw [this]; omega

/-- The 1 bits of a number below bit 184. -/
def oneBits (m : Nat) : Nat :=
  let e : Nat := 96156582956291065622484519350607635050587552764461313
  (m &&& e) % 255 + (m / 2 &&& e) % 255 + (m / 4 &&& e) % 255 + (m / 8 &&& e) % 255 + (m / 16 &&& e) % 255 +
    (m / 32 &&& e) % 255 + (m / 64 &&& e) % 255 + (m / 128 &&& e) % 255

theorem countP_testBit (m J : Nat) : (List.range (8 * J)).countP (fun c => m.testBit c) =
    everyEighth J m + everyEighth J (m / 2) + everyEighth J (m / 4) + everyEighth J (m / 8) + everyEighth J (m / 16) +
    everyEighth J (m / 32) + everyEighth J (m / 64) + everyEighth J (m / 128) := by
  induction J with
  | zero => rfl
  | succ J ih =>
    have h8 : List.range (8 * (J + 1)) = List.range (8 * J) ++ (List.range 8).map (8 * J + ·) := by
      rw [← List.range_add]; congr 1
    have hs : ∀ k, (m / 2 ^ k).testBit (8 * J) = m.testBit (8 * J + k) := by
      intro k; rw [Nat.testBit_div_two_pow]
    have h1 := hs 1; have h2 := hs 2; have h3 := hs 3; have h4 := hs 4; have h5 := hs 5; have h6 := hs 6; have h7 := hs 7
    simp only [Nat.reducePow] at h1 h2 h3 h4 h5 h6 h7
    rw [h8, List.countP_append, ih]
    simp only [everyEighth_succ, h1, h2, h3, h4, h5, h6, h7]
    have hl : List.range 8 = [0, 1, 2, 3, 4, 5, 6, 7] := rfl
    have hb : ∀ b : Bool, (if b = true then 1 else 0) = b.toNat := by decide
    rw [hl]
    simp only [List.map_cons, List.map_nil, List.countP_cons, List.countP_nil, hb, Nat.add_zero]
    omega

theorem countP_oneBits (m : Nat) : (List.range 184).countP (fun c => m.testBit c) = oneBits m := by
  have he : eighths 23 = 96156582956291065622484519350607635050587552764461313 := by decide
  have h := countP_testBit m 23
  simp only [everyEighth_eq_mod (by decide : 23 < 255), he] at h
  exact h

/-- The 0 bits of a number below bit `n`. -/
def zeroBits (m n : Nat) : Nat := n - oneBits (m % 2 ^ n)

theorem countP_zeroBits (m : Nat) {n : Nat} (hn : n ≤ 184) : (List.range n).countP (fun c => !m.testBit c) = zeroBits m n := by
  have h1 := countP_oneBits (m % 2 ^ n)
  have h2 : 184 = n + (184 - n) := by omega
  rw [h2, List.range_add, List.countP_append] at h1
  have h3 : ((List.range (184 - n)).map (n + ·)).countP (fun c => (m % 2 ^ n).testBit c) = 0 := by
    rw [List.countP_eq_zero]
    intro c hc
    obtain ⟨k, -, rfl⟩ := List.mem_map.1 hc
    have : ¬ n + k < n := by omega
    simp [Nat.testBit_mod_two_pow, this]
  have h4 : (List.range n).countP (fun c => (m % 2 ^ n).testBit c) = (List.range n).countP (fun c => m.testBit c) := by
    refine List.countP_congr (fun c hc => ?_)
    simp [Nat.testBit_mod_two_pow, List.mem_range.1 hc]
  have h5 := List.length_eq_countP_add_countP (fun c => m.testBit c) (l := List.range n)
  rw [List.length_range] at h5
  rw [h3, h4] at h1
  have h6 : (List.range n).countP (fun c => !m.testBit c) = (List.range n).countP (fun c => decide ¬(m.testBit c = true)) := by
    refine List.countP_congr (fun c _ => ?_)
    cases m.testBit c <;> simp
  unfold zeroBits
  omega

/-- The free cells of the first rows of SKEL(v). -/
def freeInRows (v n : Nat) (cs : List (Nat × Nat)) : Nat → Nat
  | 0 => 0
  | row + 1 => freeInRows v n cs row + zeroBits (rowMask v n cs row) n

theorem skelByte_rsv (v : Nat) (c : Nat × Nat) : (skelByte v c).getLsbD 1 = (skelStamp v c).isSome := by
  unfold skelByte; split <;> rename_i h <;> rw [h, cellByte_rsv] <;> rfl

/-- The number of free cells of SKEL(v), in a form that is quick to evaluate. -/
theorem skel_free_count {v : Nat} (h1 : 1 ≤ v) (h2 : v ≤ 40) :
    (squareCells (4 * v + 17)).countP (fun c => !(skelByte v c).getLsbD 1) =
      freeInRows v (4 * v + 17) (alignCentres v) (4 * v + 17) := by
  have hall : ∀ n, n = 4 * v + 17 → ∀ k, k ≤ n →
      ((List.range k).flatMap (fun r => (List.range n).map (fun c => (r, c)))).countP
        (fun c => !(skelByte v c).getLsbD 1) = freeInRows v n (alignCentres v) k := by
    intro n hn k
    induction k with
    | zero => intro _; rfl
    | succ k ih =>
      intro hk
      rw [List.range_succ, List.flatMap_append, List.countP_append, ih (by omega), freeInRows, ← countP_zeroBits _ (by omega)]
      simp only [List.flatMap_cons, List.flatMap_nil, List.append_nil, List.countP_map]
      congr 1
      refine List.countP_congr (fun c hc => ?_)
      have hc := List.mem_range.1 hc
      subst hn
      simp only [Function.comp_apply, skelByte_rsv, testBit_rowMask h1 h2 (by omega : k < 4 * v + 17) hc]
  exact hall _ rfl _ (Nat.le_refl _)

end Sys2Proof.Machine
end

