-- ==== Sys2Proof/Tests/Slice0.lean ====
section
/-! SUPPORT. The model's own tests. Expected results are the vectors of spec/95_test_vectors.md, named with each test, or
words written out from the encodings of 30_encoding.md. The second half shows, for every obligation with hypotheses, a
state and operands that meet them. -/

namespace Sys2Proof.Tests

open Sys2Proof.Machine

set_option Elab.async false

/-! ### Helpers -/

/-- A list of bytes as the cells of a memory from an index up. -/
def cellsAt (i : Nat) (l : List Byte) : List Host.Cell := l.zipIdx.map (fun p => (i + p.2, p.1))

/-- A state in IDLE with a version, a text length and memories. -/
def idleState (ver : BitVec 6) (tlen : BitVec 16) (M : Memory) : State :=
  { State.reset with ver := ver, tlen := tlen, mem := M }

/-- The outcome is a next state with a property. -/
def goesTo (o : Host.Outcome State Fault Refusal) (p : State → Bool) : Bool :=
  match o with
  | .next t => p t
  | .fault _ => false
  | .refused _ => false

/-- A word spells this command. -/
def decodesTo (w : Word) (i : Instr) : Bool := (decode w).toOption == some i

/-- The word is illegal for this reason. -/
def illegalFor (w : Word) (r : Illegal) : Bool :=
  match decode w with
  | .ok _ => false
  | .error q => q == r

/-- "HELLO WORLD". -/
def hello : List Byte := [0x48, 0x45, 0x4C, 0x4C, 0x4F, 0x20, 0x57, 0x4F, 0x52, 0x4C, 0x44]

/-- V8. -/
def helloMsg : List Byte := [0x40, 0xB4, 0x84, 0x54, 0xC4, 0xC4, 0xF2, 0x05, 0x74, 0xF5, 0x24, 0xC4, 0x40]

/-- V19a. -/
def helloEcb : List Byte := [0x2B, 0xF5, 0x24, 0x27, 0xAB, 0xC6, 0x18, 0xB9, 0xC4, 0x29, 0x54, 0xC5, 0x9F]

/-- The state just before ENCODE in program P1, with the memories the host loaded. -/
def p1State : State := idleState 1 11 { Memory.empty with text := cellsAt 0 hello, mat := skelCells 1 }

/-- A state before PLACE at version 1: SKEL(1) and a stream of 26 equal bytes. -/
def placeState (b : Byte) : State :=
  idleState 1 0 { Memory.empty with stream := cellsAt 0 (List.replicate 26 b), mat := skelCells 1 }

/-- V35: SKEL(1) with the cell (9, 0) made reserved. -/
def v35State : State := idleState 1 0 ({ Memory.empty with mat := skelCells 1 }.put .mat 2304 0x02)

/-- The row of version 1. -/
def v1 : VersionRow := ⟨1, 13, 1, 13, 0, 0, 0⟩

/-- A cell of a dark plane written as one binary number per row, column 0 first. -/
def pictured (rows : List Nat) (n : Nat) (c : Nat × Nat) : Bool := (rows.getD c.1 0).testBit (n - 1 - c.2)

/-- The walk writes these bytes to the free cells of SKEL(1) in the order it visits them. -/
def drawn (rows : List Nat) (bytes : List Byte) : Bool :=
  (walkCells 1).zipIdx.all (fun p =>
    xor (bytes.getD (p.2 / 8) 0 |>.getLsbD (7 - p.2 % 8)) (p.1.1 % 2 == 0) == pictured rows 21 p.1)

theorem free_v1 : (squareCells 21).countP (fun c => !(skelByte 1 c).getLsbD 1) = 208 := by decide +kernel

theorem walkCells_v1_nodup : ((route 21).map (fun c => cellIndex c.1 c.2)).Nodup :=
  route_cellIndex_nodup (by decide) (route_nodup (by decide))

theorem walkCells_v1_length : (walkCells 1).length = 208 := by decide +kernel

theorem v1_free {s : State} (h : s.mem.mat = skelCells 1) : s.freeCount 21 = 208 :=
  (freeCount_skel (v := 1) (by decide) h).trans free_v1

/-- 207 free cells. -/
theorem v35_free : v35State.freeCount 21 = 207 := by
  have h1 : (squareCells 21).countP (fun c => !(skelByte 1 c).getLsbD 1 && c != (9, 0)) = 207 := by decide +kernel
  rw [← h1]
  refine List.countP_congr ?_
  rintro ⟨a, b⟩ hc
  have hlt := (mem_squareCells 21 a b).1 hc
  have h0 : State.rsv (idleState 1 0 { Memory.empty with mat := skelCells 1 }) a b = (skelByte 1 (a, b)).getLsbD 1 :=
    rsv_skel (v := 1) (by decide) rfl hlt.1 hlt.2
  have h2 : v35State.rsv a b = if a = 9 ∧ b = 0 then true else (skelByte 1 (a, b)).getLsbD 1 := by
    rw [← h0]
    simp only [State.rsv, v35State, State.elem, idleState, Memory.elem_put, true_and]
    by_cases h : a = 9 ∧ b = 0
    · rw [if_pos h, if_pos (by rw [h.1, h.2]; rfl)]; rfl
    · rw [if_neg h, if_neg (by unfold cellIndex; omega)]
  rw [h2]
  by_cases h : a = 9 ∧ b = 0
  · simp [h]
  · have : ((a, b) != (9, 0)) = true := by simpa [Prod.ext_iff] using h
    simp [h, this]

/-- What PLACE at version 1 leaves in the cells of SKEL(1): the picture, if the bytes of the stream draw it. -/
theorem placed_picture {s : State} (h : s.mem.mat = skelCells 1) (hv : s.row = some v1) (hm : s.mask = 1)
    {bytes : List Byte} (hb : ∀ k, k < 26 → s.elem .stream k = bytes.getD k 0) {rows : List Nat}
    (hd : drawn rows bytes = true) :
    ∃ M, placeBody s = .ended M ∧ (∀ m, m ≠ .mat → M.cells m = s.mem.cells m) ∧
      ∀ c ∈ walkCells 1, (s.setMem M).dark c.1 c.2 = pictured rows 21 c := by
  have hw := walked 26 (route 21) walkCells_v1_nodup s 0
  have hf : s.freeOf (route 21) = walkCells 1 := freeOf_skel (v := 1) (by decide) h
  refine ⟨(placeWalk s v1).1.mem, ?_, hw.others, ?_⟩
  · have h1 : ¬ s.mask.toNat ≠ maskSel := by rw [hm]; decide
    have h2 : ¬ s.freeCount v1.side ≠ v1.budget := by
      have := v1_free h
      exact fun hn => hn this
    rw [placeBody, withVersion_some hv, if_neg h1, if_neg h2]
  · intro c hc
    obtain ⟨q, hq, hq2⟩ := List.getElem_of_mem hc
    have hq3 : (s.freeOf (route 21))[q]? = some c := by rw [hf, List.getElem?_eq_getElem hq, hq2]
    have hg := hw.written q c hq3
    have hlt : q < 208 := by rw [walkCells_v1_length] at hq; exact hq
    have hp : payloadBit s 26 (0 + q) = (bytes.getD (q / 8) 0).getLsbD (7 - q % 8) := by
      rw [Nat.zero_add, payloadBit, if_pos (by omega), State.streamBit, State.streamAt, hb _ (by omega)]
    have hd := List.all_eq_true.1 hd (c, q) (by
      rw [List.mem_zipIdx_iff_getElem?, List.getElem?_eq_getElem hq, hq2])
    have he : (s.setMem (placeWalk s v1).1.mem).elem .mat (cellIndex c.1 c.2) = placedByte s 26 (0 + q) c.1 := by
      rw [State.elem_setMem, Memory.elem_eq]
      show (Memory.get? ((route 21).foldl (placeCell 26) (s, 0)).1.mem .mat (cellIndex c.1 c.2)).getD _ = _
      rw [hg]; rfl
    rw [State.dark, he, placedByte, cellByte_dark, hp]
    exact eq_of_beq hd

/-- A state that runs a long command. -/
def running (w : Word) (s : State) : State := s.accept w

/-- A state that has faulted. -/
def faultedState : State := State.reset.takeFault .illegalCommand 0x00000007

/-- The invariant with the printed configuration and `rst` released. -/
theorem inv_of {s : State} (h : s.seqAgrees = true ∧ s.faultAgrees = true ∧ s.doneAgrees = true ∧ s.mem.wf = true)
    (hc : s.config = cfg := by rfl) (hr : s.rst = false := by rfl) : s.Inv :=
  ⟨h.1, h.2.1, h.2.2.1, h.2.2.2, hc ▸ cfg_wf, fun hr' => by rw [hr] at hr'; cases hr'⟩

/-! ### Well-formedness -/

theorem test_wf_rsdiv_e_too_large : (Instr.rsdiv 32 0).wellFormed = false := by decide
theorem test_wf_rsdiv_blk_too_large : (Instr.rsdiv 0 128).wellFormed = false := by decide
theorem test_wf_rsdiv_largest : (Instr.rsdiv 31 127).wellFormed = true := by decide

/-! ### Decoding, words written out from 30_encoding.md R71, R73 -/

theorem test_decode_nop : decodesTo 0b00000000000000000000000000000000 .nop = true := by decide
theorem test_decode_fmt : decodesTo 0b00000000000000000000000000000001 .fmt = true := by decide
theorem test_decode_rsdiv : decodesTo 0b00000000000000110000101000000010 (.rsdiv 10 3) = true := by decide
theorem test_decode_rsdiv_e_bits : decodesTo 0b00000000000000000001000100000010 (.rsdiv 17 0) = true := by decide
theorem test_decode_rsdiv_blk_bits : decodesTo 0b00000000010000010000000000000010 (.rsdiv 0 65) = true := by decide
theorem test_decode_rsenc : decodesTo 0b00000000000000000000000000000011 .rsenc = true := by decide
theorem test_decode_ilv : decodesTo 0b00000000000000000000000000000100 .ilv = true := by decide
theorem test_decode_place : decodesTo 0b00000000000000000000000000000101 .place = true := by decide
theorem test_decode_encode : decodesTo 0b00000000000000000000000000000110 .encode = true := by decide
theorem test_decode_clrerr : decodesTo 0b00000000000000000000000000001110 .clrerr = true := by decide
theorem test_decode_srst : decodesTo 0b00000000000000000000000000001111 .srst = true := by decide
theorem test_decode_bit23 : illegalFor 0b00000000100000000000011100000010 (.mustBeZero 2) = true := by decide
theorem test_decode_bit13 : illegalFor 0b00000000000000000010011100000010 (.mustBeZero 2) = true := by decide
theorem test_decode_reserved_low : illegalFor 0x00000007 (.reservedOpcode 7) = true := by decide
theorem test_decode_reserved_high : illegalFor 0xFFFFFFFF (.reservedOpcode 255) = true := by decide
theorem test_decode_fmt_bit8 : illegalFor 0x00000101 (.mustBeZero 1) = true := by decide
theorem test_table_word : decodeTableWord 32 0x00030A02 = some (.rsdiv 10 3) := by decide
theorem test_table_word_short : decodeTableWord 8 0x06 = some .encode := by decide
theorem test_table_word_illegal : decodeTableWord 32 0x00000007 = none := by decide

/-! ### Running the first command after reset -/

theorem test_fetch_long : step (State.reset.withFetchWord 32 0x00000001) =
    exec .fmt (State.reset.accept 0x00000001) := rfl
theorem test_fetch_immediate : step (State.reset.withFetchWord 32 0x0000000F) = exec .srst State.reset := rfl
theorem test_fetch_rsdiv : goesTo (step (State.reset.withFetchWord 32 0x00000902))
    (fun t => t.errcode == 6 && t.errinfo == 0x00000902 && t.seq == .faulted) = true := by decide +kernel

/-! ### The commands -/

/-- V55. -/
theorem test_nop_done : goesTo (exec .nop State.reset) (fun t => t.status == 0x2) = true := by decide

/-- V57. -/
theorem test_clrerr_idle : goesTo (exec .clrerr State.reset) (fun t => t.status == 0x2) = true := by decide

/-- V51: the fault is cleared and HZD stays. -/
theorem test_clrerr_faulted : goesTo (exec .clrerr faultedState.setHzd)
    (fun t => t.status == 0xA && t.errcode == 0 && t.errinfo == 0 && t.seq == .idle) = true := by decide

/-- V56. -/
theorem test_srst : goesTo (exec .srst { State.reset with ver := 5, tlen := 9, mask := 3, ie := 3, done := true, hzd := true })
    (fun t => t == State.reset) = true := by decide +kernel

/-- V8: exactly at capacity, no pad byte. -/
theorem test_fmt_full : goesTo (exec .fmt p1State) (fun t => t.slice .msg 0 13 == helloMsg && t.status == 0x2) = true := by
  decide +kernel

/-- V7: the last payload byte has a zero low nibble whatever `TEXT[2]` holds. -/
theorem test_fmt_last_nibble :
    goesTo (exec .fmt (idleState 1 2 { Memory.empty with text := cellsAt 0 [0xFF, 0xFF, 0xFF] }))
      (fun t => t.slice .msg 0 13 ==
        [0x40, 0x2F, 0xFF, 0xF0, 0xEC, 0x11, 0xEC, 0x11, 0xEC, 0x11, 0xEC, 0x11, 0xEC]) = true := by decide +kernel

/-- V10, P2: the published vector. -/
theorem test_rsdiv_published :
    goesTo (exec (.rsdiv 10 3) { State.reset with
        rsrc := 100, rlen := 16, mem := { Memory.empty with msg := cellsAt 100 [
          0x20, 0x5B, 0x0B, 0x78, 0xD1, 0x72, 0xDC, 0x4D, 0x43, 0x40, 0xEC, 0x11, 0xEC, 0x11, 0xEC, 0x11] } })
      (fun t => t.slice .ecb 96 10 == [0xC4, 0x23, 0x27, 0x77, 0xEB, 0xD7, 0xE7, 0xE2, 0x5D, 0x17] && t.status == 0x2) =
    true := by decide +kernel

/-- V17: a block shorter than the generator. -/
theorem test_rsdiv_short :
    goesTo (exec (.rsdiv 7 127) { State.reset with
        rsrc := 2046, rlen := 2, mem := { Memory.empty with msg := cellsAt 2046 [0x12, 0x34] } })
      (fun t => t.slice .ecb 4064 7 == [0x4A, 0xE1, 0x1A, 0x00, 0x68, 0x0F, 0xF0]) = true := by decide +kernel

/-- V19a. -/
theorem test_rsenc_v1 : goesTo (exec .rsenc (idleState 1 0 { Memory.empty with msg := cellsAt 0 helloMsg }))
    (fun t => t.slice .ecb 0 13 == helloEcb && t.mem.ecb.length == 13) = true := by decide +kernel

/-- The start of V21: `MSG[i] = i` and `ECB[b*32+i] = 0x80 + 0x20*b + i`. -/
def v21State : State :=
  idleState 5 0 { Memory.empty with
    msg := cellsAt 0 ((List.range 62).map (BitVec.ofNat 8)),
    ecb := (List.range 4).flatMap (fun b => (List.range 18).map (fun i => (b * 32 + i, BitVec.ofNat 8 (0x80 + 0x20 * b + i)))) }

/-- V21: two groups; the corner is at `STREAM[60..61]`. -/
theorem test_ilv_groups : goesTo (exec .ilv v21State)
    (fun t => t.slice .stream 0 8 == [0x00, 0x0F, 0x1E, 0x2E, 0x01, 0x10, 0x1F, 0x2F] &&
      t.slice .stream 56 12 == [0x0E, 0x1D, 0x2C, 0x3C, 0x2D, 0x3D, 0x80, 0xA0, 0xC0, 0xE0, 0x81, 0xA1] &&
      t.slice .stream 130 4 == [0x91, 0xB1, 0xD1, 0xF1] && t.mem.stream.length == 134) = true := by decide +kernel

/-- V30, row 0 first. -/
def v30Rows : List Nat := [
    0b111111100111101111111, 0b100000100000001000001, 0b101110100111101011101, 0b101110101000001011101,
    0b101110100111101011101, 0b100000101000001000001, 0b111111101010101111111, 0b000000001000000000000,
    0b011000100111101101000, 0b000000000000000000000, 0b111111111111111111111, 0b000000000000000000000,
    0b111111111111111111111, 0b000000001000000000000, 0b111111100111111111111, 0b100000100000000000000,
    0b101110100111111111111, 0b101110100000000000000, 0b101110101111111111111, 0b100000101000000000000,
    0b111111100111111111111 ]

/-- V31. -/
def v31Rows : List Nat := [
    0b111111100000001111111, 0b100000100111101000001, 0b101110100000001011101, 0b101110101111101011101,
    0b101110100000001011101, 0b100000101111101000001, 0b111111101010101111111, 0b000000001111100000000,
    0b011000100000001101000, 0b111111011111111111111, 0b000000100000000000000, 0b111111011111111111111,
    0b000000100000000000000, 0b000000001111111111111, 0b111111100000000000000, 0b100000100111111111111,
    0b101110100000000000000, 0b101110100111111111111, 0b101110101000000000000, 0b100000101111111111111,
    0b111111100000000000000 ]

/-- P1. -/
def p1Rows : List Nat := [
    0b111111100100001111111, 0b100000100011001000001, 0b101110100101001011101, 0b101110101110001011101,
    0b101110100001101011101, 0b100000101001001000001, 0b111111101010101111111, 0b000000001100100000000,
    0b011000100101101101000, 0b011010010001011001000, 0b010101110010100010101, 0b110010001011110111000,
    0b000011111110001011110, 0b000000001011100101100, 0b111111100001010011101, 0b100000100010110001011,
    0b101110100011111111110, 0b101110100110011011100, 0b101110101111111111111, 0b100000101100010111000,
    0b111111100110111001101 ]

/-- Every stamped cell of SKEL(1) is as P1 pictures it. -/
theorem test_skeleton_p1 : (squareCells 21).all (fun c => !(skelByte 1 c).getLsbD 1 ||
    (skelByte 1 c).getLsbD 0 == pictured p1Rows 21 c) = true := by decide +kernel

/-- V30: an all-zero stream shows the mask. -/
theorem test_place_zeros : ∃ t, exec .place (placeState 0x00) = .next t ∧
    ∀ c ∈ walkCells 1, t.dark c.1 c.2 = pictured v30Rows 21 c := by
  obtain ⟨M, h1, -, h2⟩ := placed_picture (s := placeState 0x00) rfl (by decide +kernel) rfl
    (bytes := List.replicate 26 0x00) (by decide +kernel) (rows := v30Rows) (by decide +kernel)
  exact ⟨_, exec_long rfl _, by simp only [ranOf, h1]; exact h2⟩

/-- V31: an all-one stream. -/
theorem test_place_ones : ∃ t, exec .place (placeState 0xFF) = .next t ∧
    ∀ c ∈ walkCells 1, t.dark c.1 c.2 = pictured v31Rows 21 c := by
  obtain ⟨M, h1, -, h2⟩ := placed_picture (s := placeState 0xFF) rfl (by decide +kernel) rfl
    (bytes := List.replicate 26 0xFF) (by decide +kernel) (rows := v31Rows) (by decide +kernel)
  exact ⟨_, exec_long rfl _, by simp only [ranOf, h1]; exact h2⟩

/-- The first three stages of P1: MSG, ECB and STREAM. -/
theorem p1_stages : (p1State.setMem (afterIlv p1State v1)).slice .stream 0 26 = helloMsg ++ helloEcb ∧
    (p1State.setMem (afterIlv p1State v1)).slice .ecb 0 13 = helloEcb ∧
    (p1State.setMem (afterIlv p1State v1)).slice .msg 0 13 = helloMsg ∧
    ∀ k, k < 26 → (p1State.setMem (afterIlv p1State v1)).elem .stream k = (helloMsg ++ helloEcb).getD k 0 := by
  decide +kernel

theorem p1_mask : (p1State.setMem (afterIlv p1State v1)).mask = 1 := by
  rw [State.setMem_mask]; rfl

/-- P1: the whole pipeline; the stream and the dark plane. -/
theorem test_encode_p1 : ∃ t, exec .encode p1State = .next t ∧ t.slice .stream 0 26 = helloMsg ++ helloEcb ∧
    ∀ c ∈ walkCells 1, t.dark c.1 c.2 = pictured p1Rows 21 c := by
  have hr : p1State.row = some v1 := by decide +kernel
  obtain ⟨M, h1, h3, h2⟩ := placed_picture (s := p1State.setMem (afterIlv p1State v1)) (afterIlv_mat p1State v1)
    ((State.setMem_row _ _).trans hr) p1_mask
    (bytes := helloMsg ++ helloEcb) p1_stages.2.2.2 (rows := p1Rows) (by decide +kernel)
  refine ⟨_, exec_long rfl _, ?_, ?_⟩
  · simp only [ranOf, encodeBody_ok hr (by decide : p1State.tlen.toNat ≤ 255) (by decide), h1]
    refine Eq.trans (List.map_congr_left (fun j _ => ?_)) p1_stages.1
    exact State.elem_eq_of_cells (s := p1State.setMem (afterIlv p1State v1)) (t := p1State.complete M) rfl
      (h3 .stream (by decide)) _
  · simp only [ranOf, encodeBody_ok hr (by decide : p1State.tlen.toNat ≤ 255) (by decide), h1]
    exact h2

/-- V60: a late fault of ENCODE. -/
theorem test_encode_late_fault : goesTo (exec .encode { p1State with mask := 2 })
    (fun t => t.errcode == 7 && t.errinfo == 2 && t.slice .stream 0 26 == helloMsg ++ helloEcb) = true := by
  decide +kernel

/-! ### Faults and the host port -/

/-- V9. -/
theorem test_fault_capacity : goesTo (exec .fmt (idleState 1 12 Memory.empty))
    (fun t => t.status == 0x4 && t.errcode == 1 && t.errinfo == 0x000D000C && t.mem == Memory.empty) = true := by
  decide +kernel

/-- V9: the 8-bit count cannot hold 256. -/
theorem test_fault_capacity_count : goesTo (exec .fmt (idleState 40 256 Memory.empty))
    (fun t => t.errcode == 1 && t.errinfo == 0x06820100) = true := by decide +kernel

/-- V9b. -/
theorem test_fault_version : goesTo (exec .fmt (idleState 41 0 Memory.empty))
    (fun t => t.errcode == 2 && t.errinfo == 0x00000029) = true := by decide +kernel

/-- V35: one free cell too few. -/
theorem test_fault_geometry : ∃ t, exec .place v35State = .next t ∧ t.errcode = 8 ∧ t.errinfo = 0x00D000CF ∧
    t.status = 0x4 ∧ t.mem = v35State.mem := by
  have hr : v35State.row = some v1 := by decide +kernel
  have h2 : v35State.freeCount v1.side ≠ v1.budget := by
    have := v35_free
    intro hn
    exact absurd (this.symm.trans hn) (by decide)
  have h : placeBody v35State = .raised v35State.mem .geometryMismatch 0x00D000CF := by
    rw [placeBody, withVersion_some hr, if_neg (by decide), if_pos h2]
    show Ran.raised _ _ (infoPair 208 (v35State.freeCount 21)) = _
    rw [v35_free]; rfl
  exact ⟨_, exec_long rfl _, by simp only [ranOf, h]; exact ⟨rfl, rfl, rfl, rfl⟩⟩

/-- V50: an illegal word. -/
theorem test_fault_illegal : goesTo (step (State.reset.withInputs [.write cmdIndex 0x00000101]))
    (fun t => t.status == 0x4 && t.errcode == 5 && t.errinfo == 0x00000101) = true := by decide

/-- V52: a write to VER while BUSY = 1. -/
theorem test_port_busy_write : goesTo (hostWrite (running 0x00000001 State.reset) 0x6 5)
    (fun t => t.ver == 0 && t.hzd) = true := by decide

/-- V52: a read of a memory while BUSY = 1. -/
theorem test_port_busy_read : hostReadValue (running 0x00000001 State.reset) 0x00800 = 0 ∧
    (hostReadEffect (running 0x00000001 State.reset) 0x00800).hzd = true := by decide

/-- V58: a cell of MAT has two bits. -/
theorem test_port_cell_width : goesTo (hostWrite State.reset 0x10000 0xF) (fun t => hostReadValue t 0x10000 == 0x3) = true := by
  decide

/-- The last cell of MAT, row and column 176 (20_memory.md R41). -/
theorem test_port_last_cell : target 0x1B0B0 = .elem .mat 45232 ∧ target 0x1B0B1 = .reserved := by decide

/-- V1. -/
theorem test_gfmul : gfmul cfg 255 255 = 226 ∧ gfmul cfg 100 200 = 79 ∧ gfmul cfg 128 2 = 29 ∧ gfmul cfg 0 7 = 0 := by decide +kernel

/-- V37: the first cells and the length of the walk at version 1 (V32). -/
theorem test_route_start : (route 21).take 8 =
    [(20, 20), (20, 19), (19, 20), (19, 19), (18, 20), (18, 19), (17, 20), (17, 19)] ∧
    (strips 21 20 true).length = 10 := by decide +kernel

/-! ### Witnesses: a state and operands that meet the hypotheses of each obligation -/

theorem witness_DecodeOfEncode : (Instr.rsdiv 31 127).wellFormed = true := by decide

theorem witness_EncodeOfDecode : decode 0x007F1E02 = .ok (.rsdiv 30 127) := rfl

theorem witness_IllegalWordsByReason :
    [0x07, 0x0D, 0x10, 0xFF].all (fun op => illegalFor (BitVec.ofNat 32 op) (.reservedOpcode op)) = true ∧
    [0x00, 0x06, 0x0E, 0x0F].all (fun op => illegalFor (BitVec.ofNat 32 (0x100 + op)) (.mustBeZero op)) = true ∧
    illegalFor 0x80000002 (.mustBeZero 2) = true ∧ decodesTo 0x00001F02 (.rsdiv 31 0) = true := by decide

theorem witness_StepRunsTheDecodedCommand :
    decode 0x00000001 = .ok .fmt ∧ Instr.isLong .fmt = true ∧ (running 0x00000001 State.reset).seq = .run 0x00000001 ∧
    (running 0x00000001 State.reset).busy = true ∧ (running 0x00000001 State.reset).rst = false ∧
    (running 0x00000001 State.reset).inputs = [] ∧
    ((running 0x00000001 State.reset).withInputs [.engine]).inputs = [.engine] ∧
    ((running 0x00000001 State.reset).withInputs [.wait]).inputs = [.wait] ∧
    decode 0x00000000 = .ok .nop ∧ Instr.isLong .nop = false ∧ State.reset.busy = false ∧ State.reset.err = false ∧
    State.reset.rst = false ∧
    (State.reset.withInputs [.write cmdIndex 0x00000000]).inputs = .write cmdIndex 0x00000000 :: [] :=
  ⟨rfl, rfl, rfl, rfl, rfl, rfl, rfl, rfl, rfl, rfl, rfl, rfl, rfl, rfl⟩

/-- One state for each of the seven clauses of the dispatch: BUSY; faulted with CLRERR, SRST, another word; idle with an
immediate, a long and an illegal word. -/
theorem witness_CommandWordDispatch :
    (running 0x00000001 State.reset).busy = true ∧ faultedState.busy = false ∧ faultedState.err = true ∧
    (0x00000001 : Word) ≠ 0x0000000E ∧ (0x00000001 : Word) ≠ 0x0000000F ∧ State.reset.busy = false ∧
    (running 0x00000001 State.reset).rst = false ∧ faultedState.rst = false ∧ State.reset.rst = false ∧
    State.reset.err = false ∧ decode 0x0000000F = .ok .srst ∧ Instr.isLong .srst = false ∧
    decode 0x00000006 = .ok .encode ∧ Instr.isLong .encode = true ∧ decode 0x00000007 = .error (.reservedOpcode 7) ∧
    (State.reset.withInputs [.write cmdIndex 7]).inputs = .write cmdIndex 7 :: [] :=
  ⟨rfl, rfl, rfl, by decide, by decide, rfl, rfl, rfl, rfl, rfl, rfl, rfl, rfl, rfl, rfl, rfl⟩

theorem witness_AcceptanceChangesNothingElse :
    (Instr.rsdiv 31 127).wellFormed = true ∧ (Instr.rsdiv 31 127).isLong = true ∧ State.reset.rst = false ∧
    State.reset.busy = false ∧ State.reset.err = false ∧ (State.reset.withInputs [.write cmdIndex (encode (.rsdiv 31 127))]).inputs =
      .write cmdIndex (encode (.rsdiv 31 127)) :: [] := ⟨rfl, rfl, rfl, rfl, rfl, rfl⟩

theorem witness_IllegalWordFaultsAtTheWrite :
    State.reset.rst = false ∧ State.reset.busy = false ∧ State.reset.err = false ∧ opcodeMap.all (fun r => !r.spells 0x00800702) = true := by decide

theorem witness_immediate_commands :
    (State.reset.withInputs [.write cmdIndex 0x0000000E]).inputs = .write cmdIndex 0x0000000E :: [] ∧
    State.reset.rst = false ∧ State.reset.busy = false ∧ State.reset.err = false ∧ faultedState.err = true ∧
    faultedState.rst = false ∧ (running 0x00000001 State.reset).busy = true ∧
    (running 0x00000001 State.reset).rst = false := ⟨rfl, rfl, rfl, rfl, rfl, rfl, rfl, rfl⟩

theorem witness_StatusReadsAndClears :
    (State.reset.withInputs [.read 0x2]).inputs = .read 0x2 :: [] ∧
    (State.reset.withInputs [.write 0x2 0xA]).inputs = .write 0x2 0xA :: [] ∧ (0xA : Word).getLsbD 1 = true ∧
    (0xA : Word).getLsbD 3 = true ∧ State.reset.rst = false := ⟨rfl, rfl, by decide, by decide, rfl⟩

theorem witness_RegisterReads : (0xF : Index).toNat < 0x10 := by decide

theorem witness_InformationRegisters :
    (idleState 1 0 Memory.empty).row.isSome = true ∧ (idleState 40 0 Memory.empty).row.isSome = true ∧
    1 ∈ cfg.vset ∧ 40 ∈ cfg.vset ∧ 0 ∉ cfg.vset ∧ 41 ∉ cfg.vset ∧
    State.reset.ver = 0 ∧ 41 ≤ (idleState 41 0 Memory.empty).ver.toNat ∧ 41 ≤ (idleState 63 0 Memory.empty).ver.toNat := by
  decide

theorem witness_RegisterWriteReadsBack :
    State.reset.busy = false ∧ (running 0x00000001 State.reset).busy = true ∧
    [(0x5, 0x3), (0x6, 0x3F), (0x7, 0xFFFF), (0x8, 0x7), (0x9, 0x7FF), (0xA, 0xFFF)].all
      (fun p => goesTo (hostWrite State.reset p.1 0xFFFFFFFF) (fun t => hostReadValue t p.1 == p.2)) = true := by decide

theorem witness_ElementReadAfterWrite :
    State.reset.busy = false ∧ target 0x00100 = .elem .text 0 ∧ target 0x001FF = .elem .text 255 ∧
    target 0x00FFF = .elem .msg 2047 ∧ target 0x01FFF = .elem .ecb 4095 ∧ target 0x02FFF = .elem .stream 4095 ∧
    target 0x10000 = .elem .mat 0 ∧ target 0x1B0B0 = .elem .mat 45232 := by decide

theorem witness_AccessesWhileBusy :
    (running 0x00000001 State.reset).busy = true ∧ (running 0x00000001 State.reset).rst = false ∧
    target 0x00100 = .elem .text 0 ∧ target 0x2 = .reg .status ∧
    target 0xD = .reg .side := by decide

theorem witness_ReservedIndices :
    ([0xE, 0xF, 0x10, 0xFF, 0x200, 0x7FF, 0x3000, 0xFFFF, 0x100B1, 0x1B100, 0x1FFFF] : List Index).all
      (fun a => target a == .reserved) = true ∧
    ([0xD, 0x100, 0x1FF, 0x800, 0x2FFF, 0x10000, 0x1B0B0] : List Index).all (fun a => target a != .reserved) = true ∧
    State.reset.rst = false := by
  decide

theorem witness_HardResetFromAnyState :
    ((running 0x00000001 State.reset).withInputs [.assertReset]).inputs = .assertReset :: [] ∧
    (running 0x00000001 State.reset).seq = .run 0x00000001 ∧ decode 0x00000001 = .ok .fmt ∧
    ¬ MayWrite (running 0x00000001 State.reset) .fmt .text 0 ∧ State.reset.seq = .idle ∧ faultedState.seq = .faulted := by
  refine ⟨rfl, rfl, rfl, ?_, rfl, rfl⟩
  rintro ⟨r, -, h, -⟩
  cases h

/-- For the power-up clause of ResetValues. -/
theorem witness_ResetValues : (faultedState.withInputs [.powerUp]).inputs = .powerUp :: [] := rfl

/-- A state in which `rst` is asserted. -/
def heldState : State := assertReset (idleState 5 9 Memory.empty)

/-- 70_reset_and_hazards.md R240: the registers take their reset values and a write has no effect. -/
theorem test_reset_held : goesTo (step (heldState.withInputs [.write 0x6 5, .read 0x6]))
    (fun t => t.rst && t.ver == 0 && t.mask == 1 && t.inputs == [.read 0x6]) = true := by decide

/-- The same for a command word; after the release the next write is performed. -/
theorem test_reset_released : goesTo (step (heldState.withInputs [.write cmdIndex 0x00000000])) (fun t => !t.done) = true ∧
    goesTo (step (heldState.withInputs [.releaseReset])) (fun t =>
      goesTo (step (t.withInputs [.write 0x6 5])) (fun u => u.ver == 5)) = true := by decide

theorem witness_TransfersWhileResetIsAsserted :
    heldState.rst = true ∧ (heldState.withInputs [.write 0x6 5]).inputs = .write 0x6 5 :: [] ∧
    (heldState.withInputs [.read 0x6]).inputs = .read 0x6 :: [] ∧ (heldState.withInputs [.wait]).inputs = .wait :: [] ∧
    (heldState.withInputs [.releaseReset]).inputs = .releaseReset :: [] ∧
    (heldState.withInputs [.engine]).inputs = .engine :: [] ∧ heldState.inputs = [] ∧ heldState.Inv :=
  ⟨rfl, rfl, rfl, rfl, rfl, rfl, rfl, rfl, rfl, rfl, rfl, cfg_wf, fun _ =>
    ⟨rfl, rfl, rfl, rfl, rfl, rfl, rfl, rfl, rfl, rfl, rfl, rfl, rfl⟩⟩

theorem inv_reset : State.reset.Inv := inv_of (by decide)

theorem inv_running : (running 0x00000001 State.reset).Inv := inv_of (by decide)

theorem inv_faulted : faultedState.Inv := inv_of (by decide)

/-- For StepKeepsTheInvariant and NothingIsStuck: a state of the invariant whose step runs a command. -/
theorem witness_StepKeepsTheInvariant :
    (running 0x00000001 State.reset).Inv ∧ ∃ t, step (running 0x00000001 State.reset) = .next t :=
  ⟨inv_running, _, rfl⟩

/-- One step for each of the five transitions. -/
theorem witness_SequencerTransitions :
    (State.reset.withInputs [.write cmdIndex 0x00000001]).Inv ∧
    goesTo (step (State.reset.withInputs [.write cmdIndex 0x00000001])) (fun t => t.seq == .run 0x00000001) = true ∧
    goesTo (step (State.reset.withInputs [.write cmdIndex 0x00000007])) (fun t => t.seq == .faulted) = true ∧
    (running 0x00000001 State.reset).Inv ∧
    goesTo (step (running 0x00000001 State.reset)) (fun t => t.seq == .faulted) = true ∧
    (running 0x00000001 (idleState 1 0 Memory.empty)).Inv ∧
    goesTo (step (running 0x00000001 (idleState 1 0 Memory.empty))) (fun t => t.seq == .idle && t.done) = true ∧
    (faultedState.withInputs [.write cmdIndex 0x0000000E]).Inv ∧
    goesTo (step (faultedState.withInputs [.write cmdIndex 0x0000000E])) (fun t => t.seq == .idle) = true ∧
    goesTo (step (faultedState.withInputs [.assertReset])) (fun t => t.seq == .idle) = true ∧
    goesTo (step ((running 0x00000001 State.reset).withInputs [.powerUp])) (fun t => t.seq == .idle) = true :=
  ⟨inv_of (by decide), by decide, by decide, inv_running, by decide +kernel,
    inv_of (by decide), by decide +kernel, inv_of (by decide), by decide,
    by decide, by decide⟩

/-- HZD is set while BUSY and in FAULTED, and cleared by a write of 1 and by SRST. -/
theorem witness_HazardFlag :
    ((running 0x00000001 State.reset).withInputs [.read 0x00800]).Inv ∧
    goesTo (step ((running 0x00000001 State.reset).withInputs [.read 0x00800])) (fun t => t.hzd) = true ∧
    (faultedState.withInputs [.write cmdIndex 0x00000001]).Inv ∧
    goesTo (step (faultedState.withInputs [.write cmdIndex 0x00000001])) (fun t => t.hzd) = true ∧
    (State.reset.setHzd.withInputs [.write 0x2 0x8]).Inv ∧
    goesTo (step (State.reset.setHzd.withInputs [.write 0x2 0x8])) (fun t => !t.hzd) = true ∧
    goesTo (step (State.reset.setHzd.withInputs [.write cmdIndex 0x0000000F])) (fun t => !t.hzd) = true :=
  ⟨inv_of (by decide), by decide, inv_of (by decide), by decide,
    inv_of (by decide), by decide, by decide⟩

/-- DONE is set by a completion, CLRERR and NOP, and cleared by a write of 1, an acceptance, a fault at the write, SRST. -/
theorem witness_DoneFlag :
    (running 0x00000001 (idleState 1 0 Memory.empty)).done = false ∧
    goesTo (step (running 0x00000001 (idleState 1 0 Memory.empty))) (fun t => t.done) = true ∧
    goesTo (step (faultedState.withInputs [.write cmdIndex 0x0000000E])) (fun t => t.done) = true ∧
    goesTo (step (State.reset.withInputs [.write cmdIndex 0x00000000])) (fun t => t.done) = true ∧
    State.reset.setDone.Inv ∧ State.reset.setDone.done = true ∧
    ([.write 0x2 0x2, .write cmdIndex 0x00000001, .write cmdIndex 0x00000007, .write cmdIndex 0x0000000F] : List Event).all
      (fun e => goesTo (step (State.reset.setDone.withInputs [e])) (fun t => !t.done)) = true :=
  ⟨rfl, by decide +kernel, by decide, by decide, inv_of (by decide), rfl, by decide⟩

theorem witness_WaitEnds :
    ((running 0x00000001 State.reset).withInputs [.wait, .read 0x2]).Inv ∧
    ((running 0x00000001 State.reset).withInputs [.wait, .read 0x2]).rst = false ∧
    ((running 0x00000001 State.reset).withInputs [.wait, .read 0x2]).inputs = .wait :: [.read 0x2] :=
  ⟨inv_of (by decide), rfl, rfl⟩

/-- A configuration other than the printed one: ten versions, and a version 1 with two groups whose blocks differ by
two. -/
def otherCfg : Config := { cfg with vpt := ⟨1, 7, 1, 3, 2, 5, 0⟩ :: vpt0.drop 1 }

theorem otherCfg_wf : otherCfg.wf = true :=
  (Config.wf_iff otherCfg).2 ⟨by decide +kernel, cfg_genWf, cfg_alogWf, cfg_logWf⟩

/-- VSET is a parameter (00_scope.md R6): version 11 has no row here. -/
theorem test_config_vset : goesTo (exec .fmt { idleState 11 0 Memory.empty with config := otherCfg })
    (fun t => t.errcode == 2 && t.errinfo == 11) = true := by decide +kernel

/-- 43_interleaver.md R136, R137 with `D2 = D1 + 2`: rounds 3 and 4 take group 2 alone. -/
theorem test_config_ilv : goesTo (exec .ilv { idleState 1 0 { Memory.empty with
      msg := cellsAt 0 ((List.range 13).map (BitVec.ofNat 8)) } with config := otherCfg })
    (fun t => t.slice .stream 0 13 == [0, 3, 8, 1, 4, 9, 2, 5, 10, 6, 11, 7, 12]) = true := by decide +kernel

/-- A run that has ended, one that has not for a transfer, and one that has not for a command; and the premises of
EveryRunFromResetGoesOn. -/
theorem witness_EveryRunFromResetGoesOn :
    cfg.wf = true ∧ otherCfg.wf = true ∧ faultedState.ended = true ∧ faultedState.endedInFault = true ∧
    faultedState.cleanEnd = false ∧ State.reset.cleanEnd = true ∧ (State.reset.withInputs [.engine]).ended = false ∧
    (running 0x00000001 State.reset).ended = false ∧ (running 0x00000001 State.reset).inputs = [] ∧
    (running 0x00000001 State.reset).Inv :=
  ⟨cfg_wf, otherCfg_wf, rfl, rfl, rfl, rfl, rfl, rfl, rfl, inv_running⟩

/-- A completion and a fault. -/
theorem witness_LongCommandsCompleteOrFault :
    Instr.isLong .fmt = true ∧ goesTo (exec .fmt (idleState 1 0 Memory.empty)) (fun t => t.seq == .idle) = true ∧
    goesTo (exec .fmt State.reset) (fun t => t.seq == .faulted) = true := by decide +kernel

theorem witness_UnsupportedVersionComesFirst :
    State.reset.ver.toNat ∉ State.reset.config.vset ∧
    (idleState 41 0 Memory.empty).ver.toNat ∉ (idleState 41 0 Memory.empty).config.vset ∧
    (idleState 1 12 Memory.empty).ver.toNat ∈ (idleState 1 12 Memory.empty).config.vset ∧
    goesTo (exec .fmt (idleState 1 12 Memory.empty)) (fun t => t.err && t.errcode != 2) = true ∧
    goesTo (exec (.rsdiv 9 0) State.reset) (fun t => t.errcode == 6) = true := by decide +kernel

theorem witness_CapacityExceededBeforeAnyWrite :
    (idleState 1 12 Memory.empty).row = some ⟨1, 13, 1, 13, 0, 0, 0⟩ ∧
    (⟨1, 13, 1, 13, 0, 0, 0⟩ : VersionRow).dataCount < (idleState 1 12 Memory.empty).tlen.toNat + 2 ∧
    (idleState 40 256 Memory.empty).row.isSome = true ∧ 255 < (idleState 40 256 Memory.empty).tlen.toNat := by
  decide +kernel

theorem witness_BadOperandBeforeAnyWrite :
    9 ∉ State.reset.config.eset ∧ 31 ∉ State.reset.config.eset ∧
    2048 < ({ State.reset with rsrc := 2047, rlen := 2 } : State).rsrc.toNat +
      ({ State.reset with rsrc := 2047, rlen := 2 } : State).rlen.toNat ∧ 31 < 32 ∧ 127 < 128 := by decide

theorem witness_PlaceChecksMaskThenGeometry :
    v35State.row = some v1 ∧ v35State.mask = 1 ∧ v35State.freeCount v1.side ≠ v1.budget ∧
    ({ v35State with mask := 0 } : State).mask ≠ 1 :=
  ⟨by decide +kernel, rfl, fun hn => absurd (v35_free.symm.trans hn) (by decide), by decide⟩

theorem witness_EncodeFaultKeepsTheEarlierStages :
    v35State.row = some v1 ∧ v35State.tlen.toNat ≤ 255 ∧ v35State.tlen.toNat + 2 ≤ v1.dataCount ∧
    ({ v35State with mask := 2 } : State).mask ≠ 1 ∧ v35State.freeCount v1.side ≠ v1.budget :=
  ⟨by decide +kernel, by decide, by decide, by decide, fun hn => absurd (v35_free.symm.trans hn) (by decide)⟩

theorem witness_CommandsWriteOnlyTheirRanges :
    State.reset.config.wf = true ∧ (Instr.rsdiv 10 3).wellFormed = true ∧ (∃ t, exec (.rsdiv 10 3) State.reset = .next t) ∧
    ¬ MayWrite State.reset (.rsdiv 10 3) .ecb 106 ∧ (Instr.rsdiv 9 3).isLong = true ∧
    goesTo (exec (.rsdiv 9 3) State.reset) (fun t => t.seq == .faulted) = true := by
  refine ⟨cfg_wf, rfl, ⟨_, rfl⟩, ?_, rfl, by decide +kernel⟩
  rintro ⟨-, h1, h2⟩
  omega

/-- At capacity (`TLEN = 11` at version 1), empty, and the longest text (`TLEN = 255` at version 40). -/
theorem witness_FmtFormatsTheText :
    p1State.row = some ⟨1, 13, 1, 13, 0, 0, 0⟩ ∧ p1State.tlen.toNat ≤ 255 ∧
    p1State.tlen.toNat + 2 ≤ (⟨1, 13, 1, 13, 0, 0, 0⟩ : VersionRow).dataCount ∧
    (idleState 40 255 Memory.empty).row.isSome = true ∧ (idleState 40 255 Memory.empty).tlen.toNat ≤ 255 ∧
    (idleState 40 255 Memory.empty).row.all (fun r => 255 + 2 ≤ r.dataCount) = true := by decide +kernel

theorem witness_TablesAreTheirDefinitions :
    cfg.wf = true ∧ 1 ≤ 254 ∧ (255 : Byte) ≠ 0 ∧ alog cfg 175 = 255 :=
  ⟨cfg_wf, by decide, by decide, by decide +kernel⟩

theorem witness_FieldLaws : logOf cfg 1 = some 0 ∧ logOf cfg 142 = some 254 := by decide +kernel

theorem witness_GeneratorsAreRootProducts : (genPoly cfg 7).isSome = true ∧ (genPoly cfg 30).isSome = true ∧ genPoly cfg 31 = none := by
  decide +kernel

/-- The last slot, the longest generator, a slice that ends at the last byte of MSG. -/
theorem witness_RsdivWritesTheRemainder :
    State.reset.config = cfg ∧ cfg.wf = true ∧ 127 < 128 ∧ (genPoly cfg 30).isSome = true ∧
    ({ State.reset with rsrc := 2047, rlen := 1 } : State).rsrc.toNat +
      ({ State.reset with rsrc := 2047, rlen := 1 } : State).rlen.toNat ≤ 2048 ∧
    ∃ t, exec (.rsdiv 30 127) { State.reset with rsrc := 2047, rlen := 1 } = .next t :=
  ⟨rfl, cfg_wf, by decide, by decide +kernel, by decide, _, rfl⟩

/-- For RSENC and ILV: a version of one group and one of two, a block of each. -/
theorem witness_RsencAndIlv :
    (idleState 5 0 Memory.empty).config = cfg ∧ cfg.wf = true ∧
    (idleState 5 0 Memory.empty).row = some ⟨5, 18, 2, 15, 2, 16, 7⟩ ∧ (⟨5, 18, 2, 15, 2, 16, 7⟩ : VersionRow).blocks = 4 ∧
    (∃ t, exec .rsenc (idleState 5 0 Memory.empty) = .next t) ∧ ∃ t, exec .ilv (idleState 5 0 Memory.empty) = .next t :=
  ⟨rfl, cfg_wf, by decide +kernel, by decide, ⟨_, rfl⟩, _, rfl⟩

/-- Each of the three kinds of stream position at version 5: a common round, the round of group 2 alone, an error codeword;
and a second round of group 2 alone in the other configuration. -/
theorem witness_IlvPositions :
    14 < 15 ∧ 3 < (⟨5, 18, 2, 15, 2, 16, 7⟩ : VersionRow).blocks ∧ 2 ≤ 3 ∧ 15 < 16 ∧ 17 < 18 ∧
    133 < (⟨5, 18, 2, 15, 2, 16, 7⟩ : VersionRow).total ∧ otherCfg.wf = true ∧
    ({ idleState 1 0 Memory.empty with config := otherCfg } : State).row = some ⟨1, 7, 1, 3, 2, 5, 0⟩ ∧ 3 ≤ 4 ∧ 4 < 5 :=
  ⟨by decide, by decide, by decide, by decide, by decide, by decide, otherCfg_wf, by decide +kernel, by decide, by decide⟩

theorem witness_LeadingZerosAreShifts :
    cfg.wf = true ∧ (genPoly cfg 7).isSome = true ∧ (fun j : Nat => if j = 2 then (1 : Byte) else 0) 0 = 0 :=
  ⟨cfg_wf, by decide +kernel, by decide⟩

/-- R171, R177: the end of the first strip, the start of the second, the strip moved off column 6, the last cell. -/
theorem witness_RouteCoversTheSquareOnce :
    21 = 4 * 1 + 17 ∧ (route 21)[2 * 21 * 0 + 2 * 20 + 1]? = some (0, 19) ∧ (route 21)[2 * 21 * 1]? = some (0, 18) ∧
    (route 21)[2 * 21 * 7]? = some (0, 5) ∧ (route 21)[2 * 21 * 9 + 2 * 20 + 1]? = some (20, 0) := by decide +kernel

/-- For PlaceThreadsTheStream, WalkConsumesTheBudget and EncodeIsThePipeline: SKEL(1) meets the checks, column 6 is
reserved, and the walk has a first and a last bit-step. -/
theorem witness_PlaceThreadsTheStream :
    p1State.config.wf = true ∧ p1State.row = some v1 ∧ p1State.mask = 1 ∧ p1State.freeCount v1.side = v1.budget ∧
    (∀ row, row < v1.side → p1State.rsv row 6 = true) ∧ (visited p1State v1)[0]? = some (20, 20) ∧
    (visited p1State v1)[207]? = some (12, 0) := by
  have hf : visited p1State v1 = walkCells 1 := freeOf_skel (v := 1) (by decide) rfl
  have h6 : ∀ row : Fin 21, (skelByte 1 (row.1, 6)).getLsbD 1 = true := by decide +kernel
  refine ⟨cfg_wf, by decide +kernel, rfl, v1_free rfl, fun row hr => ?_, ?_, ?_⟩
  · rw [rsv_skel (v := 1) (by decide) rfl hr (by decide)]; exact h6 ⟨row, hr⟩
  · rw [hf]; decide +kernel
  · rw [hf]; decide +kernel

theorem witness_CommandsDependOnlyOnTheirInputs :
    p1State.config = cfg ∧ cfg.wf = true ∧ SameInputs .fmt p1State { p1State with mask := 5, hzd := true } ∧ SameInputs .encode p1State { p1State with ie := 3 } ∧
    SameInputs (.rsdiv 10 3) State.reset { State.reset with ver := 9 } ∧
    (∃ t, exec .fmt p1State = .next t) ∧ (∃ t, exec .encode p1State = .next t) ∧
    MayWrite p1State .fmt .msg 12 ∧ goesTo (exec .fmt p1State) (fun t => t.seq == .idle) = true :=
  ⟨rfl, cfg_wf, ⟨rfl, rfl, fun _ _ => rfl⟩, ⟨rfl, rfl, rfl, fun _ _ => rfl, fun _ _ _ _ _ _ => rfl⟩, ⟨rfl, rfl, fun _ _ => rfl⟩,
    ⟨_, rfl⟩, ⟨_, rfl⟩, ⟨⟨1, 13, 1, 13, 0, 0, 0⟩, by decide +kernel, rfl, by decide⟩, by decide +kernel⟩

/-- FMT twice from the state of P1. -/
theorem witness_LongCommandsAreIdempotent :
    p1State.config.wf = true ∧ p1State.mem.wf = true ∧
    goesTo (exec .fmt p1State) (fun t => t.seq == .idle && goesTo (exec .fmt t) (fun u => u == t)) = true :=
  ⟨cfg_wf, by decide +kernel, by decide +kernel⟩

/-- ENCODE_SEQ from the state of P1 ends without a fault. -/
theorem witness_EncodeSeqEqualsEncode :
    p1State.rst = false ∧ p1State.busy = false ∧ p1State.err = false ∧
    ∃ t, Host.Core.run Sys2Proof.core 12 (p1State.withInputs asmEncodeSeq) = .next t ∧ State.err t = false := by
  refine ⟨rfl, rfl, rfl, ?_⟩
  have hr : p1State.row = some v1 := by decide +kernel
  obtain ⟨M, hM, -, -⟩ := placed_picture (s := p1State.setMem (afterIlv p1State v1)) (afterIlv_mat p1State v1)
    ((State.setMem_row _ _).trans hr) p1_mask
    (bytes := helloMsg ++ helloEcb) p1_stages.2.2.2 (rows := p1Rows) (by decide +kernel)
  let s0 := p1State.withInputs asmEncodeSeq
  let s1 := (s0.complete (afterFmt p1State v1)).withInputs (s0.inputs.drop 2)
  let s2 := (s1.complete (afterRsenc p1State v1)).withInputs (s0.inputs.drop 4)
  let s3 := (s2.complete (afterIlv p1State v1)).withInputs (s0.inputs.drop 6)
  have h0 : ranOf .fmt s0 = .ended (afterFmt p1State v1) := fmtBody_ok (s := s0) hr (by decide) (by decide)
  have h1 : ranOf .rsenc s1 = .ended (afterRsenc p1State v1) := rsencBody_row (s := s1) hr
  have h2 : ranOf .ilv s2 = .ended (afterIlv p1State v1) := ilvBody_row (s := s2) hr
  have hv : SameView (p1State.setMem (afterIlv p1State v1)) s3 := ⟨rfl, rfl, rfl, rfl, rfl, rfl, rfl, rfl⟩
  have h3 : ranOf .place s3 = .ended M := hv.placeBody.trans hM
  refine ⟨(s3.complete M).withInputs [], ?_, rfl⟩
  rw [run_command (s := s0) (i := .fmt) rfl rfl rfl rfl rfl rfl 9, h0]
  refine (run_command (s := s1) (i := .rsenc) rfl rfl rfl rfl rfl rfl 6).trans ?_
  rw [h1]
  refine (run_command (s := s2) (i := .ilv) rfl rfl rfl rfl rfl rfl 3).trans ?_
  rw [h2]
  refine (run_command (s := s3) (i := .place) rfl rfl rfl rfl rfl rfl 0).trans ?_
  rw [h3]; rfl

theorem witness_VersionTableIsWellFormed :
    (versionRow cfg 1).isSome = true ∧ (versionRow cfg 40).isSome = true ∧ versionRow cfg 0 = none ∧ versionRow cfg 41 = none := by
  decide +kernel

/-- The two ends of the range. -/
theorem witness_SkeletonFreeCellsAreTheBudget :
    1 ≤ 1 ∧ 40 ≤ 40 ∧ (skelCells 1).length = 21 * 21 ∧ (skelCells 40).length = 177 * 177 := by
  refine ⟨by decide, by decide, ?_, ?_⟩ <;> decide +kernel

end Sys2Proof.Tests
end

/-! # The invariant and the sequencer

What one step can do is said once, as the relation `Moves`; the invariant, the transitions of the sequencer and the two
flags are then read off its cases. -/

section

namespace Sys2Proof.Machine

/-! ### What each operation leaves of the state -/

/-- The state with what the outside holds of it replaced: the events to come, the log, the count of reads in reset. -/
def State.outside (s : State) (l : List Event) (ws : List Word) (n : Nat) : State :=
  { s with inputs := l, log := ws, resetReads := n }

@[simp] theorem State.outside_done (s : State) (l : List Event) (ws : List Word) (n : Nat) :
    (s.outside l ws n).done = s.done := rfl
@[simp] theorem State.outside_hzd (s : State) (l : List Event) (ws : List Word) (n : Nat) :
    (s.outside l ws n).hzd = s.hzd := rfl

theorem State.resetRegisters_registersReset (s : State) : RegistersReset s.resetRegisters :=
  ⟨rfl, rfl, rfl, rfl, rfl, rfl, rfl, rfl, rfl, rfl, rfl, rfl, rfl⟩

/-- A sequence of scrubbed elements changes the memories and nothing else. -/
theorem scrubAll_eq (n : Nat) (l : List (MemName × Nat)) (s : State) :
    l.foldl (scrub n) s = s.setMem (l.foldl (scrub n) s).mem := by
  induction l generalizing s with
  | nil => rfl
  | cons c l ih =>
    obtain ⟨v, hv, -⟩ := scrub_eq n s c
    rw [List.foldl_cons, ih, hv]
    rfl

/-- A command cut short leaves other memories and one more cut, and nothing else changed. -/
theorem abandon_eq (s : State) (w : Word) :
    abandon s w = { s.setMem (abandon s w).mem with cuts := (abandon s w).cuts } := by
  unfold abandon
  split
  · simp only
    rw [scrubAll_eq]
    rfl
  · rfl

/-- Hardware reset puts the registers at their reset values, whatever it does to the memories. -/
theorem hardReset_eq (s : State) :
    hardReset s = { s.resetRegisters with mem := (hardReset s).mem, cuts := (hardReset s).cuts } := by
  unfold hardReset
  split
  · rw [abandon_eq]; rfl
  · rfl
  · rfl

theorem hardReset_wf {s : State} (hc : s.config.wf = true) (h : s.mem.wf = true) : (hardReset s).mem.wf = true := by
  unfold hardReset
  split
  · exact abandon_wf hc h
  · exact h
  · exact h

theorem assertReset_registersReset (s : State) : RegistersReset (assertReset s) := by
  rw [assertReset, hardReset_eq]
  exact s.resetRegisters_registersReset

@[simp] theorem assertReset_seq (s : State) : (assertReset s).seq = .idle := by
  rw [assertReset, hardReset_eq]; rfl
@[simp] theorem assertReset_done (s : State) : (assertReset s).done = false := by
  rw [assertReset, hardReset_eq]; rfl
@[simp] theorem assertReset_hzd (s : State) : (assertReset s).hzd = false := by
  rw [assertReset, hardReset_eq]; rfl
@[simp] theorem assertReset_config (s : State) : (assertReset s).config = s.config := by
  rw [assertReset, hardReset_eq]; rfl
@[simp] theorem assertReset_inputs (s : State) : (assertReset s).inputs = s.inputs := by
  rw [assertReset, hardReset_eq]; rfl
@[simp] theorem assertReset_log (s : State) : (assertReset s).log = s.log := by
  rw [assertReset, hardReset_eq]; rfl

@[simp] theorem powerUp_done (s : State) : (powerUp s).done = false := rfl
@[simp] theorem powerUp_hzd (s : State) : (powerUp s).hzd = false := rfl

@[simp] theorem releaseReset_done (s : State) : (releaseReset s).done = s.done := rfl
@[simp] theorem releaseReset_hzd (s : State) : (releaseReset s).hzd = s.hzd := rfl

/-! ### The causes a command raises -/

/-- A command that raises a fault raises one whose code is among the raised ones (60_exceptions.md R203, R207). -/
def Ran.raisesKnown : Ran → Prop
  | .ended _ => True
  | .raised _ c _ => raisedCodes.contains c.code = true

theorem withVersion_raisesKnown {s : State} {body : VersionRow → Ran} (h : ∀ r, (body r).raisesKnown) :
    (withVersion s body).raisesKnown := by
  cases hr : s.row with
  | none => rw [withVersion_none hr]; exact (by decide : raisedCodes.contains Cause.unsupportedVersion.code = true)
  | some r => rw [withVersion_some hr]; exact h r

theorem Ran.andThen_raisesKnown {r : Ran} {s : State} {f : State → Ran} (h : r.raisesKnown)
    (hf : ∀ s, (f s).raisesKnown) : (r.andThen s f).raisesKnown := by
  cases r with
  | ended M => exact hf _
  | raised M c info => exact h

theorem fmtBody_raisesKnown (s : State) : (fmtBody s).raisesKnown := by
  refine withVersion_raisesKnown fun r => ?_
  split
  · exact (by decide : raisedCodes.contains Cause.capacityExceeded.code = true)
  · trivial

theorem rsdivBody_raisesKnown (e blk : Nat) (s : State) : (rsdivBody e blk s).raisesKnown := by
  unfold rsdivBody
  split
  · exact (by decide : raisedCodes.contains Cause.badOperand.code = true)
  · trivial

theorem rsencBody_raisesKnown (s : State) : (rsencBody s).raisesKnown := withVersion_raisesKnown fun _ => trivial

theorem ilvBody_raisesKnown (s : State) : (ilvBody s).raisesKnown := withVersion_raisesKnown fun _ => trivial

theorem placeBody_raisesKnown (s : State) : (placeBody s).raisesKnown := by
  refine withVersion_raisesKnown fun r => ?_
  split
  · exact (by decide : raisedCodes.contains Cause.unsupportedMask.code = true)
  · split
    · exact (by decide : raisedCodes.contains Cause.geometryMismatch.code = true)
    · trivial

theorem encodeBody_raisesKnown (s : State) : (encodeBody s).raisesKnown := by
  refine Ran.andThen_raisesKnown ?_ placeBody_raisesKnown
  refine Ran.andThen_raisesKnown ?_ ilvBody_raisesKnown
  exact Ran.andThen_raisesKnown (fmtBody_raisesKnown s) rsencBody_raisesKnown

theorem ranOf_raisesKnown (i : Instr) (s : State) : (ranOf i s).raisesKnown := by
  cases i with
  | fmt => exact fmtBody_raisesKnown s
  | rsdiv e blk => exact rsdivBody_raisesKnown e blk s
  | rsenc => exact rsencBody_raisesKnown s
  | ilv => exact ilvBody_raisesKnown s
  | place => exact placeBody_raisesKnown s
  | encode => exact encodeBody_raisesKnown s
  | nop => trivial
  | clrerr => trivial
  | srst => trivial

/-! ### Words and indices -/

/-- The word of an immediate command is the one its row prints: all its bits are matched (30_encoding.md R73). -/
theorem eq_encode_of_decode_immediate {w : Word} {i : Instr} (h : decode w = .ok i) (hl : i.isLong = false) :
    w = encode i := by
  have hall : ∀ p : Word, (w &&& 0xFFFFFFFF == p) = true → w = p := by
    intro p hp
    have hones : (0xFFFFFFFF : Word) = BitVec.allOnes 32 := by decide
    rwa [hones, BitVec.and_allOnes, beq_iff_eq] at hp
  unfold decode at h
  split at h
  · rename_i r hr
    injection h with h
    subst h
    have hs := List.find?_some hr
    have hm := List.mem_of_find?_eq_some hr
    simp only [opcodeMap, List.mem_cons, List.not_mem_nil, or_false] at hm
    rcases hm with rfl | rfl | rfl | rfl | rfl | rfl | rfl | rfl | rfl
    case inr.inr.inl => cases hl
    all_goals exact hall _ hs
  · cases h

theorem spellsLong_of_decode {w : Word} {i : Instr} (h : decode w = .ok i) (hl : i.isLong = true) :
    spellsLong w = true := by
  rw [spellsLong, h]; exact hl

/-- Each register stands at one index (10_state.md R20). -/
theorem eq_regIndex_of_target {a : Index} {r : Reg} (h : target a = .reg r) : a = regIndex r := by
  have hn : ∀ n, regAt n = some r → n = (regIndex r).toNat := by
    intro n hn
    unfold regAt at hn
    split at hn <;> cases hn <;> rfl
  exact BitVec.eq_of_toNat_eq (hn _ ((target_eq_reg_iff a r).1 h))

/-! ### What a step can do -/

/-- The engine's turn comes: no event waits, or the next one lets the engine move (logs 3, 4, 5). -/
def EngineMoves (l : List Event) : Prop := l = [] ∨ ∃ rest, l = .engine :: rest ∨ l = .wait :: rest

/-- The next event is a host access that sets HZD (10_state.md R14): any access while BUSY, or a word other than those of
CLRERR and SRST written to CMD while ERR is 1. -/
def SetsHazard (s : State) : Prop :=
  (s.busy = true ∧ ∃ a rest, (∃ v, s.inputs = .write a v :: rest) ∨ s.inputs = .read a :: rest) ∨
    (s.err = true ∧ ∃ w rest, s.inputs = .write cmdIndex w :: rest ∧ w ≠ 0x0000000E ∧ w ≠ 0x0000000F)

/-- `u` is `s` but for IE, the operand registers, the memories and what the outside holds; canonical memories stay so. -/
structure StoresOnly (s u : State) : Prop where
  seq : u.seq = s.seq
  busy : u.busy = s.busy
  done : u.done = s.done
  err : u.err = s.err
  hzd : u.hzd = s.hzd
  errcode : u.errcode = s.errcode
  errinfo : u.errinfo = s.errinfo
  rst : u.rst = s.rst
  config : u.config = s.config
  mem_wf : s.mem.wf = true → u.mem.wf = true

/-- What one step can do to a state of the invariant, and what the state and its next event are then. -/
inductive Moves (s : State) : State → Prop where
  /-- Nothing of the block changes. -/
  | stands (l : List Event) (ws : List Word) (n : Nat) : Moves s (s.outside l ws n)
  /-- An access is dropped, or a word refused. -/
  | drops (l : List Event) (ws : List Word) (n : Nat) (hr : s.rst = false) (why : SetsHazard s) :
      Moves s (s.outside l ws n).setHzd
  /-- The running command ends. -/
  | finishes (l : List Event) {w : Word} {i : Instr} (hs : s.seq = .run w) (hd : decode w = .ok i)
      (hin : EngineMoves s.inputs) : Moves s ((s.withInputs l).finish (ranOf i (s.withInputs l)))
  /-- A long command is accepted. -/
  | accepts {w : Word} {rest : List Event} (hr : s.rst = false) (hs : s.seq = .idle)
      (hin : s.inputs = .write cmdIndex w :: rest) (hl : spellsLong w = true) : Moves s ((s.withInputs rest).accept w)
  /-- A word that spells no command faults at the write. -/
  | rejects {w : Word} {rest : List Event} {why : Illegal} (hr : s.rst = false) (hs : s.seq = .idle)
      (hin : s.inputs = .write cmdIndex w :: rest) (hd : decode w = .error why) :
      Moves s ((s.withInputs rest).takeFault .illegalCommand w)
  /-- NOP in IDLE. -/
  | nops {rest : List Event} (hr : s.rst = false) (hs : s.seq = .idle)
      (hin : s.inputs = .write cmdIndex 0x00000000 :: rest) : Moves s (s.withInputs rest).setDone
  /-- CLRERR in IDLE or FAULTED. -/
  | clears {rest : List Event} (hr : s.rst = false) (hb : s.busy = false)
      (hin : s.inputs = .write cmdIndex 0x0000000E :: rest) : Moves s (s.withInputs rest).leaveFaulted.setDone
  /-- SRST in IDLE or FAULTED. -/
  | softResets {rest : List Event} (hr : s.rst = false) (hb : s.busy = false)
      (hin : s.inputs = .write cmdIndex 0x0000000F :: rest) : Moves s (s.withInputs rest).resetRegisters
  /-- A write to STATUS. -/
  | clearsFlags {v : Word} {rest : List Event} (hr : s.rst = false) (hin : s.inputs = .write 0x2 v :: rest) :
      Moves s ((s.withInputs rest).writeStatus v)
  /-- A write to IE, an operand register or an element. -/
  | stores {u : State} (hr : s.rst = false) (hu : StoresOnly s u) : Moves s u
  /-- `rst` is asserted. -/
  | asserts {rest : List Event} (hin : s.inputs = .assertReset :: rest) : Moves s (assertReset (s.withInputs rest))
  /-- `rst` is released. -/
  | releases (rest : List Event) : Moves s (releaseReset (s.withInputs rest))
  /-- A new power-up. -/
  | powersUp {rest : List Event} (hin : s.inputs = .powerUp :: rest) : Moves s (powerUp (s.withInputs rest))

theorem State.Inv.mem_wf {s : State} (hi : s.Inv) : s.mem.wf = true := by
  obtain ⟨-, -, -, hmem, -⟩ := hi
  exact hmem

theorem State.Inv.config_wf {s : State} (hi : s.Inv) : s.config.wf = true := by
  obtain ⟨-, -, -, -, hcfg, -⟩ := hi
  exact hcfg

/-- In a state of the invariant, BUSY 0 and ERR 0 mean IDLE. -/
theorem State.Inv.idle_of_flags {s : State} (hi : s.Inv) (hb : s.busy = false) (he : s.err = false) : s.seq = .idle := by
  obtain ⟨hseq, -⟩ := hi
  cases hs : s.seq with
  | idle => rfl
  | run w => simp [State.seqAgrees, hs, hb] at hseq
  | faulted => simp [State.seqAgrees, hs, he] at hseq

theorem State.Inv.flags_of_run {s : State} (hi : s.Inv) {w : Word} (hs : s.seq = .run w) :
    s.busy = true ∧ s.err = false := by
  obtain ⟨hseq, -⟩ := hi
  simp only [State.seqAgrees, hs, Bool.and_eq_true, Bool.not_eq_true'] at hseq
  obtain ⟨hflags, -⟩ := hseq
  exact hflags

/-- DONE is 0 while a command runs. -/
theorem State.Inv.done_of_run {s : State} (hi : s.Inv) {w : Word} (hs : s.seq = .run w) : s.done = false := by
  obtain ⟨hb, -⟩ := hi.flags_of_run hs
  obtain ⟨-, -, hdone, -⟩ := hi
  simpa [State.doneAgrees, hb] using hdone

theorem engineTurn_moves {s t : State} {l : List Event} (hin : EngineMoves s.inputs)
    (h : engineTurn (s.withInputs l) = .next t) : Moves s t := by
  unfold engineTurn at h
  rw [State.withInputs_seq] at h
  split at h
  · rename_i w hs
    split at h
    · rename_i i hd
      split at h
      · rename_i hl
        rw [exec_long hl] at h
        cases h
        exact .finishes l hs hd hin
      · cases h
    · cases h
  · cases h; exact .stands l s.log s.resetReads
  · cases h; exact .stands l s.log s.resetReads

theorem writeCmd_moves {s t : State} {w : Word} {rest : List Event} (hi : s.Inv) (hr : s.rst = false)
    (hin : s.inputs = .write cmdIndex w :: rest) (h : writeCmd (s.withInputs rest) w = .next t) : Moves s t := by
  unfold writeCmd at h
  rw [State.withInputs_busy, State.withInputs_err] at h
  split at h
  · rename_i hb
    cases h
    exact .drops rest s.log s.resetReads hr (.inl ⟨hb, _, rest, .inl ⟨w, hin⟩⟩)
  rename_i hb
  rw [Bool.not_eq_true] at hb
  split at h
  · rename_i he
    split at h
    · subst w; cases h; exact .clears hr hb hin
    · split at h
      · subst w; cases h; exact .softResets hr hb hin
      · cases h
        exact .drops rest s.log s.resetReads hr (.inr ⟨he, w, rest, hin, ‹_›, ‹_›⟩)
  rename_i he
  rw [Bool.not_eq_true] at he
  have hs := hi.idle_of_flags hb he
  split at h
  · rename_i i hd
    split at h
    · rename_i hl
      cases h
      exact .accepts hr hs hin (spellsLong_of_decode hd hl)
    · rename_i hl
      rw [Bool.not_eq_true] at hl
      have hw := eq_encode_of_decode_immediate hd hl
      subst hw
      cases i with
      | nop => cases h; exact .nops hr hs hin
      | clrerr => cases h; exact .clears hr hb hin
      | srst => cases h; exact .softResets hr hb hin
      | fmt | rsdiv | rsenc | ilv | place | encode => cases hl
  · rename_i hd
    cases h
    exact .rejects hr hs hin hd

/-- A write of a kind that is dropped while BUSY (20_memory.md R46) sets HZD or stores. -/
theorem unlessBusy_moves {s u : State} {a : Index} {v : Word} {rest : List Event} (hr : s.rst = false)
    (hin : s.inputs = .write a v :: rest) (hu : StoresOnly s u) : Moves s (unlessBusy (s.withInputs rest) u) := by
  unfold unlessBusy
  split
  · rename_i hb
    exact .drops rest s.log s.resetReads hr (.inl ⟨hb, a, rest, .inl ⟨v, hin⟩⟩)
  · exact .stores hr hu

theorem writeReg_moves {s t : State} {a : Index} {r : Reg} {v : Word} {rest : List Event} (hi : s.Inv)
    (hr : s.rst = false) (hin : s.inputs = .write a v :: rest) (ha : target a = .reg r)
    (h : writeReg (s.withInputs rest) r v = .next t) : Moves s t := by
  have ha := eq_regIndex_of_target ha
  subst ha
  cases r with
  | cmd => exact writeCmd_moves hi hr hin h
  | status => cases h; exact .clearsFlags hr hin
  | ie => cases h; exact .stores hr ⟨rfl, rfl, rfl, rfl, rfl, rfl, rfl, rfl, rfl, id⟩
  | ver | tlen | mask | rsrc | rlen =>
    cases h; exact unlessBusy_moves hr hin ⟨rfl, rfl, rfl, rfl, rfl, rfl, rfl, rfl, rfl, id⟩
  | ident | errcode | errinfo | ndata | ntotal | side => cases h; exact .stands rest s.log s.resetReads

theorem hostWrite_moves {s t : State} {a : Index} {v : Word} {rest : List Event} (hi : s.Inv) (hr : s.rst = false)
    (hin : s.inputs = .write a v :: rest) (h : hostWrite (s.withInputs rest) a v = .next t) : Moves s t := by
  unfold hostWrite at h
  split at h
  · rename_i r ha
    exact writeReg_moves hi hr hin ha h
  · rename_i m i ha
    cases h
    exact unlessBusy_moves hr hin ⟨rfl, rfl, rfl, rfl, rfl, rfl, rfl, rfl, rfl, writeElem_wf ha _⟩
  · cases h
    exact .stands rest s.log s.resetReads

theorem hostRead_moves {s : State} {a : Index} {rest : List Event} (hr : s.rst = false)
    (hin : s.inputs = .read a :: rest) : Moves s (hostRead (s.withInputs rest) a) := by
  have hstands : ∀ v, Moves s ((s.withInputs rest).record v) := fun v => .stands rest (s.log ++ [v]) s.resetReads
  rw [hostRead, hostReadEffect]
  split
  · exact hstands _
  · unfold unlessBusy
    split
    · rename_i hb
      exact .drops rest _ s.resetReads hr (.inl ⟨hb, a, rest, .inr hin⟩)
    · exact hstands _
  · exact hstands _

theorem pollInReset_moves (s : State) (rest : List Event) : Moves s (pollInReset s rest) := by
  unfold pollInReset
  split
  · exact .stands s.inputs s.log _
  · exact .stands rest s.log _

/-- What one step can do to a state of the invariant. -/
theorem step_moves {s t : State} (hi : s.Inv) (h : step s = .next t) : Moves s t := by
  cases hin : s.inputs with
  | nil =>
    rw [step_nil hin] at h
    exact engineTurn_moves (l := s.inputs) (.inl hin) h
  | cons e rest =>
    rw [step_cons hin] at h
    cases e with
    | write a v =>
      cases hr : s.rst with
      | true => simp only [occur, hr, if_true] at h; cases h; exact .stands rest s.log s.resetReads
      | false => exact hostWrite_moves hi hr hin (by simpa [occur, hr] using h)
    | read a =>
      cases h
      split
      · exact .stands rest _ _
      · rename_i hr
        exact hostRead_moves (by simpa using hr) hin
    | wait =>
      simp only [occur] at h
      split at h
      · cases h; exact pollInReset_moves s rest
      · split at h
        · exact engineTurn_moves (l := s.inputs) (.inr ⟨rest, .inr hin⟩) h
        · cases h; exact .stands rest s.log s.resetReads
    | engine => exact engineTurn_moves (.inr ⟨rest, .inl hin⟩) h
    | assertReset => cases h; exact .asserts hin
    | releaseReset => cases h; exact .releases rest
    | powerUp => cases h; exact .powersUp hin

/-! ### Every move keeps the invariant -/

/-- A state at the reset values with canonical memories and well-formed parameters satisfies the invariant. -/
theorem inv_of_registersReset {t : State} (h : RegistersReset t) (hm : t.mem.wf = true) (hc : t.config.wf = true) :
    t.Inv := by
  have hreset := h
  obtain ⟨hseq, hbusy, hdone, herr, -, hcode, hinfo, -⟩ := h
  refine ⟨?_, ?_, ?_, hm, hc, fun _ => hreset⟩
  · simp [State.seqAgrees, hseq, hbusy, herr]
  · simp [State.faultAgrees, herr, hcode, hinfo]
  · simp [State.doneAgrees, hdone]

/-- Completion in a state without a fault keeps the invariant. -/
theorem inv_complete {s : State} {M : Memory} (hi : s.Inv) (hr : s.rst = false) (he : s.err = false)
    (hM : M.wf = true) : (s.complete M).Inv := by
  obtain ⟨-, hfault, -, -, hcfg, -⟩ := hi
  refine ⟨?_, hfault, ?_, hM, hcfg, fun h => ?_⟩
  · simp [State.seqAgrees, he]
  · simp [State.doneAgrees, he]
  · simp [hr] at h

/-- Fault entry with a code that is raised keeps the invariant. -/
theorem inv_takeFault {s : State} {c : Cause} (info : Word) (hr : s.rst = false)
    (hc : raisedCodes.contains c.code = true) (hM : s.mem.wf = true) (hcfg : s.config.wf = true) :
    (s.takeFault c info).Inv := by
  refine ⟨rfl, hc, rfl, hM, hcfg, fun h => ?_⟩
  simp [hr] at h

/-- While a command runs `rst` is released. -/
theorem State.Inv.rst_of_run {s : State} (hi : s.Inv) {w : Word} (hs : s.seq = .run w) : s.rst = false := by
  obtain ⟨-, -, -, -, -, hreset⟩ := hi
  cases hr : s.rst with
  | false => rfl
  | true =>
    obtain ⟨hidle, -⟩ := hreset hr
    rw [hs] at hidle; cases hidle

/-- The end of the running command keeps the invariant. -/
theorem inv_finish {s : State} {w : Word} {i : Instr} (hi : s.Inv) (hs : s.seq = .run w) (hd : decode w = .ok i) :
    (s.finish (ranOf i s)).Inv := by
  have hr := hi.rst_of_run hs
  obtain ⟨-, he⟩ := hi.flags_of_run hs
  have hM := ranOf_wf (decode_wellFormed hd) hi.config_wf hi.mem_wf
  have hknown := ranOf_raisesKnown i s
  cases hran : ranOf i s with
  | ended M =>
    rw [hran] at hM
    exact inv_complete hi hr he hM
  | raised M c info =>
    rw [hran] at hM hknown
    exact inv_takeFault (s := s.setMem M) info hr hknown hM hi.config_wf

theorem inv_accept {s : State} {w : Word} (hi : s.Inv) (hr : s.rst = false) (hs : s.seq = .idle)
    (hl : spellsLong w = true) : (s.accept w).Inv := by
  obtain ⟨hseq, hfault, -, hmem, hcfg, -⟩ := hi
  have he : s.err = false := by
    simp only [State.seqAgrees, hs, Bool.and_eq_true, Bool.not_eq_true'] at hseq
    exact hseq.2
  refine ⟨?_, hfault, rfl, hmem, hcfg, fun h => ?_⟩
  · simp [State.seqAgrees, he, hl]
  · simp [hr] at h

theorem inv_setHzd {s : State} (hi : s.Inv) (hr : s.rst = false) : s.setHzd.Inv := by
  obtain ⟨hseq, hfault, hdone, hmem, hcfg, -⟩ := hi
  refine ⟨hseq, hfault, hdone, hmem, hcfg, fun h => ?_⟩
  simp [hr] at h

theorem inv_writeStatus {s : State} (v : Word) (hi : s.Inv) (hr : s.rst = false) : (s.writeStatus v).Inv := by
  obtain ⟨hseq, hfault, hdone, hmem, hcfg, -⟩ := hi
  refine ⟨hseq, hfault, ?_, hmem, hcfg, fun h => ?_⟩
  · cases hd : s.done <;> simp_all [State.doneAgrees]
  · simp [hr] at h

theorem inv_setDone {s : State} (hi : s.Inv) (hr : s.rst = false) (hs : s.seq = .idle) : s.setDone.Inv := by
  obtain ⟨hseq, hfault, -, hmem, hcfg, -⟩ := hi
  have hflags : (!s.busy && !s.err) = true := by simpa only [State.seqAgrees, hs] using hseq
  refine ⟨hseq, hfault, hflags, hmem, hcfg, fun h => ?_⟩
  simp [hr] at h

theorem inv_leaveFaulted {s : State} (hi : s.Inv) (hr : s.rst = false) (hb : s.busy = false) : s.leaveFaulted.Inv := by
  obtain ⟨-, -, -, hmem, hcfg, -⟩ := hi
  refine ⟨?_, rfl, ?_, hmem, hcfg, fun h => ?_⟩
  · simp [State.seqAgrees, hb]
  · simp [State.doneAgrees, hb]
  · simp [hr] at h

theorem inv_setRst_false {s : State} (hi : s.Inv) : (s.setRst false).Inv := by
  obtain ⟨hseq, hfault, hdone, hmem, hcfg, -⟩ := hi
  exact ⟨hseq, hfault, hdone, hmem, hcfg, fun h => by cases h⟩

theorem inv_of_storesOnly {s u : State} (hi : s.Inv) (hr : s.rst = false) (hu : StoresOnly s u) : u.Inv := by
  obtain ⟨hseq, hfault, hdone, hmem, hcfg, -⟩ := hi
  refine ⟨?_, ?_, ?_, hu.mem_wf hmem, by rw [hu.config, hcfg], fun h => ?_⟩
  · simpa only [State.seqAgrees, hu.seq, hu.busy, hu.err] using hseq
  · simpa only [State.faultAgrees, hu.err, hu.errcode, hu.errinfo] using hfault
  · simpa only [State.doneAgrees, hu.done, hu.busy, hu.err] using hdone
  · rw [hu.rst, hr] at h; cases h

theorem moves_inv {s t : State} (hi : s.Inv) (h : Moves s t) : t.Inv := by
  have hmem := hi.mem_wf
  have hcfg := hi.config_wf
  cases h with
  | stands l ws n => exact hi
  | drops l ws n hr _ => exact inv_setHzd (s := s.outside l ws n) hi hr
  | finishes l hs hd _ => exact inv_finish (s := s.withInputs l) hi hs hd
  | @accepts w rest hr hs _ hl => exact inv_accept (s := s.withInputs rest) hi hr hs hl
  | @rejects w rest _ hr _ _ _ => exact inv_takeFault (s := s.withInputs rest) w hr (by decide) hmem hcfg
  | @nops rest hr hs _ => exact inv_setDone (s := s.withInputs rest) hi hr hs
  | @clears rest hr hb _ => exact inv_setDone (inv_leaveFaulted (s := s.withInputs rest) hi hr hb) hr rfl
  | @softResets rest _ _ _ =>
    exact inv_of_registersReset (s.withInputs rest).resetRegisters_registersReset hmem hcfg
  | @clearsFlags v rest hr _ => exact inv_writeStatus (s := s.withInputs rest) v hi hr
  | stores hr hu => exact inv_of_storesOnly hi hr hu
  | @asserts rest _ =>
    refine inv_of_registersReset (assertReset_registersReset _) (hardReset_wf (s := s.withInputs rest) hcfg hmem) ?_
    rw [assertReset_config]; exact hcfg
  | releases rest => exact inv_setRst_false (s := s.withInputs rest) hi
  | @powersUp rest _ =>
    exact inv_of_registersReset (s.withInputs rest).resetRegisters_registersReset Memory.wf_empty hcfg

theorem moves_config {s t : State} (h : Moves s t) : t.config = s.config := by
  cases h with
  | finishes => exact State.finish_config _ _
  | stores _ hu => exact hu.config
  | asserts => exact assertReset_config _
  | stands | drops | accepts | rejects | nops | clears | softResets | clearsFlags | releases | powersUp => rfl

/-- Settles O25: what a step can do is `Moves`, and every move keeps the invariant and the parameters. -/
theorem stepKeepsTheInvariant : Obligations.StepKeepsTheInvariant := by
  intro s t hi h
  have hm := step_moves hi h
  exact ⟨moves_inv hi hm, moves_config hm⟩

/-- Settles O24: the state after reset has its registers at their reset values, no memory and the printed parameters. -/
theorem invariantAtReset : Obligations.InvariantAtReset :=
  inv_of_registersReset State.reset.resetRegisters_registersReset Memory.wf_empty cfg_wf

/-! ### The transitions of the sequencer and the two flags -/

theorem finish_seq_done_err {s : State} (he : s.err = false) (r : Ran) :
    ((s.finish r).seq = .idle ∧ (s.finish r).done = true ∧ (s.finish r).err = false) ∨
      ((s.finish r).seq = .faulted ∧ (s.finish r).done = false ∧ (s.finish r).err = true) := by
  cases r with
  | ended M => exact .inl ⟨rfl, rfl, he⟩
  | raised M c info => exact .inr ⟨rfl, rfl, rfl⟩

/-- In a state of the invariant with BUSY 0, the sequencer is in FAULTED where it is not in IDLE. -/
theorem State.Inv.faulted_of_ne_idle {s : State} (hi : s.Inv) (hb : s.busy = false) (hs : s.seq ≠ .idle) :
    s.seq = .faulted := by
  cases hseq : s.seq with
  | idle => exact absurd hseq hs
  | run w =>
    obtain ⟨hbusy, -⟩ := hi.flags_of_run hseq
    rw [hb] at hbusy; cases hbusy
  | faulted => rfl

/-- Settles O28: the moves that change `seq`, each with its event. -/
theorem sequencerTransitions : Obligations.SequencerTransitions := by
  intro s t hi h hne
  cases step_moves hi h with
  | stands | drops | nops | clearsFlags | releases => exact absurd rfl hne
  | stores _ hu => exact absurd hu.seq hne
  | @accepts w rest hr hs hin hl => exact .inl ⟨w, rest, hr, hs, hin, hl, rfl⟩
  | @rejects w rest why hr hs hin hd => exact .inr (.inl ⟨w, rest, why, hr, hs, hin, hd, rfl⟩)
  | @finishes l w i hs _ hin =>
    obtain ⟨-, he⟩ := hi.flags_of_run hs
    exact .inr (.inr (.inl ⟨w, hs, hin, finish_seq_done_err (s := s.withInputs l) he _⟩))
  | @clears rest hr hb hin =>
    exact .inr (.inr (.inr (.inl ⟨rest, hr, hi.faulted_of_ne_idle hb (Ne.symm hne), rfl, .inl hin⟩)))
  | @softResets rest hr hb hin =>
    exact .inr (.inr (.inr (.inl ⟨rest, hr, hi.faulted_of_ne_idle hb (Ne.symm hne), rfl, .inr hin⟩)))
  | @asserts rest hin => exact .inr (.inr (.inr (.inr ⟨rest, .inl hin, assertReset_seq _⟩)))
  | @powersUp rest hin => exact .inr (.inr (.inr (.inr ⟨rest, .inr hin, rfl⟩)))

/-- A move that sets HZD drops an access or refuses a word. -/
theorem moves_setsHazard {s t : State} (h : Moves s t) (h0 : s.hzd = false) (h1 : t.hzd = true) : SetsHazard s := by
  cases h with
  | drops _ _ _ _ why => exact why
  | stores _ hu => simp [hu.hzd, h0] at h1
  | stands | finishes | accepts | rejects | nops | clears | softResets | clearsFlags | asserts | releases | powersUp =>
    simp_all

/-- Settles O29: HZD rises in the dropping move alone and falls in four. -/
theorem hazardFlag : Obligations.HazardFlag := by
  intro s t hi h
  have hm := step_moves hi h
  refine ⟨moves_setsHazard hm, fun h1 h0 => ?_⟩
  cases hm with
  | @clearsFlags v rest _ hin =>
    refine ⟨_, rest, hin, .inl ⟨v, rfl, ?_⟩⟩
    simpa [h1] using h0
  | @softResets rest _ _ hin => exact ⟨_, rest, hin, .inr (.inl rfl)⟩
  | @asserts rest hin => exact ⟨_, rest, hin, .inr (.inr (.inl rfl))⟩
  | @powersUp rest hin => exact ⟨_, rest, hin, .inr (.inr (.inr rfl))⟩
  | stores _ hu => simp [hu.hzd, h1] at h0
  | stands | drops | finishes | accepts | rejects | nops | clears | releases => simp_all

/-- Settles O30: DONE rises in a completion, CLRERR and NOP, and falls in six moves. -/
theorem doneFlag : Obligations.DoneFlag := by
  intro s t hi h
  have hm := step_moves hi h
  constructor
  · intro h0 h1
    cases hm with
    | @finishes l w i hs _ hin =>
      refine .inl ⟨w, hs, ?_, hin⟩
      obtain ⟨-, he⟩ := hi.flags_of_run hs
      obtain ⟨hidle, -⟩ | ⟨-, hd, -⟩ := finish_seq_done_err (s := s.withInputs l) he (ranOf i (s.withInputs l))
      · exact hidle
      · rw [hd] at h1; cases h1
    | @clears rest _ hb hin => exact .inr (.inl ⟨hb, rest, hin⟩)
    | @nops rest _ hs hin => exact .inr (.inr ⟨hs, rest, hin⟩)
    | stores _ hu => simp [hu.done, h0] at h1
    | stands | drops | accepts | rejects | softResets | clearsFlags | asserts | releases | powersUp =>
      simp_all
  · intro h1 h0
    cases hm with
    | @clearsFlags v rest _ hin =>
      refine ⟨_, rest, hin, .inl ⟨v, rfl, ?_⟩⟩
      simpa [h1] using h0
    | @accepts w rest _ _ hin hl => exact ⟨_, rest, hin, .inr (.inl ⟨w, rfl, hl⟩)⟩
    | @rejects w rest why _ _ hin hd => exact ⟨_, rest, hin, .inr (.inr (.inl ⟨w, why, rfl, hd⟩))⟩
    | @softResets rest _ _ hin => exact ⟨_, rest, hin, .inr (.inr (.inr (.inl rfl)))⟩
    | @asserts rest hin => exact ⟨_, rest, hin, .inr (.inr (.inr (.inr (.inl rfl))))⟩
    | @powersUp rest hin => exact ⟨_, rest, hin, .inr (.inr (.inr (.inr (.inr rfl))))⟩
    | finishes l hs _ _ => simp [hi.done_of_run hs] at h1
    | stores _ hu => simp [hu.done, h1] at h0
    | stands | drops | nops | clears | releases => simp_all

end Sys2Proof.Machine
end

/-! # The registers, the resets and the version table -/

section

namespace Sys2Proof.Machine

/-! ### Registers through the host port -/

theorem hostReadValue_of_target {s : State} {a : Index} {r : Reg} (h : target a = .reg r) :
    hostReadValue s a = s.readReg r := by
  simp [hostReadValue, h]

theorem hostWrite_of_target {s : State} {a : Index} {r : Reg} (h : target a = .reg r) (v : Word) :
    hostWrite s a v = writeReg s r v := by
  simp [hostWrite, h]

theorem unlessBusy_of_not_busy {s : State} (h : s.busy = false) (t : State) : unlessBusy s t = t := by
  simp [unlessBusy, h]

/-- Below index `0x10` stand registers and reserved indices only (20_memory.md R41), and a read of them has no effect. -/
theorem hostReadEffect_of_lt (s : State) {a : Index} (h : a.toNat < 0x10) : hostReadEffect s a = s := by
  unfold hostReadEffect
  split
  · rfl
  · rename_i m i ha
    obtain ⟨ha, -⟩ := (target_eq_elem_iff a m i).1 ha
    cases m <;> simp only [memBase] at ha <;> omega
  · rfl

/-- The low `n` bits of a word, zero-extended, are the word masked to `n` bits. -/
theorem setWidth_setWidth_eq_mask (v : Word) {n : Nat} (hn : n ≤ 32) :
    (v.setWidth n).setWidth 32 = v &&& BitVec.ofNat 32 (2 ^ n - 1) := by
  have hle : 2 ^ n ≤ 2 ^ 32 := Nat.pow_le_pow_right (by omega) hn
  have hpos : 0 < 2 ^ n := Nat.two_pow_pos n
  have hlow := Nat.mod_lt v.toNat hpos
  apply BitVec.eq_of_toNat_eq
  rw [BitVec.toNat_and, BitVec.toNat_setWidth, BitVec.toNat_setWidth, BitVec.toNat_ofNat,
    Nat.mod_eq_of_lt (by omega : 2 ^ n - 1 < 2 ^ 32), Nat.and_two_pow_sub_one_eq_mod, Nat.mod_eq_of_lt (by omega)]

/-- The STATUS word is the sum of its four flags at their places. -/
theorem status_eq_ofNat (s : State) :
    s.status = BitVec.ofNat 32 (s.busy.toNat + 2 * s.done.toNat + 4 * s.err.toNat + 8 * s.hzd.toNat) := by
  have hall : ∀ b d e h : Bool, ((bit h ++ bit e ++ bit d ++ bit b).setWidth 32 : Word) =
      BitVec.ofNat 32 (b.toNat + 2 * d.toNat + 4 * e.toNat + 8 * h.toNat) := by decide
  exact hall s.busy s.done s.err s.hzd

/-- Settles O14: the read and the write of STATUS, through the step. -/
theorem statusReadsAndClears : Obligations.StatusReadsAndClears := by
  intro s rest hr
  have hclear : ∀ f b : Bool, (f && !b) = if b then false else f := by decide
  constructor
  · intro hin
    rw [step_read hr hin, ← status_eq_ofNat]
    rfl
  · intro v hin
    rw [step_write hr hin, ← hclear, ← hclear]
    rfl

/-- Settles O15: each index names its register, and the fault registers and ID take no write. -/
theorem registerReads : Obligations.RegisterReads := by
  intro s
  refine ⟨rfl, rfl, rfl, rfl, rfl, rfl, rfl, rfl, rfl, rfl, fun a h => hostReadEffect_of_lt s h, ?_⟩
  rintro a v (rfl | rfl | rfl)
  · exact hostWrite_of_target (r := .ident) rfl v
  · exact hostWrite_of_target (r := .errcode) rfl v
  · exact hostWrite_of_target (r := .errinfo) rfl v

theorem readReg_information_of_row {s : State} {r : VersionRow} (h : s.row = some r) :
    s.readReg .ndata = BitVec.ofNat 32 r.dataCount ∧ s.readReg .ntotal = BitVec.ofNat 32 r.total ∧
      s.readReg .side = BitVec.ofNat 32 r.side := by
  simp [State.readReg, h]

theorem readReg_information_of_no_row {s : State} (h : s.row = none) :
    s.readReg .ndata = 0 ∧ s.readReg .ntotal = 0 ∧ s.readReg .side = 0 := by
  simp [State.readReg, h]

/-- VER holds a version of `VSET` exactly where it has a row. -/
theorem State.row_isSome_iff (s : State) : s.row.isSome = true ↔ s.ver.toNat ∈ s.config.vset :=
  versionRow_isSome_iff s.config s.ver.toNat

/-- Settles O16: the three registers, by whether VER has a row. -/
theorem informationRegisters : Obligations.InformationRegisters := by
  intro s
  refine ⟨fun r hr => ?_, fun hv hn => ?_, fun hv => ?_, fun hc hv => ?_, ?_⟩
  · obtain ⟨hn, ht, hside⟩ := readReg_information_of_row hr
    rw [VersionRow.side, State.row_version hr] at hside
    exact ⟨hn, ht, hside⟩
  · rw [← State.row_isSome_iff, hn] at hv
    cases hv
  · refine readReg_information_of_no_row ?_
    rwa [← State.row_isSome_iff, Option.not_isSome_iff_eq_none] at hv
  · exact readReg_information_of_no_row (State.row_eq_none hc hv)
  · rintro a v (rfl | rfl | rfl)
    · exact hostWrite_of_target (r := .ndata) rfl v
    · exact hostWrite_of_target (r := .ntotal) rfl v
    · exact hostWrite_of_target (r := .side) rfl v

/-- Settles O17: the write of each register as a whole next state, and its read as the masked value. -/
theorem registerWriteReadsBack : Obligations.RegisterWriteReadsBack := by
  intro s v
  have hwrites : s.busy = false →
      hostWrite s 0x6 v = .next { s with ver := v.setWidth 6 } ∧
      hostWrite s 0x7 v = .next { s with tlen := v.setWidth 16 } ∧
      hostWrite s 0x8 v = .next { s with mask := v.setWidth 3 } ∧
      hostWrite s 0x9 v = .next { s with rsrc := v.setWidth 11 } ∧
      hostWrite s 0xA v = .next { s with rlen := v.setWidth 12 } := by
    intro hb
    refine ⟨?_, ?_, ?_, ?_, ?_⟩ <;> exact congrArg Host.Outcome.next (unlessBusy_of_not_busy hb _)
  have hie : hostWrite s 0x5 v = .next { s with ie := v.setWidth 2 } := hostWrite_of_target (r := .ie) rfl v
  refine ⟨hwrites, hie, fun a n t ha hb ht => ?_⟩
  simp only [List.mem_cons, Prod.mk.injEq, List.not_mem_nil, or_false] at ha
  have hread : ∀ {u : State}, hostWrite s a v = .next u → hostReadValue u a = (v.setWidth n).setWidth 32 →
      n ≤ 32 → hostReadValue t a = v &&& BitVec.ofNat 32 (2 ^ n - 1) := by
    intro u hu hval hn
    rw [hu] at ht
    cases ht
    rw [hval, setWidth_setWidth_eq_mask v hn]
  obtain ⟨rfl, rfl⟩ | ha := ha
  · exact hread hie rfl (by decide)
  have hb : s.busy = false := by
    refine hb.resolve_right ?_
    rintro rfl
    simp at ha
  obtain ⟨hver, htlen, hmask, hrsrc, hrlen⟩ := hwrites hb
  obtain ⟨rfl, rfl⟩ | ⟨rfl, rfl⟩ | ⟨rfl, rfl⟩ | ⟨rfl, rfl⟩ | ⟨rfl, rfl⟩ := ha
  · exact hread hver rfl (by decide)
  · exact hread htlen rfl (by decide)
  · exact hread hmask rfl (by decide)
  · exact hread hrsrc rfl (by decide)
  · exact hread hrlen rfl (by decide)

/-! ### Power-up -/

theorem Memory.get?_empty (m : MemName) (i : Nat) : Memory.empty.get? m i = none := by cases m <;> rfl

theorem Memory.elem_empty (p : Nat) (m : MemName) (i : Nat) :
    Memory.empty.elem p m i = Config.unwritten p m i &&& widthMask m := by
  rw [Memory.elem, Memory.get?_empty]

/-- Settles O21: the fields of the state after reset, and the whole state after a power-up. -/
theorem resetValues : Obligations.ResetValues := by
  have hrow : State.reset.row = none := State.row_eq_none cfg_wf (.inl rfl)
  obtain ⟨hn, ht, hside⟩ := readReg_information_of_no_row hrow
  refine ⟨State.reset.resetRegisters_registersReset, Memory.get?_empty, rfl, rfl, rfl, rfl, hn, ht, hside, ?_⟩
  intro s rest hin
  refine ⟨powerUp (s.withInputs rest), step_cons hin, (s.withInputs rest).resetRegisters_registersReset, ?_, rfl⟩
  exact Memory.elem_empty (s.powerUps + 1)

/-! ### Hardware reset in the middle of a command -/

/-- Scrubbing leaves every other element as it was. -/
theorem scrub_elem_other (n : Nat) (s : State) {c : MemName × Nat} {m : MemName} {j : Nat} (h : (m, j) ≠ c) :
    (scrub n s c).elem m j = s.elem m j := by
  obtain ⟨v, hv, -⟩ := scrub_eq n s c
  rw [hv, State.elem_setMem, Memory.elem_put, if_neg]
  · rfl
  · rintro ⟨rfl, rfl⟩
    exact h rfl

theorem scrubAll_elem_other (n : Nat) (l : List (MemName × Nat)) (s : State) {m : MemName} {j : Nat}
    (h : (m, j) ∉ l) : (l.foldl (scrub n) s).elem m j = s.elem m j := by
  induction l generalizing s with
  | nil => rfl
  | cons c l ih =>
    rw [List.mem_cons, not_or] at h
    obtain ⟨hc, hl⟩ := h
    rw [List.foldl_cons, ih _ hl, scrub_elem_other n s hc]

/-- Of a cell, bit 1 is kept by its scrubbing (log 9). -/
theorem scrubbed_rsv (a b : Byte) :
    (((a &&& 0x02) ||| (b &&& 0x01)) &&& widthMask .mat).getLsbD 1 = a.getLsbD 1 := by
  simp [widthMask]

theorem scrub_rsv (n : Nat) (s : State) (c : MemName × Nat) (row col : Nat) :
    (scrub n s c).rsv row col = s.rsv row col := by
  by_cases h : (.mat, cellIndex row col) = c
  · subst h
    obtain ⟨v, hv, hbits⟩ := scrub_eq n s (.mat, cellIndex row col)
    rw [hv, State.rsv, State.elem_setMem, Memory.elem_put, if_pos ⟨rfl, rfl⟩, hbits rfl, scrubbed_rsv]
    rfl
  · rw [State.rsv, scrub_elem_other n s h]
    rfl

theorem scrubAll_rsv (n : Nat) (l : List (MemName × Nat)) (s : State) (row col : Nat) :
    (l.foldl (scrub n) s).rsv row col = s.rsv row col := by
  induction l generalizing s with
  | nil => rfl
  | cons c l ih => rw [List.foldl_cons, ih, scrub_rsv]

/-- A range of elements is the elements between its ends. -/
theorem mem_rangeOf {m m' : MemName} {i n j : Nat} : (m, j) ∈ rangeOf m' i n ↔ m = m' ∧ i ≤ j ∧ j < i + n := by
  simp only [rangeOf, List.mem_map, List.mem_range, Prod.mk.injEq]
  constructor
  · rintro ⟨k, hk, rfl, rfl⟩
    exact ⟨rfl, by omega, by omega⟩
  · rintro ⟨rfl, h1, h2⟩
    exact ⟨j - i, by omega, rfl, by omega⟩

theorem fmtWrites_of_mem {r : VersionRow} {m : MemName} {j : Nat} (h : (m, j) ∈ rangeOf .msg 0 r.dataCount) :
    FmtWrites r m j := by
  obtain ⟨hm, -, hj⟩ := mem_rangeOf.1 h
  exact ⟨hm, by omega⟩

theorem ilvWrites_of_mem {r : VersionRow} {m : MemName} {j : Nat} (h : (m, j) ∈ rangeOf .stream 0 r.total) :
    IlvWrites r m j := by
  obtain ⟨hm, -, hj⟩ := mem_rangeOf.1 h
  exact ⟨hm, by omega⟩

theorem rsencWrites_of_mem {r : VersionRow} {m : MemName} {j : Nat} (h : (m, j) ∈ ecbElems r) : RsencWrites r m j := by
  obtain ⟨b, hb, h⟩ := List.mem_flatMap.1 h
  obtain ⟨hm, h1, h2⟩ := mem_rangeOf.1 h
  rw [ecbIndex] at h1 h2
  exact ⟨hm, b, j - b * 32, List.mem_range.1 hb, by omega, by omega⟩

theorem placeWrites_of_mem {s : State} {r : VersionRow} {m : MemName} {j : Nat} (h : (m, j) ∈ s.freeElems r) :
    PlaceWrites s r m j := by
  obtain ⟨⟨row, col⟩, hc, he⟩ := List.mem_map.1 h
  obtain ⟨hsq, hfree⟩ := List.mem_filter.1 hc
  obtain ⟨hrow, hcol⟩ := (mem_squareCells r.side row col).1 hsq
  cases he
  exact ⟨rfl, row, col, ⟨hrow, hcol, by simpa using hfree⟩, rfl⟩

/-- The elements that a command cut short gives free values are elements that the table of 20_memory.md R53 lets it
write. -/
theorem mayWrite_of_mem {s : State} {i : Instr} {m : MemName} {j : Nat} (h : (m, j) ∈ s.mayWrite i) :
    MayWrite s i m j := by
  cases hr : s.row with
  | none =>
    cases i with
    | rsdiv e blk => exact mem_rangeOf.1 h
    | nop | fmt | rsenc | ilv | place | encode | clrerr | srst => simp [State.mayWrite, hr] at h
  | some r =>
    cases i with
    | nop | clrerr | srst => cases h
    | rsdiv e blk => exact mem_rangeOf.1 h
    | fmt => exact ⟨r, hr, fmtWrites_of_mem (by simpa only [State.mayWrite, hr] using h)⟩
    | rsenc => exact ⟨r, hr, rsencWrites_of_mem (by simpa only [State.mayWrite, hr] using h)⟩
    | ilv => exact ⟨r, hr, ilvWrites_of_mem (by simpa only [State.mayWrite, hr] using h)⟩
    | place => exact ⟨r, hr, placeWrites_of_mem (by simpa only [State.mayWrite, hr] using h)⟩
    | encode =>
      simp only [State.mayWrite, hr, List.mem_append] at h
      refine ⟨r, hr, ?_⟩
      obtain ((h | h) | h) | h := h
      · exact .inl (fmtWrites_of_mem h)
      · exact .inr (.inl (rsencWrites_of_mem h))
      · exact .inr (.inr (.inl (ilvWrites_of_mem h)))
      · exact .inr (.inr (.inr (placeWrites_of_mem h)))

theorem abandon_elem_other {s : State} {w : Word} {i : Instr} {m : MemName} {j : Nat} (hd : decode w = .ok i)
    (h : ¬ MayWrite s i m j) : (abandon s w).elem m j = s.elem m j := by
  rw [abandon, hd]
  exact scrubAll_elem_other _ _ s fun hm => h (mayWrite_of_mem hm)

theorem abandon_rsv (s : State) (w : Word) (row col : Nat) : (abandon s w).rsv row col = s.rsv row col := by
  unfold abandon
  split
  · exact scrubAll_rsv _ _ s row col
  · rfl

theorem hardReset_of_run {s : State} {w : Word} (h : s.seq = .run w) : hardReset s = (abandon s w).resetRegisters := by
  rw [hardReset, h]

/-- Outside `RUN(w)` hardware reset touches no memory. -/
theorem hardReset_of_not_run {s : State} (h : s.seq = .idle ∨ s.seq = .faulted) : hardReset s = s.resetRegisters := by
  rcases h with h | h <;> rw [hardReset, h]

theorem hardReset_rsv (s : State) (row col : Nat) : (hardReset s).rsv row col = s.rsv row col := by
  unfold hardReset
  split
  · exact abandon_rsv s _ row col
  · rfl
  · rfl

/-- Settles O22: hardware reset scrubs the elements the running command may write, of a cell the dark bit alone, and puts
the registers at their reset values. -/
theorem hardResetFromAnyState : Obligations.HardResetFromAnyState := by
  intro s rest hin
  refine ⟨assertReset (s.withInputs rest), step_cons hin, assertReset_registersReset _, rfl, assertReset_config _,
    assertReset_inputs _, assertReset_log _, fun hs => ?_, hardReset_rsv (s.withInputs rest), ?_⟩
  · rw [assertReset, hardReset_of_not_run (s := s.withInputs rest) hs]
    rfl
  · intro w i m j hs hd hm
    rw [assertReset, hardReset_of_run (s := s.withInputs rest) hs]
    exact abandon_elem_other (s := s.withInputs rest) hd hm

/-! ### The version table -/

/-- What the printed rows say beyond the well-formedness of the configuration (10_state.md R32, R33). -/
theorem cfg_rows_bounds : ∀ r ∈ cfg.vpt, r.dataCount ≤ 1666 ∧ r.total ≤ 3706 ∧ (r.g2 = 0 ∨ r.d2 = r.d1 + 1) := by
  decide +kernel

/-- Settles O59: the facts of every well-formed configuration, and the printed bounds. -/
theorem versionTableIsWellFormed : Obligations.VersionTableIsWellFormed := by
  refine ⟨fun v => ?_, fun v r hr => ?_⟩
  · rw [← Option.ne_none_iff_isSome, Ne, versionRow_eq_none_iff]
    omega
  · obtain ⟨hmem, hv⟩ := versionRow_mem hr
    obtain ⟨hn, ht, hd2⟩ := cfg_rows_bounds r hmem
    have hf := rowFacts cfg_wf hr
    exact ⟨hv, hf.blocks_pos, hf.blocks_le, hf.in_eset, hf.e_le, hn, ht, hf.d1_pos, hd2, hf.rem_le,
      fun b hb => block_fits hb⟩

end Sys2Proof.Machine
end

/-! # The memories

The host's accesses to elements and to reserved indices, the runs from reset, and the elements each command leaves
alone. -/

section

namespace Sys2Proof.Machine

/-! ### Elements through the host port -/

theorem hostReadValue_of_elem {s : State} {a : Index} {m : MemName} {i : Nat} (hb : s.busy = false)
    (h : target a = .elem m i) : hostReadValue s a = (s.elem m i).setWidth 32 := by
  simp [hostReadValue, h, hb]

theorem hostWrite_of_elem {s : State} {a : Index} {m : MemName} {i : Nat} (h : target a = .elem m i) (v : Word) :
    hostWrite s a v = .next (unlessBusy s (s.setMem (s.mem.put m i (v.setWidth 8)))) := by
  simp [hostWrite, h]

theorem hostReadEffect_of_not_busy {s : State} (h : s.busy = false) (a : Index) : hostReadEffect s a = s := by
  unfold hostReadEffect
  split
  · rfl
  · exact unlessBusy_of_not_busy h s
  · rfl

/-- A word index names at most one element, and an element has one word index (20_memory.md R41). -/
theorem target_elem_inj {a b : Index} {m : MemName} {i : Nat} (ha : target a = .elem m i) (hb : target b = .elem m i) :
    a = b := by
  obtain ⟨ha, -⟩ := (target_eq_elem_iff a m i).1 ha
  obtain ⟨hb, -⟩ := (target_eq_elem_iff b m i).1 hb
  exact BitVec.eq_of_toNat_eq (ha.trans hb.symm)

/-- Registers do not show the memories. -/
theorem readReg_setMem (s : State) (M : Memory) (r : Reg) : (s.setMem M).readReg r = s.readReg r := by
  cases r <;> rfl

/-- The bits of a written word that an element keeps, read back as a word (20_memory.md R42). -/
theorem setWidth_and_widthMask (v : Word) (m : MemName) :
    (v.setWidth 8 &&& widthMask m).setWidth 32 = v &&& (if m = .mat then 0x3 else 0xFF) := by
  have hmask : BitVec.ofNat 32 (2 ^ 8 - 1) &&& (widthMask m).setWidth 32 = if m = .mat then 0x3 else 0xFF := by
    cases m <;> decide
  rw [BitVec.setWidth_and, setWidth_setWidth_eq_mask v (by decide), BitVec.and_assoc, hmask]

/-- A write of one element changes what is read at no other word index. -/
theorem hostReadValue_put_other {s : State} {a b : Index} {m : MemName} {i : Nat} (ha : target a = .elem m i)
    (hne : b ≠ a) (v : Byte) : hostReadValue (s.setMem (s.mem.put m i v)) b = hostReadValue s b := by
  unfold hostReadValue
  split
  · exact readReg_setMem s _ _
  · rename_i m' i' hb
    have hother : ¬ (m' = m ∧ i' = i) := by
      rintro ⟨rfl, rfl⟩
      exact hne (target_elem_inj hb ha)
    rw [State.elem_setMem, Memory.elem_put, if_neg hother]
    rfl
  · rfl

/-- Settles O18: the write is performed, the element reads as the bits it keeps, and no other index names it. -/
theorem elementReadAfterWrite : Obligations.ElementReadAfterWrite := by
  intro s a v m i hb ha
  have hb' : (s.setMem (s.mem.put m i (v.setWidth 8))).busy = false := hb
  refine ⟨s.setMem (s.mem.put m i (v.setWidth 8)), ?_, ?_, fun b hne => hostReadValue_put_other ha hne _,
    hostReadEffect_of_not_busy hb' a⟩
  · rw [hostWrite_of_elem ha, unlessBusy_of_not_busy hb]
  · rw [hostReadValue_of_elem hb' ha, State.elem_setMem, Memory.elem_put, if_pos ⟨rfl, rfl⟩, setWidth_and_widthMask]

/-! ### Accesses while a command runs -/

theorem unlessBusy_of_busy {s : State} (h : s.busy = true) (t : State) : unlessBusy s t = s.setHzd := by
  simp [unlessBusy, h]

theorem writeCmd_of_busy {s : State} (h : s.busy = true) (w : Word) : writeCmd s w = .next s.setHzd := by
  simp [writeCmd, h]

/-- CMD, the operand registers and the elements: what a write while BUSY is dropped for (20_memory.md R46). -/
theorem hostWrite_of_busy {s : State} {a : Index} (hb : s.busy = true) (v : Word)
    (ha : a = 0x1 ∨ a = 0x6 ∨ a = 0x7 ∨ a = 0x8 ∨ a = 0x9 ∨ a = 0xA ∨ ∃ m i, target a = .elem m i) :
    hostWrite s a v = .next s.setHzd := by
  obtain rfl | rfl | rfl | rfl | rfl | rfl | ⟨m, i, ha⟩ := ha
  · exact writeCmd_of_busy hb v
  case inr.inr.inr.inr.inr.inr => rw [hostWrite_of_elem ha, unlessBusy_of_busy hb]
  all_goals exact congrArg Host.Outcome.next (unlessBusy_of_busy hb _)

/-- An element read while BUSY gives 0 and sets HZD. -/
theorem hostRead_of_busy {s : State} {a : Index} {m : MemName} {i : Nat} (hb : s.busy = true)
    (ha : target a = .elem m i) : hostRead s a = s.setHzd.record 0 := by
  simp [hostRead, hostReadEffect, hostReadValue, ha, hb, unlessBusy_of_busy]

theorem hostRead_of_reg {s : State} {a : Index} {r : Reg} (ha : target a = .reg r) :
    hostRead s a = s.record (s.readReg r) := by
  simp [hostRead, hostReadEffect, hostReadValue, ha]

/-- Settles O19: dropped writes and reads set HZD; registers are read, and IE and STATUS written, as ever. -/
theorem accessesWhileBusy : Obligations.AccessesWhileBusy := by
  intro s rest hr hb
  refine ⟨fun a v hin ha => ?_, fun a m i hin ha => ?_, fun a r hin ha => ?_, fun v hin => ?_, fun v hin => ?_⟩
  · rw [step_write hr hin, hostWrite_of_busy (s := s.withInputs rest) hb v ha]
    rfl
  · rw [step_read hr hin, hostRead_of_busy (s := s.withInputs rest) hb ha]
    rfl
  · rw [step_read hr hin, hostRead_of_reg ha]
    cases r <;> rfl
  · exact (step_write hr hin).trans (hostWrite_of_target (r := .ie) rfl v)
  · obtain ⟨-, hwrite⟩ := statusReadsAndClears s rest hr
    exact hwrite v hin

/-! ### Reserved indices -/

/-- A word index names an element of memory `m` exactly when the memory has one at the index's offset. -/
theorem exists_target_elem_iff (a : Index) (m : MemName) :
    (∃ i, target a = .elem m i) ↔ memBase m ≤ a.toNat ∧ implemented m (a.toNat - memBase m) = true := by
  simp only [target_eq_elem_iff]
  constructor
  · rintro ⟨i, ha, hi⟩
    rw [ha, Nat.add_sub_cancel_left]
    exact ⟨Nat.le_add_right _ _, hi⟩
  · rintro ⟨hle, hi⟩
    exact ⟨a.toNat - memBase m, by omega, hi⟩

/-- A word index is reserved exactly when it names no register and no element. -/
theorem target_eq_reserved_iff (a : Index) :
    target a = .reserved ↔
      14 ≤ a.toNat ∧ ∀ m, ¬ (memBase m ≤ a.toNat ∧ implemented m (a.toNat - memBase m) = true) := by
  simp only [← regAt_eq_none_iff, ← exists_target_elem_iff]
  constructor
  · intro h
    refine ⟨Option.eq_none_iff_forall_ne_some.2 fun r hreg => ?_, ?_⟩
    · rw [target_reg hreg] at h; cases h
    · rintro m ⟨i, hi⟩
      rw [hi] at h; cases h
  · rintro ⟨hreg, helem⟩
    cases h : target a with
    | reserved => rfl
    | reg r => rw [(target_eq_reg_iff a r).1 h] at hreg; cases hreg
    | elem m i => exact absurd ⟨i, h⟩ (helem m)

theorem forall_memName (P : MemName → Prop) : (∀ m, P m) ↔ P .text ∧ P .msg ∧ P .ecb ∧ P .stream ∧ P .mat := by
  constructor
  · intro h
    exact ⟨h _, h _, h _, h _, h _⟩
  · rintro ⟨htext, hmsg, hecb, hstream, hmat⟩ m
    cases m <;> assumption

/-- Settles O20: the complement of the registers and of the five memories, and the two accesses there. -/
theorem reservedIndices : Obligations.ReservedIndices := by
  constructor
  · intro a
    have hlt := a.isLt
    rw [target_eq_reserved_iff, forall_memName]
    dsimp only [memBase, implemented]
    simp only [Bool.and_eq_true, decide_eq_true_eq]
    omega
  · intro s a rest hr ha
    refine ⟨fun hin => ?_, fun v hin => ?_⟩
    · rw [step_read hr hin]
      simp only [hostRead, hostReadEffect, hostReadValue, ha]
      rfl
    · rw [step_write hr hin]
      simp only [hostWrite, ha]
      rfl

/-! ### Runs -/

theorem writeCmd_next (s : State) (w : Word) : ∃ t, writeCmd s w = .next t := by
  unfold writeCmd
  split
  · exact ⟨_, rfl⟩
  split
  · split
    · exact exec_next _ s
    · split
      · exact exec_next _ s
      · exact ⟨_, rfl⟩
  split
  · split
    · exact ⟨_, rfl⟩
    · exact exec_next _ s
  · exact ⟨_, rfl⟩

theorem hostWrite_next (s : State) (a : Index) (v : Word) : ∃ t, hostWrite s a v = .next t := by
  unfold hostWrite
  split
  · rename_i r _
    cases r
    case cmd => exact writeCmd_next s v
    all_goals exact ⟨_, rfl⟩
  · exact ⟨_, rfl⟩
  · exact ⟨_, rfl⟩

/-- Where `seq` is `RUN(w)` under the invariant, the engine's turn is the end of a long command. -/
theorem engineTurn_of_run {s : State} (hi : s.Inv) {w : Word} (hs : s.seq = .run w) :
    ∃ i, engineTurn s = .next (s.finish (ranOf i s)) := by
  obtain ⟨hseq, -⟩ := hi
  simp only [State.seqAgrees, hs, Bool.and_eq_true] at hseq
  obtain ⟨-, hlong⟩ := hseq
  unfold spellsLong at hlong
  unfold engineTurn
  rw [hs]
  cases hd : decode w with
  | error _ => simp [hd] at hlong
  | ok i =>
    have hl : i.isLong = true := by simpa [hd] using hlong
    exact ⟨i, by simp only [hd, hl, if_true, exec_long hl]⟩

theorem engineTurn_of_not_run {s : State} (h : ∀ w, s.seq ≠ .run w) : engineTurn s = .next s := by
  unfold engineTurn
  split
  · rename_i w hs
    exact absurd hs (h w)
  · rfl
  · rfl

theorem engineTurn_next {s : State} (hi : s.Inv) : ∃ t, engineTurn s = .next t := by
  by_cases h : ∃ w, s.seq = .run w
  · obtain ⟨w, hs⟩ := h
    obtain ⟨i, hstep⟩ := engineTurn_of_run hi hs
    exact ⟨_, hstep⟩
  · exact ⟨s, engineTurn_of_not_run fun w hs => h ⟨w, hs⟩⟩

/-- The events to come are no part of the invariant. -/
theorem State.Inv.withInputs {s : State} (hi : s.Inv) (l : List Event) : (s.withInputs l).Inv := hi

/-- Under the invariant a step has a next state, whatever event comes next (70_reset_and_hazards.md R260). -/
theorem State.Inv.step_next {s : State} (hi : s.Inv) : ∃ t, step s = .next t := by
  cases hin : s.inputs with
  | nil => rw [step_nil hin]; exact engineTurn_next hi
  | cons e rest =>
    rw [step_cons hin]
    cases e with
    | write a v =>
      rw [occur]
      split
      · exact ⟨_, rfl⟩
      · exact hostWrite_next _ a v
    | wait =>
      rw [occur]
      split
      · exact ⟨_, rfl⟩
      · split
        · exact engineTurn_next hi
        · exact ⟨_, rfl⟩
    | engine => exact engineTurn_next (hi.withInputs rest)
    | read | assertReset | releaseReset | powerUp => exact ⟨_, rfl⟩

/-- A run from a state of the invariant never stops, stays in the invariant and keeps the parameters. -/
theorem State.Inv.run_next {s : State} (hi : s.Inv) (n : Nat) :
    ∃ t, Host.Core.run Sys2Proof.core n s = .next t ∧ State.Inv t ∧ State.config t = s.config := by
  induction n generalizing s with
  | zero => exact ⟨s, rfl, hi, rfl⟩
  | succ n ih =>
    obtain ⟨u, hu⟩ := hi.step_next
    obtain ⟨hinv, hcfg⟩ := stepKeepsTheInvariant s u hi hu
    obtain ⟨t, ht, htinv, htcfg⟩ := ih hinv
    exact ⟨t, (run_succ hu n).trans ht, htinv, htcfg.trans hcfg⟩

theorem State.running_eq_false_iff (s : State) : s.running = false ↔ ∀ w, s.seq ≠ .run w := by
  cases h : s.seq <;> simp [State.running, h]

theorem State.ended_iff (s : State) : s.ended = true ↔ s.inputs = [] ∧ ∀ w, s.seq ≠ .run w := by
  rw [State.ended, Bool.and_eq_true, List.isEmpty_iff, Bool.not_eq_true', State.running_eq_false_iff]

/-- With no event left, a run that has not ended has a command in execution. -/
theorem exists_run_of_not_ended {s : State} (hin : s.inputs = []) (h : s.ended = false) : ∃ w, s.seq = .run w := by
  refine Classical.byContradiction fun hno => ?_
  rw [s.ended_iff.2 ⟨hin, fun w hs => hno ⟨w, hs⟩⟩] at h
  cases h

theorem step_of_ended {s : State} (h : s.ended = true) : step s = .next s := by
  obtain ⟨hin, hs⟩ := s.ended_iff.1 h
  rw [step_nil hin, engineTurn_of_not_run hs]

theorem run_of_ended {s : State} (h : s.ended = true) (n : Nat) : Host.Core.run Sys2Proof.core n s = .next s := by
  induction n with
  | zero => rfl
  | succ n ih => rw [run_succ (step_of_ended h), ih]

theorem finish_not_run (s : State) (r : Ran) (w : Word) : (s.finish r).seq ≠ .run w := by
  cases r <;> simp

/-- Settles O27: progress and preservation along the run, and what the end of a run is. -/
theorem everyRunFromResetGoesOn : Obligations.EveryRunFromResetGoesOn := by
  refine ⟨fun c l n hc => ?_, State.ended_iff, fun s n h => run_of_ended h n, fun s hi hin hne => ?_⟩
  · have hinv : State.Inv { State.reset with config := c, inputs := l } :=
      inv_of_registersReset State.reset.resetRegisters_registersReset Memory.wf_empty hc
    exact hinv.run_next n
  · obtain ⟨w, hs⟩ := exists_run_of_not_ended hin hne
    obtain ⟨i, hstep⟩ := engineTurn_of_run hi hs
    refine ⟨_, (step_nil hin).trans hstep, (State.ended_iff _).2 ⟨?_, finish_not_run s _⟩⟩
    rw [State.finish_inputs, hin]

/-! ### What a command leaves alone -/

/-- `t` reads as `s` at every element outside `W`, and in the whole `rsv` plane. -/
structure KeepsOutside (W : MemName → Nat → Prop) (s t : State) : Prop where
  elem_eq : ∀ m j, ¬ W m j → t.elem m j = s.elem m j
  rsv_eq : ∀ row col, t.rsv row col = s.rsv row col

theorem KeepsOutside.refl (W : MemName → Nat → Prop) (s : State) : KeepsOutside W s s :=
  ⟨fun _ _ _ => rfl, fun _ _ => rfl⟩

theorem KeepsOutside.trans {W : MemName → Nat → Prop} {s t u : State} (h : KeepsOutside W s t)
    (h' : KeepsOutside W t u) : KeepsOutside W s u :=
  ⟨fun m j hm => (h'.elem_eq m j hm).trans (h.elem_eq m j hm), fun row col => (h'.rsv_eq row col).trans (h.rsv_eq row col)⟩

theorem KeepsOutside.mono {W W' : MemName → Nat → Prop} {s t : State} (h : KeepsOutside W s t)
    (hW : ∀ m j, W m j → W' m j) : KeepsOutside W' s t :=
  ⟨fun m j hm => h.elem_eq m j fun hw => hm (hW m j hw), h.rsv_eq⟩

theorem State.rsv_eq_of_cells {s t : State} (hp : t.powerUps = s.powerUps) (hc : t.mem.cells .mat = s.mem.cells .mat)
    (row col : Nat) : t.rsv row col = s.rsv row col := by
  simp only [State.rsv, State.elem_eq_of_cells hp hc]

/-- Consecutive writes into a memory of bytes keep what lies outside their range. -/
theorem putAll_keepsOutside {W : MemName → Nat → Prop} (s : State) {m : MemName} {i : Nat} {l : List Byte}
    (hm : m ≠ .mat) (hW : ∀ j, i ≤ j → j < i + l.length → W m j) :
    KeepsOutside W s (s.setMem (s.mem.putAll m i l)) := by
  refine ⟨fun m' j hw => ?_, State.rsv_eq_of_cells rfl (Memory.cells_putAll_other _ _ _ hm.symm)⟩
  rw [State.elem_setMem, Memory.elem_putAll, if_neg]
  · rfl
  · rintro ⟨rfl, h1, h2⟩
    exact hw (hW j h1 h2)

/-- Without a row the body is not run, and nothing is written. -/
theorem withVersion_keepsOutside {W : MemName → Nat → Prop} {s : State} {body : VersionRow → Ran}
    (h : ∀ r, s.row = some r → KeepsOutside W s (s.setMem (body r).mem)) :
    KeepsOutside W s (s.setMem (withVersion s body).mem) := by
  cases hr : s.row with
  | none => rw [withVersion_none hr]; exact .refl W s
  | some r => rw [withVersion_some hr]; exact h r hr

theorem fmtBody_keepsOutside (s : State) : KeepsOutside (MayWrite s .fmt) s (s.setMem (fmtBody s).mem) := by
  refine withVersion_keepsOutside fun r hr => ?_
  split
  · exact .refl _ s
  · rename_i hcap
    obtain ⟨-, hfits⟩ := (exceedsCapacity_eq_false_iff _ _).1 (by simpa using hcap)
    refine putAll_keepsOutside s (by decide) fun j _ hj => ?_
    rw [formatted_length s hfits] at hj
    exact ⟨r, hr, rfl, by omega⟩

theorem rsdivBody_keepsOutside {s : State} (hc : s.config.wf = true) (e blk : Nat) :
    KeepsOutside (MayWrite s (.rsdiv e blk)) s (s.setMem (rsdivBody e blk s).mem) := by
  cases hbad : badOperands s e with
  | true => rw [rsdivBody_bad blk hbad]; exact .refl _ s
  | false =>
    obtain ⟨hgen, hslice⟩ := (badOperands_eq_false_iff s e).1 hbad
    obtain ⟨g, hg⟩ := Option.isSome_iff_exists.1 hgen
    have hlen : (rsdivResult s e).length = e := by rw [rsdivResult, hg]; exact rsdiv_length hc _ _ hg
    rw [rsdivBody_ok blk hgen hslice]
    refine putAll_keepsOutside s (by decide) fun j h1 h2 => ?_
    rw [hlen] at h2
    exact ⟨rfl, h1, h2⟩

theorem rsencBody_keepsOutside {s : State} (hc : s.config.wf = true) :
    KeepsOutside (MayWrite s .rsenc) s (s.setMem (rsencBody s).mem) := by
  refine withVersion_keepsOutside fun r hr => ?_
  refine ⟨fun m j hw => ?_, State.rsv_eq_of_cells rfl (rsencMemory_cells_other s r (by decide))⟩
  rw [State.elem_setMem, Ran.mem_ended, rsencMemory_elem hc hr, if_neg]
  · rfl
  · rintro ⟨hm, hb, he⟩
    exact hw ⟨r, hr, hm, j / 32, j % 32, hb, he, by omega⟩

theorem ilvBody_keepsOutside {s : State} (hc : s.config.wf = true) :
    KeepsOutside (MayWrite s .ilv) s (s.setMem (ilvBody s).mem) := by
  refine withVersion_keepsOutside fun r hr => ?_
  refine putAll_keepsOutside s (by decide) fun j _ hj => ?_
  rw [interleaved_length s (rowFacts hc hr).d2_ge] at hj
  exact ⟨r, hr, rfl, by omega⟩

/-- The walk changes the memories and nothing else. -/
theorem walk_eq (t : Nat) (l : List (Nat × Nat)) (q : State × Nat) :
    (l.foldl (placeCell t) q).1 = q.1.setMem (l.foldl (placeCell t) q).1.mem := by
  induction l generalizing q with
  | nil => rfl
  | cons c l ih =>
    rw [List.foldl_cons, ih]
    unfold placeCell
    split <;> rfl

/-- A step of the walk in the square keeps all but the free cells of the state the walk began in, since it has changed no
`rsv` bit. -/
theorem placeCell_keepsOutside {s : State} {r : VersionRow} {q : State × Nat} {c : Nat × Nat}
    (hc : c.1 < r.side ∧ c.2 < r.side) (h : KeepsOutside (PlaceWrites s r) s q.1) :
    KeepsOutside (PlaceWrites s r) s (placeCell r.total q c).1 := by
  obtain ⟨hrow, hcol⟩ := hc
  unfold placeCell
  split
  · exact h
  · rename_i hfree
    rw [h.rsv_eq, Bool.not_eq_true] at hfree
    refine h.trans ⟨fun m j hw => ?_, State.setDark_rsv _ _ _ _⟩
    rw [State.setDark_elem, if_neg]
    rintro ⟨hm, hj⟩
    exact hw ⟨hm, c.1, c.2, ⟨hrow, hcol, hfree⟩, hj⟩

/-- A walk over cells of the square writes free cells only (45_placement.md R170). -/
theorem walk_keepsOutside {s : State} {r : VersionRow} (l : List (Nat × Nat)) {q : State × Nat}
    (hl : ∀ c ∈ l, c.1 < r.side ∧ c.2 < r.side) (h : KeepsOutside (PlaceWrites s r) s q.1) :
    KeepsOutside (PlaceWrites s r) s (l.foldl (placeCell r.total) q).1 := by
  induction l generalizing q with
  | nil => exact h
  | cons c l ih =>
    obtain ⟨hc, hl⟩ := List.forall_mem_cons.1 hl
    exact ih hl (placeCell_keepsOutside hc h)

theorem placeWalk_keepsOutside (s : State) (r : VersionRow) : KeepsOutside (PlaceWrites s r) s (placeWalk s r).1 :=
  walk_keepsOutside (route r.side) (fun _ hc => route_lt hc) (.refl _ s)

theorem placeBody_keepsOutside (s : State) : KeepsOutside (MayWrite s .place) s (s.setMem (placeBody s).mem) := by
  refine withVersion_keepsOutside fun r hr => ?_
  split
  · exact .refl _ s
  split
  · exact .refl _ s
  · rw [Ran.mem_ended, placeWalk, ← walk_eq r.total (route r.side) (s, 0)]
    exact (placeWalk_keepsOutside s r).mono fun m j hw => ⟨r, hr, hw⟩

/-- The free cells are the same where the `rsv` plane is. -/
theorem placeWrites_of_rsv_eq {s u : State} (h : ∀ row col, u.rsv row col = s.rsv row col) {r : VersionRow}
    {m : MemName} {j : Nat} (hw : PlaceWrites u r m j) : PlaceWrites s r m j := by
  obtain ⟨hm, row, col, ⟨hrow, hcol, hfree⟩, hj⟩ := hw
  exact ⟨hm, row, col, ⟨hrow, hcol, (h row col).symm.trans hfree⟩, hj⟩

/-- Each stage of ENCODE keeps all but its own range, and PLACE finds the `rsv` plane ENCODE began with. -/
theorem encodeBody_keepsOutside {s : State} (hc : s.config.wf = true) :
    KeepsOutside (MayWrite s .encode) s (s.setMem (encodeBody s).mem) := by
  refine Ran.andThen_mem (P := fun M => KeepsOutside (MayWrite s .encode) s (s.setMem M)) ?_ fun M hM => ?place
  refine Ran.andThen_mem (P := fun M => KeepsOutside (MayWrite s .encode) s (s.setMem M)) ?_ fun M hM => ?ilv
  refine Ran.andThen_mem (P := fun M => KeepsOutside (MayWrite s .encode) s (s.setMem M)) ?fmt fun M hM => ?rsenc
  case fmt => exact (fmtBody_keepsOutside s).mono fun m j ⟨r, hr, hw⟩ => ⟨r, hr, .inl hw⟩
  case rsenc =>
    exact hM.trans ((rsencBody_keepsOutside (s := s.setMem M) hc).mono fun m j ⟨r, hr, hw⟩ => ⟨r, hr, .inr (.inl hw)⟩)
  case ilv =>
    exact hM.trans ((ilvBody_keepsOutside (s := s.setMem M) hc).mono
      fun m j ⟨r, hr, hw⟩ => ⟨r, hr, .inr (.inr (.inl hw))⟩)
  case place =>
    exact hM.trans ((placeBody_keepsOutside (s.setMem M)).mono
      fun m j ⟨r, hr, hw⟩ => ⟨r, hr, .inr (.inr (.inr (placeWrites_of_rsv_eq hM.rsv_eq hw)))⟩)

/-- A command's pseudocode keeps all that the table of 20_memory.md R53 does not let it write. -/
theorem ranOf_keepsOutside (i : Instr) {s : State} (hc : s.config.wf = true) :
    KeepsOutside (MayWrite s i) s (s.setMem (ranOf i s).mem) := by
  cases i with
  | fmt => exact fmtBody_keepsOutside s
  | rsdiv e blk => exact rsdivBody_keepsOutside hc e blk
  | rsenc => exact rsencBody_keepsOutside hc
  | ilv => exact ilvBody_keepsOutside hc
  | place => exact placeBody_keepsOutside s
  | encode => exact encodeBody_keepsOutside hc
  | nop | clrerr | srst => exact .refl _ s

/-- The end of a command shows the memories its pseudocode left. -/
theorem State.finish_keepsOutside {W : MemName → Nat → Prop} {s : State} {r : Ran}
    (h : KeepsOutside W s (s.setMem r.mem)) : KeepsOutside W s (s.finish r) := by
  cases r <;> exact ⟨h.elem_eq, h.rsv_eq⟩

theorem exec_keepsOutside {i : Instr} {s t : State} (hc : s.config.wf = true) (h : exec i s = .next t) :
    KeepsOutside (MayWrite s i) s t := by
  cases hl : i.isLong with
  | true =>
    rw [exec_long hl] at h
    cases h
    exact State.finish_keepsOutside (ranOf_keepsOutside i hc)
  | false =>
    cases i with
    | nop | clrerr | srst => cases h; exact ⟨fun _ _ _ => rfl, fun _ _ => rfl⟩
    | fmt | rsdiv | rsenc | ilv | place | encode => cases hl

/-! ### A fault before any write -/

/-- A fault, if one is raised, is raised with the memories `M`. -/
def Ran.raisesWith (M : Memory) : Ran → Prop
  | .ended _ => True
  | .raised M' _ _ => M' = M

theorem withVersion_raisesWith {s : State} {body : VersionRow → Ran} (h : ∀ r, (body r).raisesWith s.mem) :
    (withVersion s body).raisesWith s.mem := by
  cases hr : s.row with
  | none => rw [withVersion_none hr]; rfl
  | some r => rw [withVersion_some hr]; exact h r

/-- A command other than ENCODE raises its fault before it writes (60_exceptions.md R213). -/
theorem ranOf_raisesWith {i : Instr} (hi : i ≠ .encode) (s : State) : (ranOf i s).raisesWith s.mem := by
  cases i with
  | encode => exact absurd rfl hi
  | rsdiv e blk =>
    simp only [ranOf, rsdivBody]
    split
    · rfl
    · trivial
  | fmt =>
    refine withVersion_raisesWith fun r => ?_
    split
    · rfl
    · trivial
  | place =>
    refine withVersion_raisesWith fun r => ?_
    split
    · rfl
    split
    · rfl
    · trivial
  | rsenc | ilv => exact withVersion_raisesWith fun _ => trivial
  | nop | clrerr | srst => trivial

/-- A command that ends in FAULTED leaves the memories its fault was raised with. -/
theorem State.finish_mem_of_faulted {s : State} {r : Ran} {M : Memory} (h : r.raisesWith M)
    (hs : (s.finish r).seq = .faulted) : (s.finish r).mem = M := by
  cases r with
  | ended => cases hs
  | raised => exact h

/-- Settles O38: the frame of each command's pseudocode, and faults raised before any write. -/
theorem commandsWriteOnlyTheirRanges : Obligations.CommandsWriteOnlyTheirRanges := by
  intro i s t hc _ h
  obtain ⟨helem, hrsv⟩ := exec_keepsOutside hc h
  refine ⟨helem, hrsv, fun hne hl hs => ?_⟩
  rw [exec_long hl] at h
  cases h
  exact State.finish_mem_of_faulted (ranOf_raisesWith hne s) hs

end Sys2Proof.Machine
end

/-! # Command words

A row of the opcode map is spelled exactly where the word has the row's opcode and its must-be-zero bits are 0
(`OpRow.spells_iff`); that the rows are disjoint, what decodes and which words are illegal follow from it. -/

section

namespace Sys2Proof

open Machine

/-! ### The fields of a word -/

theorem field_eq_div_mod (w : Word) (lo len : Nat) : field w lo len = w.toNat / 2 ^ lo % 2 ^ len := by
  rw [field, BitVec.toNat_ushiftRight, Nat.shiftRight_eq_div_pow]

/-- The opcode field is the word under the mask of its eight bits. -/
theorem opField_eq_toNat_and (w : Word) : opField w = (w &&& 0x000000FF).toNat := by
  have hmask : (0x000000FF : Word).toNat = 2 ^ 8 - 1 := rfl
  rw [opField, field_eq_div_mod, BitVec.toNat_and, hmask, Nat.and_two_pow_sub_one_eq_mod, Nat.pow_zero, Nat.div_one]

/-- A field put back at its place is the word under the field's mask. -/
theorem field_shiftLeft_eq_and (w : Word) (lo len : Nat) :
    BitVec.ofNat 32 (field w lo len) <<< lo = w &&& (BitVec.ofNat 32 (2 ^ len - 1) <<< lo) := by
  apply BitVec.eq_of_getLsbD_eq
  intro i hi
  simp only [BitVec.getLsbD_shiftLeft, BitVec.getLsbD_and, BitVec.getLsbD_ofNat, field, Nat.testBit_mod_two_pow,
    Nat.testBit_two_pow_sub_one, BitVec.testBit_toNat, BitVec.getLsbD_ushiftRight]
  by_cases hlo : i < lo
  · simp [hlo]
  · rw [Nat.add_sub_of_le (Nat.le_of_not_lt hlo)]
    ac_rfl

/-! ### The rows of the opcode map -/

/-- The bits that are 0 in a legal word of an opcode (30_encoding.md R71): all above it, but for RSDIV's two fields. -/
def mustBeZeroBits (op : Nat) : Word := if op = 0x02 then 0xFF80E000 else 0xFFFFFF00

/-- The word has the opcode of a row, whatever its other bits. -/
def HasOpcode (w : Word) : Prop := ∃ r ∈ opcodeMap, opField r.pattern = opField w

/-- Must-be-zero bits lie outside the opcode field. -/
theorem mustBeZeroBits_and_opcode (op : Nat) : mustBeZeroBits op &&& 0x000000FF = 0 := by
  unfold mustBeZeroBits
  split <;> decide

/-- A row matches the whole opcode field, and beside it the must-be-zero bits of its opcode against 0. -/
theorem opcodeMap_masks : ∀ r ∈ opcodeMap, r.pattern &&& 0x000000FF = r.pattern ∧
    r.mask = 0x000000FF ||| mustBeZeroBits (opField r.pattern) := by decide

/-- No two rows have the same opcode. -/
theorem opcodeMap_opcodes_ne : opcodeMap.Pairwise (fun r r' => opField r.pattern ≠ opField r'.pattern) := by decide

/-- A row of the map is the only one of its opcode. -/
theorem eq_of_opcode_eq {r r' : OpRow} (hr : r ∈ opcodeMap) (hr' : r' ∈ opcodeMap)
    (h : opField r.pattern = opField r'.pattern) : r = r' := by
  obtain ⟨i, hi, rfl⟩ := List.getElem_of_mem hr
  obtain ⟨j, hj, rfl⟩ := List.getElem_of_mem hr'
  have hne := List.pairwise_iff_getElem.1 opcodeMap_opcodes_ne
  obtain hlt | heq | hgt := Nat.lt_trichotomy i j
  · exact absurd h (hne i j hi hj hlt)
  · subst heq; rfl
  · exact absurd h.symm (hne j i hj hi hgt)

/-- The nine opcodes. -/
theorem hasOpcode_iff (w : Word) : HasOpcode w ↔ opField w ≤ 0x06 ∨ opField w = 0x0E ∨ opField w = 0x0F := by
  have hops : opcodeMap.map (fun r => opField r.pattern) = [0, 1, 2, 3, 4, 5, 6, 14, 15] := by decide
  rw [HasOpcode, ← List.mem_map, hops]
  simp only [List.mem_cons, List.not_mem_nil, or_false]
  omega

/-- Under two disjoint masks at once a word shows a value of the first one's bits exactly when it shows the value under
the first and nothing under the second. -/
theorem and_or_eq_iff {w lo hi p : Word} (hp : p &&& lo = p) (hd : hi &&& lo = 0) :
    w &&& (lo ||| hi) = p ↔ w &&& lo = p ∧ w &&& hi = 0 := by
  have hphi : p &&& hi = 0 := by rw [← hp, BitVec.and_assoc, BitVec.and_comm lo, hd]; simp
  have habsorb (m n : Word) : (m ||| n) &&& m = m := by
    ext i hi
    cases hm : m[i] <;> simp [hm]
  constructor
  · intro h
    constructor
    · rw [← hp, ← h, BitVec.and_assoc, habsorb]
    · rw [← hphi, ← h, BitVec.and_assoc, BitVec.or_comm, habsorb]
  · rintro ⟨hlo, hhi⟩
    rw [BitVec.and_or_distrib_left, hlo, hhi]
    simp

/-- A word spells a row exactly when it has the row's opcode and every must-be-zero bit of it is 0 (R71, R73). -/
theorem OpRow.spells_iff {r : OpRow} (hr : r ∈ opcodeMap) (w : Word) :
    r.spells w = true ↔ opField r.pattern = opField w ∧ w &&& mustBeZeroBits (opField w) = 0 := by
  obtain ⟨hp, hm⟩ := opcodeMap_masks r hr
  have hop : w &&& 0x000000FF = r.pattern ↔ opField r.pattern = opField w := by
    rw [opField_eq_toNat_and, opField_eq_toNat_and, hp, BitVec.toNat_inj, eq_comm]
  rw [OpRow.spells, beq_iff_eq, hm, and_or_eq_iff hp (mustBeZeroBits_and_opcode _), hop]
  exact and_congr_right fun h => by rw [h]

/-- A word spells at most one row. -/
theorem OpRow.eq_of_spells {r r' : OpRow} {w : Word} (hr : r ∈ opcodeMap) (hr' : r' ∈ opcodeMap)
    (h : r.spells w = true) (h' : r'.spells w = true) : r = r' := by
  obtain ⟨hop, -⟩ := (spells_iff hr w).1 h
  obtain ⟨hop', -⟩ := (spells_iff hr' w).1 h'
  exact eq_of_opcode_eq hr hr' (hop.trans hop'.symm)

/-- A word that spells no row has an opcode of none, or a must-be-zero bit of its opcode is 1. -/
theorem spells_no_row_iff (w : Word) :
    (∀ r ∈ opcodeMap, r.spells w = false) ↔ (HasOpcode w → w &&& mustBeZeroBits (opField w) ≠ 0) := by
  constructor
  · rintro hno ⟨r, hr, hop⟩ hz
    have hspells := (OpRow.spells_iff hr w).2 ⟨hop, hz⟩
    rw [hno r hr] at hspells
    cases hspells
  · intro h r hr
    refine Bool.eq_false_iff.2 fun hspells => ?_
    obtain ⟨hop, hz⟩ := (OpRow.spells_iff hr w).1 hspells
    exact h ⟨r, hr, hop⟩ hz

/-! ### Decoding by rows -/

/-- A word decodes to the command of the row it spells, and only to that. -/
theorem decode_eq_ok_iff {w : Word} {i : Instr} :
    decode w = .ok i ↔ ∃ r ∈ opcodeMap, r.spells w = true ∧ r.build w = i := by
  unfold decode
  constructor
  · intro h
    split at h
    · rename_i r hfind
      cases h
      exact ⟨r, List.mem_of_find?_eq_some hfind, List.find?_some (p := fun (r : OpRow) => r.spells w) hfind, rfl⟩
    · cases h
  · rintro ⟨r, hr, hspells, rfl⟩
    split
    · rename_i r' hfind
      have hspells' := List.find?_some (p := fun (r : OpRow) => r.spells w) hfind
      rw [OpRow.eq_of_spells (List.mem_of_find?_eq_some hfind) hr hspells' hspells]
    · rename_i hfind
      exact absurd hspells (List.find?_eq_none.1 hfind r hr)

/-- A word that spells no row is rejected, for the reason its opcode field gives (R74). -/
theorem decode_eq_error_iff {w : Word} {why : Illegal} :
    decode w = .error why ↔ (∀ r ∈ opcodeMap, r.spells w = false) ∧ illegalReason w = why := by
  have hnone : (∀ r ∈ opcodeMap, r.spells w = false) ↔ opcodeMap.find? (fun r => r.spells w) = none := by simp
  rw [hnone, decode]
  split
  · rename_i hfind
    simp [hfind]
  · rename_i hfind
    simp [hfind]

theorem illegalReason_of_hasOpcode {w : Word} (h : HasOpcode w) : illegalReason w = .mustBeZero (opField w) := by
  refine if_pos (List.any_eq_true.2 ?_)
  simpa [HasOpcode] using h

theorem illegalReason_of_not_hasOpcode {w : Word} (h : ¬ HasOpcode w) :
    illegalReason w = .reservedOpcode (opField w) := by
  refine if_neg (mt List.any_eq_true.1 ?_)
  simpa [HasOpcode] using h

theorem decode_eq_reservedOpcode_iff {w : Word} {op : Nat} :
    decode w = .error (.reservedOpcode op) ↔ op = opField w ∧ ¬ HasOpcode w := by
  rw [decode_eq_error_iff, spells_no_row_iff]
  by_cases h : HasOpcode w
  · simp [h, illegalReason_of_hasOpcode h]
  · simp [h, illegalReason_of_not_hasOpcode h, eq_comm]

theorem decode_eq_mustBeZero_iff {w : Word} {op : Nat} :
    decode w = .error (.mustBeZero op) ↔ op = opField w ∧ HasOpcode w ∧ w &&& mustBeZeroBits (opField w) ≠ 0 := by
  rw [decode_eq_error_iff, spells_no_row_iff]
  by_cases h : HasOpcode w
  · simp [h, illegalReason_of_hasOpcode h, eq_comm, and_comm]
  · simp [h, illegalReason_of_not_hasOpcode h]

/-! ### The words of RSDIV -/

theorem encode_rsdiv (e blk : Nat) : encode (.rsdiv e blk) =
    (0x00000002 : Word) ||| (BitVec.ofNat 32 e <<< 8) ||| (BitVec.ofNat 32 blk <<< 16) := rfl

/-- The opcode and the two fields of an RSDIV word do not overlap, so their sum is the word (R71). -/
theorem toNat_encode_rsdiv {e blk : Nat} (he : e < 32) (hblk : blk < 128) :
    (encode (.rsdiv e blk)).toNat = 2 ^ 16 * blk + (2 ^ 8 * e + 2) := by
  have hE : (BitVec.ofNat 32 e <<< 8).toNat = 2 ^ 8 * e := by
    rw [BitVec.toNat_shiftLeft, BitVec.toNat_ofNat, Nat.shiftLeft_eq]; omega
  have hBlk : (BitVec.ofNat 32 blk <<< 16).toNat = 2 ^ 16 * blk := by
    rw [BitVec.toNat_shiftLeft, BitVec.toNat_ofNat, Nat.shiftLeft_eq]; omega
  rw [Nat.two_pow_add_eq_or_of_lt (by omega), Nat.two_pow_add_eq_or_of_lt (by omega), encode_rsdiv, BitVec.toNat_or,
    BitVec.toNat_or, hE, hBlk, Nat.or_comm, Nat.or_comm (2 ^ 8 * e)]
  rfl

theorem fields_encode_rsdiv {e blk : Nat} (he : e < 32) (hblk : blk < 128) :
    field (encode (.rsdiv e blk)) 8 5 = e ∧ field (encode (.rsdiv e blk)) 16 7 = blk := by
  rw [field_eq_div_mod, field_eq_div_mod, toNat_encode_rsdiv he hblk]
  omega

/-- An RSDIV word is its opcode and its two fields. -/
theorem encode_rsdiv_fields {w : Word} (h : w &&& 0xFF80E0FF = 0x00000002) :
    encode (.rsdiv (field w 8 5) (field w 16 7)) = w := by
  rw [encode_rsdiv, field_shiftLeft_eq_and, field_shiftLeft_eq_and, ← h, ← BitVec.and_or_distrib_left,
    ← BitVec.and_or_distrib_left]
  exact BitVec.and_allOnes

theorem decode_of_rsdiv_row {w : Word} (h : w &&& 0xFF80E0FF = 0x00000002) :
    decode w = .ok (.rsdiv (field w 8 5) (field w 16 7)) :=
  decode_eq_ok_iff.2 ⟨opcodeMap[2], List.getElem_mem _, beq_iff_eq.2 h, rfl⟩

/-! ### Decoding and encoding -/

/-- Settles O1: an RSDIV word spells RSDIV's row, which reads both fields back; the other rows have one word each. -/
theorem decodeOfEncode : Obligations.DecodeOfEncode := by
  intro i hi
  cases i with
  | rsdiv e blk =>
    simp only [Instr.wellFormed, fitsE, fitsBlk, Bool.and_eq_true, decide_eq_true_eq] at hi
    obtain ⟨he, hblk⟩ := hi
    obtain ⟨hmaskE, -⟩ := Laws.SpellsOneRow.rsdiv_e_masked ⟨e, he⟩
    obtain ⟨hmaskBlk, -⟩ := Laws.SpellsOneRow.rsdiv_blk_masked ⟨blk, hblk⟩
    obtain ⟨hfieldE, hfieldBlk⟩ := fields_encode_rsdiv he hblk
    rw [decode_of_rsdiv_row (Laws.SpellsOneRow.rsdiv_masked hmaskE hmaskBlk), hfieldE, hfieldBlk]
  | nop | fmt | rsenc | ilv | place | encode | clrerr | srst => rfl

/-- A row that matches every bit is spelled by its pattern alone. -/
theorem OpRow.eq_pattern_of_spells {r : OpRow} {w : Word} (hm : r.mask = 0xFFFFFFFF) (h : r.spells w = true) :
    w = r.pattern := by
  have hones : r.mask = BitVec.allOnes 32 := hm
  rwa [OpRow.spells, hones, BitVec.and_allOnes, beq_iff_eq] at h

/-- The command a row builds from a word that spells it has that word. -/
theorem OpRow.encode_build {r : OpRow} {w : Word} (hr : r ∈ opcodeMap) (h : r.spells w = true) :
    encode (r.build w) = w := by
  simp only [opcodeMap, List.mem_cons, List.not_mem_nil, or_false] at hr
  obtain rfl | rfl | rfl | rfl | rfl | rfl | rfl | rfl | rfl := hr
  case inr.inr.inl => exact encode_rsdiv_fields (beq_iff_eq.1 h)
  all_goals exact (OpRow.eq_pattern_of_spells rfl h).symm

/-- Settles O2: the word is that of the command its row builds. -/
theorem encodeOfDecode : Obligations.EncodeOfDecode := by
  intro w i h
  obtain ⟨r, hr, hspells, hbuild⟩ := decode_eq_ok_iff.1 h
  exact ⟨decode_wellFormed h, by rw [← hbuild, OpRow.encode_build hr hspells]⟩

/-- Settles O3: two spelled rows would both have the word's opcode, and no two rows have one opcode. -/
theorem eachWordSpellsAtMostOneCommand : Obligations.EachWordSpellsAtMostOneCommand := by
  intro w
  have hne := List.pairwise_iff_getElem.1 (opcodeMap_opcodes_ne.filter (fun r => r.spells w))
  refine Nat.le_of_not_lt fun hlen => ?_
  have hpos := Nat.zero_lt_of_lt hlen
  obtain ⟨hmem, hspells⟩ := List.mem_filter.1 (List.getElem_mem hpos)
  obtain ⟨hmem', hspells'⟩ := List.mem_filter.1 (List.getElem_mem hlen)
  obtain ⟨hop, -⟩ := (OpRow.spells_iff hmem w).1 hspells
  obtain ⟨hop', -⟩ := (OpRow.spells_iff hmem' w).1 hspells'
  exact hne 0 1 hpos hlen Nat.zero_lt_one (hop.trans hop'.symm)

/-- Settles O4: a word without an opcode of the map, and one with a must-be-zero bit of its opcode at 1. -/
theorem illegalWordsByReason : Obligations.IllegalWordsByReason := by
  refine fun w => ⟨fun op => ?_, fun op => ?_⟩
  · rw [decode_eq_reservedOpcode_iff, hasOpcode_iff]
    omega
  · rw [decode_eq_mustBeZero_iff, hasOpcode_iff, mustBeZeroBits]

/-- Settles O5: ten of the words are encodings, and bit 23 of the last is a must-be-zero bit. -/
theorem wordsWrittenOutDecode : Obligations.WordsWrittenOutDecode := by
  refine ⟨decodeOfEncode .nop rfl, decodeOfEncode .fmt rfl, decodeOfEncode (.rsdiv 30 127) rfl,
    decodeOfEncode (.rsdiv 10 3) rfl, decodeOfEncode .rsenc rfl, decodeOfEncode .ilv rfl, decodeOfEncode .place rfl,
    decodeOfEncode .encode rfl, decodeOfEncode .clrerr rfl, decodeOfEncode .srst rfl,
    decode_eq_mustBeZero_iff.2 ⟨rfl, (hasOpcode_iff _).2 (.inl ?_), ?_⟩⟩ <;> decide

end Sys2Proof
end

/-! # From a command word to the end of the command

What CMD does with a word is said once per branch of 30_encoding.md R75; how the engine's turn and a WAIT run a command
once per event. -/

section

namespace Sys2Proof.Machine

/-! ### A word written to CMD -/

/-- CLRERR is performed in FAULTED. -/
theorem writeCmd_clrerr_of_err {s : State} (hb : s.busy = false) (he : s.err = true) :
    writeCmd s 0x0000000E = exec .clrerr s := by
  simp [writeCmd, hb, he]

/-- SRST is performed in FAULTED. -/
theorem writeCmd_srst_of_err {s : State} (hb : s.busy = false) (he : s.err = true) :
    writeCmd s 0x0000000F = exec .srst s := by
  simp [writeCmd, hb, he]

/-- Any other word is dropped in FAULTED. -/
theorem writeCmd_other_of_err {s : State} {w : Word} (hb : s.busy = false) (he : s.err = true) (hc : w ≠ 0x0000000E)
    (hs : w ≠ 0x0000000F) : writeCmd s w = .next s.setHzd := by
  rw [writeCmd, if_neg (by simp [hb]), if_pos he, if_neg hc, if_neg hs]

/-- An immediate command is performed in the step of the write. -/
theorem writeCmd_of_immediate {s : State} {w : Word} {i : Instr} (hb : s.busy = false) (he : s.err = false)
    (hd : decode w = .ok i) (hl : i.isLong = false) : writeCmd s w = exec i s := by
  simp [writeCmd, hb, he, hd, hl]

/-- A long command is accepted. -/
theorem writeCmd_of_long {s : State} {w : Word} {i : Instr} (hb : s.busy = false) (he : s.err = false)
    (hd : decode w = .ok i) (hl : i.isLong = true) : writeCmd s w = .next (s.accept w) := by
  simp [writeCmd, hb, he, hd, hl]

/-- A word that spells no command faults. -/
theorem writeCmd_of_illegal {s : State} {w : Word} {why : Illegal} (hb : s.busy = false) (he : s.err = false)
    (hd : decode w = .error why) : writeCmd s w = .next (s.takeFault .illegalCommand w) := by
  simp [writeCmd, hb, he, hd]

/-- Settles O7: the branches of CMD, in the order of R75. -/
theorem commandWordDispatch : Obligations.CommandWordDispatch := by
  intro s w rest hr hin
  rw [step_cmd hr hin]
  refine ⟨fun hb => writeCmd_of_busy (s := s.withInputs rest) hb w, fun hb he hw => ?_, fun hb he hw => ?_,
    fun hb he hc hs => writeCmd_other_of_err (s := s.withInputs rest) hb he hc hs,
    fun hb he i hd hl => writeCmd_of_immediate (s := s.withInputs rest) hb he hd hl,
    fun hb he i hd hl => writeCmd_of_long (s := s.withInputs rest) hb he hd hl,
    fun hb he why hd => writeCmd_of_illegal (s := s.withInputs rest) hb he hd⟩
  · subst hw; exact writeCmd_clrerr_of_err hb he
  · subst hw; exact writeCmd_srst_of_err hb he

/-- Settles O8: the word of a well-formed command decodes to it, so a long one is accepted. -/
theorem acceptanceChangesNothingElse : Obligations.AcceptanceChangesNothingElse := by
  intro s i rest hi hl hr hb he hin
  rw [step_cmd hr hin]
  exact writeCmd_of_long (s := s.withInputs rest) hb he (decodeOfEncode i hi) hl

/-- Settles O9: a word that spells no row does not decode; fault entry's BUSY 0 is the BUSY of the state already. -/
theorem illegalWordFaultsAtTheWrite : Obligations.IllegalWordFaultsAtTheWrite := by
  intro s w rest hr hb he hno hin
  have hd : decode w = .error (illegalReason w) := decode_eq_error_iff.2 ⟨hno, rfl⟩
  rw [step_cmd hr hin, writeCmd_of_illegal (s := s.withInputs rest) hb he hd]
  simp only [State.takeFault, hb]
  rfl

/-! ### The engine's turn -/

/-- In `RUN(w)` the engine's turn is the meaning of the long command `w` spells (30_encoding.md R77). -/
theorem engineTurn_of_decode {s : State} {w : Word} {i : Instr} (hs : s.seq = .run w) (hd : decode w = .ok i)
    (hl : i.isLong = true) : engineTurn s = exec i s := by
  simp [engineTurn, hs, hd, hl]

/-- While BUSY is 1 a WAIT stays in place and the engine moves (log 5). -/
theorem step_wait_of_busy {s : State} {rest : List Event} (hr : s.rst = false) (hb : s.busy = true)
    (h : s.inputs = .wait :: rest) : step s = engineTurn s := by
  rw [step_cons h]; simp [occur, hr, hb]

/-- With BUSY 0 a WAIT is over. -/
theorem step_wait_of_not_busy {s : State} {rest : List Event} (hr : s.rst = false) (hb : s.busy = false)
    (h : s.inputs = .wait :: rest) : step s = .next (s.withInputs rest) := by
  rw [step_cons h]; simp [occur, hr, hb]

/-- Settles O6: the engine's turn comes by an event, by none or by a WAIT; an immediate command is performed at its
write. -/
theorem stepRunsTheDecodedCommand : Obligations.StepRunsTheDecodedCommand := by
  intro s w i rest hd
  refine ⟨fun hl hs => ⟨fun hin => ?_, fun hin => ?_, fun hin hr hb => ?_⟩, fun hl hr hb he hin => ?_⟩
  · rw [step_cons hin]
    exact engineTurn_of_decode (s := s.withInputs rest) hs hd hl
  · rw [step_nil hin, engineTurn_of_decode hs hd hl]
  · rw [step_wait_of_busy hr hb hin, engineTurn_of_decode hs hd hl]
  · rw [step_cmd hr hin]
    exact writeCmd_of_immediate (s := s.withInputs rest) hb he hd hl

/-! ### The end of a long command -/

/-- In a state of the invariant with BUSY 1, a command is in execution. -/
theorem State.Inv.run_of_busy {s : State} (hi : s.Inv) (hb : s.busy = true) : ∃ w, s.seq = .run w := by
  obtain ⟨hseq, -⟩ := hi
  cases hs : s.seq with
  | run w => exact ⟨w, rfl⟩
  | idle | faulted => simp [State.seqAgrees, hs, hb] at hseq

/-- Settles O31: with BUSY 0 the WAIT is over in one step; with BUSY 1 the command ends in the first and the WAIT in the
second. -/
theorem waitEnds : Obligations.WaitEnds := by
  intro s rest hi hr hin
  cases hb : s.busy with
  | false => exact ⟨1, _, by omega, (run_succ (step_wait_of_not_busy hr hb hin) 0).trans (run_zero _), hb, rfl⟩
  | true =>
    obtain ⟨w, hs⟩ := hi.run_of_busy hb
    obtain ⟨i, hend⟩ := engineTurn_of_run hi hs
    have hfirst := (step_wait_of_busy hr hb hin).trans hend
    have hsecond := step_wait_of_not_busy (s := s.finish (ranOf i s)) (rest := rest) (by simp [hr]) (by simp)
      (by simp [hin])
    exact ⟨2, _, by omega, (run_succ hfirst 1).trans ((run_succ hsecond 0).trans (run_zero _)), by simp, by simp⟩

/-- The engine's one step on a command either completes it or takes a fault whose code is raised. -/
theorem State.finish_completes_or_faults (s : State) {r : Ran} (h : r.raisesKnown) :
    Completes s (s.finish r) ∨ ∃ code info, code ∈ raisedCodes ∧ Faults s (s.finish r) code info := by
  cases r with
  | ended M => exact .inl (s.complete_completes M)
  | raised M c info => exact .inr ⟨c.code, info, List.contains_iff_mem.1 h, s.takeFault_faults M c info⟩

/-- Settles O32: a long command is the engine's one step on pseudocode that raises the known causes only. -/
theorem longCommandsCompleteOrFault : Obligations.LongCommandsCompleteOrFault :=
  fun i s hl => ⟨_, exec_long hl s, s.finish_completes_or_faults (ranOf_raisesKnown i s)⟩

end Sys2Proof.Machine
end

/-! # GF(256)

Every byte is 0 or a power `ALOG[e]`, and a product of powers adds the exponents modulo 255: the laws of the field for a
well-formed choice of the tables follow from this. A printed `ALOG[e]` is `x^e` (`timesXPow`), a factor that comes
out of `polyMul`, and that makes the table product the polynomial product. -/

section

namespace Sys2Proof.Machine

/-! ### The tables -/

theorem alog_zero {c : Config} (hc : c.wf = true) : alog c 0 = 1 := by
  have h := ((Config.wf_iff c).1 hc).2.2.1
  simp only [Config.alogWf, Bool.and_eq_true, beq_iff_eq] at h
  rw [alog, h.1.1]
  rfl

/-- The recurrence of ALOG (40_gf256.md R91). -/
theorem alog_succ_toNat {c : Config} (hc : c.wf = true) {e : Nat} (he : e < 254) :
    (alog c (e + 1)).toNat = alogNext c.prim (alog c e).toNat := by
  have h := ((Config.wf_iff c).1 hc).2.2.1
  simp only [Config.alogWf, Bool.and_eq_true, List.all_eq_true, List.mem_range, beq_iff_eq] at h
  rw [(alog_toNat hc (by omega)).1, (alog_toNat hc (by omega)).1]
  exact h.1.2 e he

theorem alog_injective {c : Config} (hc : c.wf = true) {e e' : Nat} (he : e < 255) (he' : e' < 255)
    (h : alog c e = alog c e') : e = e' :=
  Option.some.inj (by rw [← logOf_alog hc he, h, logOf_alog hc he'])

/-- Settles O40: the recurrence and the inverse are what well-formedness says of the two tables. -/
theorem tablesAreTheirDefinitions : Obligations.TablesAreTheirDefinitions := by
  refine ⟨fun c hc => ⟨alog_zero hc, fun e h1 h254 => ?_, fun x hx => ?_, logOf_zero hc⟩, cfg_wf, rfl, by decide⟩
  · obtain ⟨k, rfl⟩ := Nat.exists_eq_add_of_le' h1
    exact alog_succ_toNat hc (by omega)
  · obtain ⟨l, hlog, hl, hal⟩ := logOf_of_ne hc hx
    exact ⟨l, hlog, by omega, hal, fun l' hl' h => alog_injective hc (by omega) hl (h.trans hal.symm)⟩

/-- Settles O41: one conditional subtraction is the remainder of a sum below 510. -/
theorem exponentAddition : Obligations.ExponentAddition := fun _ _ hg hl =>
  ⟨expadd_eq (by omega) (by omega), Nat.le_of_lt_succ (expadd_lt (by omega) (by omega))⟩

/-! ### Multiplication through the tables -/

/-- A byte is 0 or a power. -/
theorem byte_cases {c : Config} (hc : c.wf = true) (x : Byte) : x = 0 ∨ ∃ l, l < 255 ∧ alog c l = x := by
  by_cases hx : x = 0
  · exact .inl hx
  · obtain ⟨l, -, hl⟩ := logOf_of_ne hc hx
    exact .inr ⟨l, hl⟩

theorem gfmul_zero {c : Config} (hc : c.wf = true) (a : Byte) : gfmul c a 0 = 0 := by
  rw [gfmul, logOf_zero hc]
  cases logOf c a <;> rfl

theorem zero_gfmul {c : Config} (hc : c.wf = true) (a : Byte) : gfmul c 0 a = 0 := by
  rw [gfmul, logOf_zero hc]

/-- The product of two powers adds the exponents modulo 255. -/
theorem gfmul_alog {c : Config} (hc : c.wf = true) {x y : Nat} (hx : x < 255) (hy : y < 255) :
    gfmul c (alog c x) (alog c y) = alog c ((x + y) % 255) := by
  simp only [gfmul, logOf_alog hc hx, logOf_alog hc hy, expadd_eq hx hy]

theorem gfmul_comm {c : Config} (hc : c.wf = true) (a b : Byte) : gfmul c a b = gfmul c b a := by
  obtain rfl | ⟨x, hx, rfl⟩ := byte_cases hc a
  · rw [gfmul_zero hc, zero_gfmul hc]
  obtain rfl | ⟨y, hy, rfl⟩ := byte_cases hc b
  · rw [gfmul_zero hc, zero_gfmul hc]
  · rw [gfmul_alog hc hx hy, gfmul_alog hc hy hx, Nat.add_comm]

theorem gfmul_one {c : Config} (hc : c.wf = true) (a : Byte) : gfmul c a 1 = a := by
  obtain rfl | ⟨x, hx, rfl⟩ := byte_cases hc a
  · exact zero_gfmul hc 1
  · rw [← alog_zero hc, gfmul_alog hc hx (by decide), Nat.add_zero, Nat.mod_eq_of_lt hx]

theorem gfmul_assoc {c : Config} (hc : c.wf = true) (a b d : Byte) :
    gfmul c (gfmul c a b) d = gfmul c a (gfmul c b d) := by
  obtain rfl | ⟨x, hx, rfl⟩ := byte_cases hc a
  · simp only [zero_gfmul hc]
  obtain rfl | ⟨y, hy, rfl⟩ := byte_cases hc b
  · simp only [zero_gfmul hc, gfmul_zero hc]
  obtain rfl | ⟨z, hz, rfl⟩ := byte_cases hc d
  · simp only [gfmul_zero hc]
  · rw [gfmul_alog hc hx hy, gfmul_alog hc hy hz, gfmul_alog hc (Nat.mod_lt _ (by decide)) hz,
      gfmul_alog hc hx (Nat.mod_lt _ (by decide)), Nat.mod_add_mod, Nat.add_mod_mod, Nat.add_assoc]

/-- The inverse that R97 names. -/
theorem gfmul_inverse {c : Config} (hc : c.wf = true) {a : Byte} {l : Nat} (h : logOf c a = some l) :
    gfmul c a (alog c ((255 - l) % 255)) = 1 := by
  obtain ⟨hl, rfl⟩ := logOf_some hc h
  have hsum : (l + (255 - l) % 255) % 255 = 0 := by omega
  rw [gfmul_alog hc hl (Nat.mod_lt _ (by decide)), hsum, alog_zero hc]

theorem gfmul_inverse_unique {c : Config} (hc : c.wf = true) {a b d : Byte} (hb : gfmul c a b = 1)
    (hd : gfmul c a d = 1) : b = d :=
  calc b = gfmul c b (gfmul c a d) := by rw [hd, gfmul_one hc]
    _ = gfmul c (gfmul c a b) d := by rw [← gfmul_assoc hc, gfmul_comm hc b a]
    _ = d := by rw [hb, gfmul_comm hc, gfmul_one hc]

/-! ### Multiplication by `x` -/

theorem timesX_eq_xor (a : Byte) : timesX a = a <<< 1 ^^^ if a.getLsbD 7 then 0x1D else 0 := by
  unfold timesX
  split <;> simp

theorem timesX_xor (a b : Byte) : timesX (a ^^^ b) = timesX a ^^^ timesX b := by
  have hred : ∀ p q : Bool, (if p ^^ q then 0x1D else 0 : Byte) = (if p then 0x1D else 0) ^^^ if q then 0x1D else 0 := by
    decide
  simp only [timesX_eq_xor, BitVec.shiftLeft_xor_distrib, BitVec.getLsbD_xor, hred]
  ac_rfl

theorem timesX_zero : timesX 0 = 0 := rfl

/-- `timesX` is one step of the recurrence of ALOG with the printed primitive polynomial (40_gf256.md R90, R91). -/
theorem timesX_toNat : ∀ a : Byte, (timesX a).toNat = alogNext 0x11D a.toNat := by decide +kernel

/-- The step of Horner's rule in `polyMul`. -/
def hornerStep (a b acc : Byte) (i : Nat) : Byte := timesX acc ^^^ if b.getLsbD i then a else 0

theorem polyMul_eq_foldl (a b : Byte) : polyMul a b = [7, 6, 5, 4, 3, 2, 1, 0].foldl (hornerStep a b) 0 := rfl

theorem hornerStep_timesX (a b acc : Byte) (i : Nat) :
    hornerStep (timesX a) b (timesX acc) i = timesX (hornerStep a b acc i) := by
  rw [hornerStep, hornerStep, timesX_xor, apply_ite timesX, timesX_zero]

theorem hornerStep_xor (a a' b acc acc' : Byte) (i : Nat) :
    hornerStep a b acc i ^^^ hornerStep a' b acc' i = hornerStep (a ^^^ a') b (acc ^^^ acc') i := by
  unfold hornerStep
  rw [timesX_xor]
  split <;> ac_rfl

/-- The polynomial product commutes with multiplication by `x`. -/
theorem polyMul_timesX (a b : Byte) : polyMul (timesX a) b = timesX (polyMul a b) := by
  rw [polyMul_eq_foldl, polyMul_eq_foldl, ← List.foldl_hom timesX (hornerStep_timesX a b), timesX_zero]

theorem foldl_hornerStep_xor (a a' b : Byte) (l : List Nat) (acc acc' : Byte) :
    l.foldl (hornerStep (a ^^^ a') b) (acc ^^^ acc') = l.foldl (hornerStep a b) acc ^^^ l.foldl (hornerStep a' b) acc' := by
  induction l generalizing acc acc' with
  | nil => rfl
  | cons i l ih => rw [List.foldl_cons, List.foldl_cons, List.foldl_cons, ← hornerStep_xor, ih]

/-- The polynomial product distributes over the addition of its left factors. -/
theorem polyMul_xor (a a' b : Byte) : polyMul (a ^^^ a') b = polyMul a b ^^^ polyMul a' b :=
  foldl_hornerStep_xor a a' b _ 0 0

theorem zero_polyMul (b : Byte) : polyMul 0 b = 0 := by
  have h := polyMul_xor 0 0 b
  simpa using h

theorem hornerStep_zero (a : Byte) (i : Nat) : hornerStep a 0 0 i = 0 := by
  simp [hornerStep, timesX_eq_xor]

theorem polyMul_zero (a : Byte) : polyMul a 0 = 0 := by
  simp only [polyMul_eq_foldl, List.foldl_cons, List.foldl_nil, hornerStep_zero]

theorem one_polyMul : ∀ b : Byte, polyMul 1 b = b := by decide +kernel

/-- `x^n` times a byte. -/
def timesXPow : Nat → Byte → Byte
  | 0, a => a
  | n + 1, a => timesX (timesXPow n a)

theorem timesXPow_zero (a : Byte) : timesXPow 0 a = a := rfl

theorem timesXPow_succ (n : Nat) (a : Byte) : timesXPow (n + 1) a = timesX (timesXPow n a) := rfl

theorem timesXPow_add (m n : Nat) (a : Byte) : timesXPow (m + n) a = timesXPow m (timesXPow n a) := by
  induction m with
  | zero => rw [Nat.zero_add, timesXPow_zero]
  | succ m ih => rw [Nat.add_right_comm, timesXPow_succ, ih, timesXPow_succ]

theorem polyMul_timesXPow_one (n : Nat) (b : Byte) : polyMul (timesXPow n 1) b = timesXPow n b := by
  induction n with
  | zero => exact one_polyMul b
  | succ n ih => rw [timesXPow_succ, timesXPow_succ, polyMul_timesX, ih]

/-! ### The printed tables -/

/-- Each printed power is `timesX` of the one before, and the last one leads back to the first. -/
theorem timesX_alog {e : Nat} (he : e < 255) : timesX (alog cfg e) = alog cfg ((e + 1) % 255) := by
  obtain rfl | hlt : e = 254 ∨ e < 254 := by omega
  · decide
  · rw [Nat.mod_eq_of_lt (by omega)]
    exact BitVec.eq_of_toNat_eq ((timesX_toNat _).trans (alog_succ_toNat cfg_wf hlt).symm)

/-- A printed entry of ALOG is a power of `x`. -/
theorem timesXPow_one (n : Nat) : timesXPow n 1 = alog cfg (n % 255) := by
  induction n with
  | zero => exact (alog_zero cfg_wf).symm
  | succ n ih => rw [timesXPow_succ, ih, timesX_alog (Nat.mod_lt _ (by decide)), Nat.mod_add_mod]

theorem alog_eq_timesXPow {e : Nat} (he : e < 255) : alog cfg e = timesXPow e 1 := by
  rw [timesXPow_one, Nat.mod_eq_of_lt he]

/-- Settles O42: on powers both products are the power of `x` for the sum of the exponents. -/
theorem tableProductIsPolynomialProduct : Obligations.TableProductIsPolynomialProduct := by
  intro a b
  obtain rfl | ⟨x, hx, rfl⟩ := byte_cases cfg_wf a
  · rw [zero_gfmul cfg_wf, zero_polyMul]
  obtain rfl | ⟨y, hy, rfl⟩ := byte_cases cfg_wf b
  · rw [gfmul_zero cfg_wf, polyMul_zero]
  · calc gfmul cfg (alog cfg x) (alog cfg y) = timesXPow (x + y) 1 := by
          rw [gfmul_alog cfg_wf hx hy, timesXPow_one]
      _ = polyMul (alog cfg x) (alog cfg y) := by
          rw [timesXPow_add, ← alog_eq_timesXPow hy, ← polyMul_timesXPow_one, ← alog_eq_timesXPow hx]

theorem gfmul_gfadd (a b d : Byte) : gfmul cfg a (gfadd b d) = gfadd (gfmul cfg a b) (gfmul cfg a d) := by
  simp only [gfmul_comm cfg_wf a, tableProductIsPolynomialProduct _ a, gfadd, polyMul_xor]

/-- Settles O43: the multiplicative laws are those of the exponents modulo 255, distribution is that of `polyMul`. -/
theorem fieldLaws : Obligations.FieldLaws :=
  ⟨gfmul_comm cfg_wf, gfmul_assoc cfg_wf, gfmul_one cfg_wf, gfmul_zero cfg_wf, gfmul_gfadd,
    fun _ _ h => ⟨gfmul_inverse cfg_wf h, fun _ hb => gfmul_inverse_unique cfg_wf hb (gfmul_inverse cfg_wf h)⟩,
    fun _ _ h => (logOf_some cfg_wf h).2, fun _ he => logOf_alog cfg_wf (Nat.lt_succ_of_le he)⟩

/-! ### The generator polynomials -/

/-- The printed ROM, entry by entry (40_gf256.md R100). -/
theorem cfg_gen_rootProduct : ∀ p ∈ cfg.gen, p.2.map (alog cfg) = rootProduct cfg p.1 := by decide +kernel

/-- Settles O44: the lengths are ESET, and each entry of the ROM is computed from its roots. -/
theorem generatorsAreRootProducts : Obligations.GeneratorsAreRootProducts := by
  refine ⟨fun e => (genPoly_isSome_iff cfg e).trans (by rw [cfg_eset]), fun e g hg => ?_⟩
  have hf := genFacts cfg_wf hg
  exact ⟨cfg_gen_rootProduct _ (genPoly_mem hg), hf.monic, fun x hx => Nat.le_of_lt_succ (hf.entries x hx)⟩

end Sys2Proof.Machine
end

/-! # The formatter

The text FMT writes from `MSG[0]` up is one list, `formatted`, whose bytes are read part by part. -/

section

namespace Sys2Proof.Machine

/-- What consecutive writes from element 0 of a memory of bytes leave in their range. -/
theorem Memory.elem_putAll_zero (M : Memory) (p : Nat) {m : MemName} (hm : m ≠ .mat) {l : List Byte} {j : Nat}
    (h : j < l.length) : (M.putAll m 0 l).elem p m j = l.getD j 0 := by
  rw [Memory.elem_putAll, if_pos ⟨rfl, j.zero_le, by omega⟩, and_widthMask hm, Nat.sub_zero]

/-- After FMT, `MSG[0..N-1]` reads as the formatted text (41_formatter.md R110). -/
theorem complete_afterFmt_elem {s : State} {r : VersionRow} (hfits : s.tlen.toNat + 2 ≤ r.dataCount) {j : Nat}
    (hj : j < r.dataCount) :
    (s.complete (afterFmt s r)).elem .msg j = (formatted s s.tlen.toNat r.dataCount).getD j 0 :=
  Memory.elem_putAll_zero s.mem s.powerUps (by decide) (by rwa [formatted_length s hfits])

/-- With a version and a text that fits, FMT completes with the formatted text in MSG. -/
theorem exec_fmt_ok {s : State} {r : VersionRow} (hr : s.row = some r) (h255 : s.tlen.toNat ≤ 255)
    (hfits : s.tlen.toNat + 2 ≤ r.dataCount) : exec .fmt s = .next (s.complete (afterFmt s r)) := by
  rw [exec_long rfl, ranOf, fmtBody_ok hr h255 hfits, State.finish_ended, afterFmt]

/-- FMT keeps every element outside `MSG[0..N-1]` (20_memory.md R53). -/
theorem exec_fmt_elem_other {s t : State} {r : VersionRow} (hr : s.row = some r) (ht : exec .fmt s = .next t)
    {m : MemName} {j : Nat} (h : ¬ FmtWrites r m j) : t.elem m j = s.elem m j := by
  rw [exec_long rfl] at ht
  cases ht
  refine (State.finish_keepsOutside (fmtBody_keepsOutside s)).elem_eq m j ?_
  rintro ⟨r', hr', hw⟩
  cases hr.symm.trans hr'
  exact h hw

/-- Settles O39: each byte of MSG is read from its part of the formatted text, the head, the text or the pads. -/
theorem fmtFormatsTheText : Obligations.FmtFormatsTheText := by
  intro s r hr h255 hfits
  have hexec := exec_fmt_ok hr h255 hfits
  refine ⟨_, hexec, s.complete_completes _, ?mode, ?count, fun i hi => ?text, fun j hj => ?pad,
    fun m j hmj => exec_fmt_elem_other hr hexec hmj⟩
  case mode =>
    rw [complete_afterFmt_elem hfits (by omega), formatted_head _ _ _ _ (by decide), ← BitVec.ofNat_toNat]
    rfl
  case count =>
    rw [complete_afterFmt_elem hfits (by omega), formatted_head _ _ _ _ (by decide), ← BitVec.ofNat_toNat]
    rfl
  case text =>
    rw [complete_afterFmt_elem hfits (by omega), formatted_payload _ _ _ _ hi, State.textAt, if_pos hi]
    rfl
  case pad =>
    rw [complete_afterFmt_elem hfits hj, formatted_pad _ _ _ _ hj]
    rfl

end Sys2Proof.Machine
end

/-! # The divider

The shift register after `k` iterations has at each root of the generator the value of the first `e + k` coefficients of
the dividend, the data codewords followed by zeros (`polyEval_loop`); a block followed by its remainder is a codeword
because of this. -/

section

namespace Sys2Proof.Machine

/-! ### What enters the register -/

/-- The dividend of R124: the data codewords, and zeros from there on. -/
def dividend (data : Nat → Byte) (d j : Nat) : Byte := if j < d then data j else 0

theorem dividend_of_lt (data : Nat → Byte) {d j : Nat} (h : j < d) : dividend data d j = data j := if_pos h

theorem dividend_of_le (data : Nat → Byte) {d j : Nat} (h : d ≤ j) : dividend data d j = 0 := if_neg (by omega)

theorem dividend_succ (data : Nat → Byte) (d j : Nat) :
    dividend data (d + 1) (j + 1) = dividend (fun i => data (i + 1)) d j := by
  simp [dividend]

theorem rsLoad_eq (data : Nat → Byte) (d e : Nat) : rsLoad data d e = (List.range e).map (dividend data d) := rfl

theorem rsStep_eq (c : Config) (g : List Nat) (data : Nat → Byte) (d e : Nat) (R : List Byte) (k : Nat) :
    rsStep c g data d e R k = rsReduce c g (R.headD 0) (rsShift R (dividend data d (k + e))) := rfl

/-- The dividend: the data codewords and as many zeros as the register is long. -/
theorem map_dividend (data : Nat → Byte) (d e : Nat) :
    (List.range (d + e)).map (dividend data d) = (List.range d).map data ++ List.replicate e 0 := by
  have hdata : (List.range d).map (dividend data d) = (List.range d).map data :=
    List.map_congr_left fun j hj => dividend_of_lt data (List.mem_range.1 hj)
  have hzeros : (List.range e).map (fun j => dividend data d (d + j)) = List.replicate e 0 := by
    have hconst : (fun j => dividend data d (d + j)) = fun _ => 0 :=
      funext fun j => dividend_of_le data (Nat.le_add_right d j)
    rw [hconst, List.map_const', List.length_range]
  rw [List.range_add, List.map_append, List.map_map, hdata]
  exact congrArg _ hzeros

/-! ### Leading zeros -/

theorem rsReduce_zero {c : Config} (hc : c.wf = true) (g : List Nat) (R : List Byte) : rsReduce c g 0 R = R := by
  rw [rsReduce, logOf_zero hc]

/-- A shift moves the register's window one coefficient on. -/
theorem rsShift_map_range (f : Nat → Byte) {e : Nat} (he : 1 ≤ e) :
    rsShift ((List.range e).map f) (f e) = (List.range e).map (fun j => f (j + 1)) := by
  have hdrop : rsShift ((List.range e).map f) (f e) = ((List.range (e + 1)).map f).drop 1 := by
    rw [rsShift, List.range_succ, List.map_append, List.drop_append_of_le_length (by simpa using he)]
    rfl
  rw [hdrop, List.range_succ_eq_map, List.map_cons, List.map_map]
  rfl

/-- The first iteration on a block with a leading zero loads the rest of the block (R123). -/
theorem rsStep_leading_zero {c : Config} (hc : c.wf = true) (g : List Nat) {data : Nat → Byte} (d : Nat) {e : Nat}
    (he : 1 ≤ e) (h : data 0 = 0) :
    rsStep c g data (d + 1) e (rsLoad data (d + 1) e) 0 = rsLoad (fun j => data (j + 1)) d e := by
  have hlead : ((List.range e).map (dividend data (d + 1))).headD 0 = 0 := by
    obtain ⟨n, rfl⟩ := Nat.exists_eq_add_of_le' he
    rw [List.range_succ_eq_map]
    exact (dividend_of_lt data d.succ_pos).trans h
  rw [rsStep_eq, rsLoad_eq, hlead, rsReduce_zero hc, Nat.zero_add, rsShift_map_range _ he, rsLoad_eq]
  simp only [dividend_succ]

/-- A later iteration on a block is the iteration before on the block without its first codeword. -/
theorem rsStep_succ (c : Config) (g : List Nat) (data : Nat → Byte) (d e : Nat) (R : List Byte) (k : Nat) :
    rsStep c g data (d + 1) e R (k + 1) = rsStep c g (fun j => data (j + 1)) d e R k := by
  rw [rsStep_eq, rsStep_eq, Nat.add_right_comm, dividend_succ]

theorem rsdiv_leading_zero {c : Config} (hc : c.wf = true) (g : List Nat) {data : Nat → Byte} (d : Nat) {e : Nat}
    (he : 1 ≤ e) (h : data 0 = 0) : rsdiv c g data (d + 1) e = rsdiv c g (fun j => data (j + 1)) d e := by
  rw [rsdiv, List.range_succ_eq_map, List.foldl_cons, List.foldl_map, rsStep_leading_zero hc g d he h]
  simp only [Nat.succ_eq_add_one, rsStep_succ]
  rfl

theorem rsdiv_no_data (c : Config) (g : List Nat) (data : Nat → Byte) (e : Nat) :
    rsdiv c g data 0 e = List.replicate e 0 := by
  have hload := map_dividend data 0 e
  rw [Nat.zero_add] at hload
  exact hload

/-- Settles O49: the length of the register, its load with no data, and the first iteration on a leading 0. -/
theorem leadingZerosAreShifts : Obligations.LeadingZerosAreShifts := fun c e g hc hg =>
  ⟨fun data d => rsdiv_length hc data d hg, fun data => rsdiv_no_data c g data e,
    fun _ d h => rsdiv_leading_zero hc g d (genFacts hc hg).ge h⟩

/-! ### What the two commands write -/

/-- A completed command shows the slices its writes left. -/
theorem State.slice_complete (s : State) (M : Memory) (m : MemName) (i n : Nat) :
    (s.complete M).slice m i n = (s.setMem M).slice m i n := rfl

theorem State.length_slice (s : State) (m : MemName) (i n : Nat) : (s.slice m i n).length = n := by simp [State.slice]

theorem State.getElem_slice (s : State) (m : MemName) (i n : Nat) {j : Nat} (h : j < (s.slice m i n).length) :
    (s.slice m i n)[j] = s.elem m (i + j) := by simp [State.slice]

/-- The remainder of a slice of MSG, with the generator named. -/
theorem rsdivResult_eq {s : State} {e : Nat} {g : List Nat} (hg : genPoly s.config e = some g) :
    rsdivResult s e = rsdiv s.config g (fun j => s.elem .msg (s.rsrc.toNat + j)) s.rlen.toNat e := by
  rw [rsdivResult, hg]; rfl

theorem blockRemainder_eq {s : State} {r : VersionRow} {g : List Nat} (hg : genPoly s.config r.e = some g) (b : Nat) :
    blockRemainder s r b = rsdiv s.config g (fun j => s.elem .msg (r.blockOff b + j)) (r.blockLen b) r.e := by
  rw [blockRemainder, hg]; rfl

/-- On legal operands RSDIV completes with the remainder in its slot. -/
theorem exec_rsdiv_ok {s : State} {e : Nat} (blk : Nat) (hg : (genPoly s.config e).isSome = true)
    (hfits : s.rsrc.toNat + s.rlen.toNat ≤ 2048) :
    exec (.rsdiv e blk) s = .next (s.complete (s.mem.putAll .ecb (ecbIndex blk 0) (rsdivResult s e))) := by
  rw [exec_long rfl, ranOf, rsdivBody_ok blk hg hfits, State.finish_ended]

/-- Settles O45: the slot just written, and the frame of the command. -/
theorem rsdivWritesTheRemainder : Obligations.RsdivWritesTheRemainder := by
  intro s e blk g hc _ hg hfits
  have hexec := exec_rsdiv_ok blk (Option.isSome_iff_exists.2 ⟨g, hg⟩) hfits
  have hlen : (rsdivResult s e).length = e := by rw [rsdivResult_eq hg, rsdiv_length hc _ _ hg]
  have hslot := slice_putAll s (ecbIndex blk 0) (rsdivResult s e) (m := .ecb) (by decide)
  rw [hlen] at hslot
  exact ⟨_, hexec, s.complete_completes _, hslot.trans (rsdivResult_eq hg), (exec_keepsOutside hc hexec).elem_eq⟩

/-- With a row RSENC completes with the remainders of the version's blocks. -/
theorem exec_rsenc_ok {s : State} {r : VersionRow} (hr : s.row = some r) :
    exec .rsenc s = .next (s.complete (rsencMemory s r)) := by
  rw [exec_long rfl, ranOf, rsencBody_row hr, State.finish_ended]

/-- Every slot reads as its block's remainder: a slot has 32 elements, and a remainder at most 30. -/
theorem slice_rsencMemory {s : State} (hc : s.config.wf = true) {r : VersionRow} (hr : s.row = some r) {b : Nat}
    (hb : b < r.blocks) : (s.setMem (rsencMemory s r)).slice .ecb (b * 32) r.e = blockRemainder s r b := by
  have hlen := blockRemainder_length hc hr b
  have he := (rowFacts hc hr).e_le
  refine List.ext_getElem (by rw [State.length_slice, hlen]) fun i _ hi => ?_
  have hdiv : (b * 32 + i) / 32 = b := by omega
  have hmod : (b * 32 + i) % 32 = i := by omega
  rw [State.getElem_slice, State.elem_setMem, rsencMemory_elem hc hr, hdiv, hmod, if_pos ⟨rfl, hb, by omega⟩,
    List.getD_eq_getElem?_getD, List.getElem?_eq_getElem hi, Option.getD_some]

/-- Settles O47: the slot of each block, and the frame of the command. -/
theorem rsencWritesEveryRemainder : Obligations.RsencWritesEveryRemainder := by
  intro s r hc hr
  obtain ⟨g, hg⟩ := Option.isSome_iff_exists.1 (rowFacts hc hr).in_eset
  have hexec := exec_rsenc_ok hr
  refine ⟨_, g, hg, hexec, s.complete_completes _, fun b hb => ?_, fun m j hout => ?_⟩
  · rw [State.slice_complete, slice_rsencMemory hc hr hb, blockRemainder_eq hg]
  · refine (exec_keepsOutside hc hexec).elem_eq m j ?_
    rintro ⟨r', hr', hw⟩
    cases hr.symm.trans hr'
    exact hout hw

/-! ### Values of polynomials, with the printed tables -/

/-- Horner's rule from a value on: what `polyEval` does from 0 on. -/
def horner (x : Byte) (acc : Byte) (l : List Byte) : Byte := l.foldl (fun acc b => gfadd (gfmul cfg acc x) b) acc

theorem polyEval_eq_horner (x : Byte) (l : List Byte) : polyEval cfg x l = horner x 0 l := rfl

theorem horner_cons (x acc b : Byte) (l : List Byte) : horner x acc (b :: l) = horner x (gfadd (gfmul cfg acc x) b) l :=
  rfl

theorem gfadd_comm (a b : Byte) : gfadd a b = gfadd b a := BitVec.xor_comm a b

theorem gfadd_self (a : Byte) : gfadd a a = 0 := BitVec.xor_self

theorem gfadd_zero (a : Byte) : gfadd a 0 = a := BitVec.xor_zero

theorem zero_gfadd (a : Byte) : gfadd 0 a = a := BitVec.zero_xor

theorem gfadd_gfadd_gfadd_comm (a b d e : Byte) : gfadd (gfadd a b) (gfadd d e) = gfadd (gfadd a d) (gfadd b e) := by
  unfold gfadd
  ac_rfl

theorem gfadd_gfmul (a b x : Byte) : gfmul cfg (gfadd a b) x = gfadd (gfmul cfg a x) (gfmul cfg b x) := by
  simp only [gfmul_comm cfg_wf _ x, gfmul_gfadd]

theorem polyEval_cons (x b : Byte) (l : List Byte) : polyEval cfg x (b :: l) = horner x b l := by
  rw [polyEval_eq_horner, horner_cons, zero_gfmul cfg_wf, zero_gfadd]

theorem polyEval_append (x : Byte) (p q : List Byte) : polyEval cfg x (p ++ q) = horner x (polyEval cfg x p) q :=
  List.foldl_append

/-- The value of a sum is the sum of the values. -/
theorem horner_zipWith (x : Byte) {p q : List Byte} (h : p.length = q.length) (a b : Byte) :
    horner x (gfadd a b) (List.zipWith gfadd p q) = gfadd (horner x a p) (horner x b q) := by
  induction p generalizing q a b with
  | nil => cases q with
    | nil => rfl
    | cons => cases h
  | cons u p ih => cases q with
    | nil => cases h
    | cons v q =>
      rw [List.zipWith_cons_cons, horner_cons, horner_cons, horner_cons, gfadd_gfmul, gfadd_gfadd_gfadd_comm]
      exact ih (Nat.succ.inj h) _ _

/-- The value of a multiple is the multiple of the value. -/
theorem horner_map_gfmul (x a : Byte) (p : List Byte) (b : Byte) :
    horner x (gfmul cfg a b) (p.map (gfmul cfg a)) = gfmul cfg a (horner x b p) := by
  induction p generalizing b with
  | nil => rfl
  | cons u p ih => rw [List.map_cons, horner_cons, horner_cons, gfmul_assoc cfg_wf, ← gfmul_gfadd, ih]

theorem polyEval_map_gfmul (x a : Byte) (p : List Byte) :
    polyEval cfg x (p.map (gfmul cfg a)) = gfmul cfg a (polyEval cfg x p) := by
  have h := horner_map_gfmul x a p 0
  rwa [gfmul_zero cfg_wf] at h

theorem zipWith_gfadd_zeros (q : List Byte) : List.zipWith gfadd q (List.replicate q.length 0) = q := by
  induction q with
  | nil => rfl
  | cons b q ih => rw [List.length_cons, List.replicate_succ, List.zipWith_cons_cons, ih, gfadd_zero]

/-- A polynomial of low degree added to one with as many zeros at its end. -/
theorem polyEval_append_eq_gfadd (x : Byte) (p q : List Byte) :
    polyEval cfg x (p ++ q) = gfadd (polyEval cfg x (p ++ List.replicate q.length 0)) (polyEval cfg x q) := by
  have hsum := horner_zipWith x (q := List.replicate q.length 0) List.length_replicate.symm 0 (polyEval cfg x p)
  rw [zipWith_gfadd_zeros, zero_gfadd, gfadd_comm] at hsum
  rw [polyEval_append, polyEval_append, hsum, polyEval_eq_horner x q]

/-! ### The roots of the generator -/

/-- The value of `p * (x + a)`. -/
theorem polyEval_timesRoot (x a : Byte) (p : List Byte) :
    polyEval cfg x (timesRoot cfg p a) = gfmul cfg (polyEval cfg x p) (gfadd x a) := by
  have hlen : (p ++ [0]).length = (0 :: p.map (gfmul cfg a)).length := by simp
  have hzip := horner_zipWith x hlen 0 0
  rw [gfadd_zero, ← polyEval_eq_horner, ← polyEval_eq_horner, ← polyEval_eq_horner] at hzip
  rw [timesRoot, hzip, polyEval_append, horner_cons, polyEval_cons, ← polyEval_eq_horner, polyEval_map_gfmul,
    gfmul_gfadd, gfmul_comm cfg_wf a]
  exact congrArg (gfadd · _) (gfadd_zero _)

theorem rootProduct_succ (n : Nat) : rootProduct cfg (n + 1) = timesRoot cfg (rootProduct cfg n) (alog cfg n) := by
  simp only [rootProduct, List.range_succ, List.map_append, List.foldl_append, List.map_cons, List.map_nil,
    List.foldl_cons, List.foldl_nil]

theorem polyEval_rootProduct {n j : Nat} (h : j < n) : polyEval cfg (alog cfg j) (rootProduct cfg n) = 0 := by
  induction n with
  | zero => omega
  | succ n ih =>
    rw [rootProduct_succ, polyEval_timesRoot]
    obtain hlt | rfl : j < n ∨ j = n := by omega
    · rw [ih hlt, zero_gfmul cfg_wf]
    · rw [gfadd_self, gfmul_zero cfg_wf]

/-- The printed generator begins with the coefficient 1, which the reduction leaves out, and is 0 at its roots. -/
theorem horner_generator {e j : Nat} {g : List Nat} (hg : genPoly cfg e = some g) (hj : j < e) :
    horner (alog cfg j) 1 ((g.drop 1).map (alog cfg)) = 0 := by
  have hf := genFacts cfg_wf hg
  have hroots := cfg_gen_rootProduct _ (genPoly_mem hg)
  cases g with
  | nil => cases hf.length_eq
  | cons g0 g =>
    obtain rfl : g0 = 0 := hf.monic
    have hzero := polyEval_rootProduct hj
    rwa [← hroots, List.map_cons, polyEval_cons, alog_zero cfg_wf] at hzero

/-! ### The remainder -/

/-- A term of the reduction: the logarithms are added (40_gf256.md R96). -/
theorem alog_expadd {l gi : Nat} (hl : l < 255) (hgi : gi < 255) :
    alog cfg (expadd gi l) = gfmul cfg (alog cfg l) (alog cfg gi) := by
  rw [gfmul_alog cfg_wf hl hgi, expadd_eq hgi hl, Nat.add_comm]

/-- The reduction adds the lead times the generator, but for its first term (R123). -/
theorem rsReduce_eq_zipWith {e : Nat} {g : List Nat} (hg : genPoly cfg e = some g) (lead : Byte) {R : List Byte}
    (hR : R.length = e) :
    rsReduce cfg g lead R = List.zipWith gfadd R (((g.drop 1).map (alog cfg)).map (gfmul cfg lead)) := by
  have hf := genFacts cfg_wf hg
  rw [List.map_map]
  obtain rfl | ⟨l, hl, rfl⟩ := byte_cases cfg_wf lead
  · have hconst : gfmul cfg 0 ∘ alog cfg = fun _ => 0 := funext fun _ => zero_gfmul cfg_wf _
    have hzeros : (g.drop 1).map (gfmul cfg 0 ∘ alog cfg) = List.replicate R.length 0 := by
      rw [hconst, List.map_const', List.length_drop, hf.length_eq, hR, Nat.add_sub_cancel]
    rw [rsReduce_zero cfg_wf, hzeros, zipWith_gfadd_zeros]
  · have hterms : (g.drop 1).map (fun gi => alog cfg (expadd gi l)) =
        (g.drop 1).map (gfmul cfg (alog cfg l) ∘ alog cfg) :=
      List.map_congr_left fun gi hgi => alog_expadd hl (hf.entries gi (List.mem_of_mem_drop hgi))
    rw [rsReduce, logOf_alog cfg_wf hl, ← hterms, List.zipWith_map_right]
    rfl

/-- At a root of the generator the reduced register has the value it has with the lead before it. -/
theorem polyEval_rsReduce {e j : Nat} {g : List Nat} (hg : genPoly cfg e = some g) (hj : j < e) (lead : Byte)
    {R : List Byte} (hR : R.length = e) :
    polyEval cfg (alog cfg j) (rsReduce cfg g lead R) = horner (alog cfg j) lead R := by
  have hlen : R.length = (((g.drop 1).map (alog cfg)).map (gfmul cfg lead)).length := by
    simp [hR, (genFacts cfg_wf hg).length_eq]
  have hsum := horner_zipWith (alog cfg j) hlen lead (gfmul cfg lead 1)
  rwa [horner_map_gfmul, horner_generator hg hj, gfmul_zero cfg_wf, gfadd_zero, gfmul_one cfg_wf, gfadd_self,
    ← rsReduce_eq_zipWith hg lead hR] at hsum

/-- At a root of the generator an iteration is one step of Horner's rule on the dividend. -/
theorem polyEval_rsStep {e j : Nat} {g : List Nat} (hg : genPoly cfg e = some g) (hj : j < e) (data : Nat → Byte)
    (d k : Nat) {R : List Byte} (hR : R.length = e) :
    polyEval cfg (alog cfg j) (rsStep cfg g data d e R k) =
      polyEval cfg (alog cfg j) (R ++ [dividend data d (k + e)]) := by
  cases R with
  | nil => subst hR; cases hj
  | cons lead R =>
    rw [rsStep_eq, List.headD_cons, polyEval_rsReduce hg hj lead (by simpa [rsShift] using hR), List.cons_append,
      polyEval_cons]
    rfl

/-- The invariant of the division: after `k` iterations the register has the value of the first `e + k` coefficients of
the dividend. -/
theorem polyEval_loop {e j : Nat} {g : List Nat} (hg : genPoly cfg e = some g) (hj : j < e) (data : Nat → Byte)
    (d k : Nat) :
    polyEval cfg (alog cfg j) ((List.range k).foldl (rsStep cfg g data d e) (rsLoad data d e)) =
      polyEval cfg (alog cfg j) ((List.range (k + e)).map (dividend data d)) := by
  have hf := genFacts cfg_wf hg
  induction k with
  | zero => rw [Nat.zero_add]; rfl
  | succ k ih =>
    have hlen := rsLoop_length cfg data d hf.length_eq hf.ge (List.range k) _ (rsLoad_length data d e)
    rw [List.range_succ, List.foldl_append, List.foldl_cons, List.foldl_nil, polyEval_rsStep hg hj data d k hlen,
      polyEval_append, ih, ← polyEval_append, Nat.add_right_comm k 1 e, List.range_succ, List.map_append]
    rfl

/-- A block followed by its remainder is a codeword (R124). -/
theorem isCodeword_rsdiv {e : Nat} {g : List Nat} (hg : genPoly cfg e = some g) (data : Nat → Byte) (d : Nat) :
    IsCodeword cfg e ((List.range d).map data ++ rsdiv cfg g data d e) := by
  intro j hj
  rw [polyEval_append_eq_gfadd, rsdiv_length cfg_wf data d hg, ← map_dividend, rsdiv, polyEval_loop hg hj, gfadd_self]

/-- Settles O46: what RSDIV writes is the remainder of what it reads. -/
theorem rsdivMakesACodeword : Obligations.RsdivMakesACodeword := by
  intro s t e blk hcfg hblk hgen hfits ht
  obtain ⟨g, hg⟩ := Option.isSome_iff_exists.1 hgen
  obtain ⟨t', ht', -, hslot, -⟩ :=
    rsdivWritesTheRemainder s e blk g (hcfg ▸ cfg_wf) hblk (hcfg ▸ hg) hfits
  cases ht.symm.trans ht'
  rw [hslot, hcfg]
  exact isCodeword_rsdiv hg _ _

/-- Settles O48: what RSENC writes for a block is the remainder of the block. -/
theorem rsencMakesEveryBlockACodeword : Obligations.RsencMakesEveryBlockACodeword := by
  intro s t r hcfg hr ht b hb
  obtain ⟨t', g, hg, ht', -, hslots, -⟩ := rsencWritesEveryRemainder s r (hcfg ▸ cfg_wf) hr
  cases ht.symm.trans ht'
  rw [hcfg] at hg
  rw [hslots b hb, hcfg]
  exact isCodeword_rsdiv hg _ _

end Sys2Proof.Machine
end

/-! # The interleaver

The stream is three blocks of rows: the rounds of all the blocks, the rounds of group 2 alone, and the error-correction
rounds. `lt_total_iff` says that their places are exactly the positions below `T`; what ILV writes at each is then read
off the lists of rows. -/

section

namespace Sys2Proof.Machine

/-! ### The positions of the stream -/

/-- The numbers below `n * w` are the places of `n` rows of width `w`. -/
theorem lt_mul_iff_exists_place {q n w : Nat} : q < n * w ↔ ∃ i b, i < n ∧ b < w ∧ q = i * w + b := by
  constructor
  · intro h
    have hw : 0 < w := Nat.pos_of_lt_mul_left h
    exact ⟨q / w, q % w, (Nat.div_lt_iff_lt_mul hw).2 h, Nat.mod_lt q hw, (Nat.div_add_mod' q w).symm⟩
  · rintro ⟨i, b, hi, hb, rfl⟩
    exact place_lt hi hb

/-- Where group 2 has a block, the longest block has `D2` codewords (43_interleaver.md R137). -/
theorem dMax_eq_d2 {r : VersionRow} (hd : r.g2 = 0 ∨ r.d1 ≤ r.d2) (hg : 0 < r.g2) : r.dMax = r.d2 := by
  rcases dMax_spec hd with ⟨h0, -⟩ | h
  · omega
  · exact h

/-- Every block has at least `D1` data codewords. -/
theorem d1_le_blockLen {r : VersionRow} (hd : r.g2 = 0 ∨ r.d1 ≤ r.d2) {b : Nat} (hb : b < r.blocks) :
    r.d1 ≤ r.blockLen b := by
  unfold VersionRow.blocks at hb
  unfold VersionRow.blockLen
  split <;> omega

theorem blockLen_of_ge {r : VersionRow} {b : Nat} (h : r.g1 ≤ b) : r.blockLen b = r.d2 := if_neg (by omega)

/-- `T` by the three blocks of rows. -/
theorem total_eq {r : VersionRow} (hd : r.g2 = 0 ∨ r.d1 ≤ r.d2) :
    r.total = r.d1 * r.blocks + (r.dMax - r.d1) * r.g2 + r.e * r.blocks := by
  rw [VersionRow.total, dataCount_eq hd, Nat.mul_comm r.blocks r.e]

/-- 43_interleaver.md R139: the positions below `T` are those of the common rounds, of the rounds of group 2 alone, and of
the error-correction rounds. -/
theorem lt_total_iff {r : VersionRow} (hd : r.g2 = 0 ∨ r.d1 ≤ r.d2) {p : Nat} : p < r.total ↔
    (∃ b i, b < r.blocks ∧ i < r.d1 ∧ p = i * r.blocks + b) ∨
    (∃ b i, r.g1 ≤ b ∧ b < r.blocks ∧ r.d1 ≤ i ∧ i < r.d2 ∧
      p = r.d1 * r.blocks + (i - r.d1) * r.g2 + (b - r.g1)) ∨
    (∃ b i, b < r.blocks ∧ i < r.e ∧ p = r.dataCount + i * r.blocks + b) := by
  have htotal := total_eq hd
  have hcount := dataCount_eq hd
  constructor
  · intro hp
    by_cases hcommon : p < r.d1 * r.blocks
    · obtain ⟨i, b, hi, hb, rfl⟩ := lt_mul_iff_exists_place.1 hcommon
      exact .inl ⟨b, i, hb, hi, rfl⟩
    by_cases hdata : p < r.dataCount
    · obtain ⟨k, j, hk, hj, hpos⟩ : ∃ k j, k < r.dMax - r.d1 ∧ j < r.g2 ∧ p - r.d1 * r.blocks = k * r.g2 + j :=
        lt_mul_iff_exists_place.1 (by omega)
      have hmax := dMax_eq_d2 hd (by omega)
      refine .inr (.inl ⟨r.g1 + j, r.d1 + k, by omega, Nat.add_lt_add_left hj _, by omega, by omega, ?_⟩)
      rw [Nat.add_sub_cancel_left, Nat.add_sub_cancel_left]
      omega
    · obtain ⟨i, b, hi, hb, hpos⟩ : ∃ i b, i < r.e ∧ b < r.blocks ∧ p - r.dataCount = i * r.blocks + b :=
        lt_mul_iff_exists_place.1 (by omega)
      exact .inr (.inr ⟨b, i, hb, hi, by omega⟩)
  · rintro (⟨b, i, hb, hi, rfl⟩ | ⟨b, i, hgroup, hb, hi, hi2, rfl⟩ | ⟨b, i, hb, hi, rfl⟩)
    · have := place_lt hi hb
      omega
    · have hj : b - r.g1 < r.g2 := by unfold VersionRow.blocks at hb; omega
      have hmax := dMax_eq_d2 hd (by omega)
      have := place_lt (show i - r.d1 < r.dMax - r.d1 by omega) hj
      omega
    · have := place_lt hi hb
      omega

/-! ### What ILV leaves -/

/-- With a row ILV completes with the interleaved codewords from `STREAM[0]` up. -/
theorem exec_ilv_ok {s : State} {r : VersionRow} (hr : s.row = some r) :
    exec .ilv s = .next (s.complete (s.mem.putAll .stream 0 (interleaved s r))) := by
  rw [exec_long rfl, ranOf, ilvBody_row hr, State.finish_ended]

/-- After ILV, `STREAM[0..T-1]` reads as the interleaved codewords (43_interleaver.md R135). -/
theorem exec_ilv_elem {s t : State} {r : VersionRow} (hc : s.config.wf = true) (hr : s.row = some r)
    (ht : exec .ilv s = .next t) {p : Nat} (hp : p < r.total) : t.elem .stream p = (interleaved s r).getD p 0 := by
  cases (exec_ilv_ok hr).symm.trans ht
  exact Memory.elem_putAll_zero s.mem s.powerUps (by decide) (by rwa [interleaved_length s (rowFacts hc hr).d2_ge])

/-- Settles O50: each kind of position lies below `T`, and the interleaved list has the codeword of the block there. -/
theorem ilvPositions : Obligations.IlvPositions := by
  intro s r hc hr
  have hd := (rowFacts hc hr).d2_ge
  have hexec := exec_ilv_ok hr
  refine ⟨_, hexec, s.complete_completes _, fun b i hb hi => ?common, fun b i hgroup hb hi hi2 => ?group2,
    fun b i hb hi => ?ec, fun m j hout => ?frame⟩
  case common =>
    have hp := (lt_total_iff hd).2 (.inl ⟨b, i, hb, hi, rfl⟩)
    exact (exec_ilv_elem hc hr hexec hp).trans (interleaved_data s hd hb hi)
  case group2 =>
    have hp := (lt_total_iff hd).2 (.inr (.inl ⟨b, i, hgroup, hb, hi, hi2, rfl⟩))
    exact (exec_ilv_elem hc hr hexec hp).trans (interleaved_last s hd hgroup hb hi hi2)
  case ec =>
    have hp := (lt_total_iff hd).2 (.inr (.inr ⟨b, i, hb, hi, rfl⟩))
    exact (exec_ilv_elem hc hr hexec hp).trans (interleaved_ec s hd hb hi)
  case frame =>
    refine (exec_keepsOutside hc hexec).elem_eq m j ?_
    rintro ⟨r', hr', hw⟩
    cases hr.symm.trans hr'
    exact hout hw

/-- Settles O51: a position below `T` is of one of the three kinds, and O50 says which codeword stands there. -/
theorem ilvLosesNothing : Obligations.IlvLosesNothing := by
  intro s t r hc hr ht p hp
  have hd := (rowFacts hc hr).d2_ge
  obtain ⟨t', ht', -, hcommon, hgroup2, hec, -⟩ := ilvPositions s r hc hr
  cases ht.symm.trans ht'
  obtain ⟨b, i, hb, hi, rfl⟩ | ⟨b, i, hgroup, hb, hi, hi2, rfl⟩ | ⟨b, i, hb, hi, rfl⟩ := (lt_total_iff hd).1 hp
  · exact .inl ⟨b, i, hb, Nat.lt_of_lt_of_le hi (d1_le_blockLen hd hb), hcommon b i hb hi, (if_pos hi).symm⟩
  · exact .inl ⟨b, i, hb, by rwa [blockLen_of_ge hgroup], hgroup2 b i hgroup hb hi hi2, (if_neg (by omega)).symm⟩
  · exact .inr ⟨b, i, hb, hi, hec b i hb hi, rfl⟩

end Sys2Proof.Machine
end

/-! # The reference skeleton

The count of a skeleton's free cells by rows (`skel_free_count`) meets the printed rows. -/

section

namespace Sys2Proof.Machine

theorem length_squareCells (n : Nat) : (squareCells n).length = n * n := by
  simp only [squareCells, List.length_flatMap, List.length_map, List.length_range, List.map_const',
    List.sum_replicate_nat]

theorem length_skelCells (v : Nat) : (skelCells v).length = (4 * v + 17) * (4 * v + 17) := by
  rw [skelCells, List.length_map, length_squareCells]

/-- The free cells of SKEL(v), those whose byte has `rsv` 0, counted by rows. -/
theorem countP_free_skelCells {v : Nat} (h1 : 1 ≤ v) (h2 : v ≤ 40) :
    (skelCells v).countP (fun c => !c.2.getLsbD 1) = freeInRows v (4 * v + 17) (alignCentres v) (4 * v + 17) := by
  rw [skelCells, List.countP_map]
  exact skel_free_count h1 h2

/-- 44_matrix_skeleton.md R158: the free cells of each printed row's skeleton, counted by rows, are its budget. -/
theorem freeInRows_eq_budget :
    ∀ r ∈ cfg.vpt, freeInRows r.version r.side (alignCentres r.version) r.side = r.budget := by decide +kernel

/-- Settles O60: each of the forty versions has a printed row, and the count by rows is the budget of every printed row. -/
theorem skeletonFreeCellsAreTheBudget : Obligations.SkeletonFreeCellsAreTheBudget := by
  intro v h1 h2
  obtain ⟨r, hr⟩ := Option.isSome_iff_exists.1 ((versionTableIsWellFormed.1 v).2 ⟨h1, h2⟩)
  obtain ⟨hmem, rfl⟩ := versionRow_mem hr
  exact ⟨r, hr, (countP_free_skelCells h1 h2).trans (freeInRows_eq_budget r hmem), length_skelCells r.version⟩

end Sys2Proof.Machine
end

/-! # The bit-placement engine

The strips of the walk are written out in closed form (`strips_square`); which cells the walk passes, how often and in what
order is read off it. Since it passes no cell twice, `walked` says what PLACE leaves. -/

section

namespace Sys2Proof.Machine

/-! ### The strips -/

/-- The right-hand column of the `m`-th strip from the left edge, counted from 1 (45_placement.md R171); 0 for no strip. -/
def stripRight (m : Nat) : Nat := if 3 < m then 2 * m else 2 * m - 1

theorem stripRight_spec (m : Nat) : (3 < m ∧ stripRight m = 2 * m) ∨ (m ≤ 3 ∧ stripRight m = 2 * m - 1) := by
  unfold stripRight
  split <;> omega

theorem stripRight_pos {m : Nat} (h : 1 ≤ m) : 1 ≤ stripRight m := by
  have := stripRight_spec m
  omega

/-- The strips lie two columns apart. -/
theorem stripRight_add_two_le {a b : Nat} (ha : 1 ≤ a) (h : a < b) : stripRight a + 2 ≤ stripRight b := by
  have := stripRight_spec a
  have := stripRight_spec b
  omega

/-- The strips from the `m`-th one from the left on: `m` of them, in alternating directions. Where column 6 would begin a
strip, column 5 does. -/
theorem strips_eq_map {m fuel right : Nat} (up : Bool) (hfuel : m ≤ fuel)
    (hright : right = stripRight m ∨ right = 6 ∧ m = 3) :
    strips fuel right up = (List.range m).map (fun k => (stripRight (m - k), up == (k % 2 == 0))) := by
  induction m generalizing fuel right up with
  | zero =>
    obtain rfl : right = 0 := hright.elim id (by omega)
    cases fuel <;> rfl
  | succ m ih =>
    have hspec := stripRight_spec (m + 1)
    obtain ⟨fuel, rfl⟩ : ∃ f, fuel = f + 1 := ⟨fuel - 1, by omega⟩
    have hcol : (if right = 6 then 5 else right) = stripRight (m + 1) := by split <;> omega
    have hnext : stripRight (m + 1) - 2 = stripRight m ∨ stripRight (m + 1) - 2 = 6 ∧ m = 3 := by
      have := stripRight_spec m
      omega
    have hturn (k : Nat) : ((!up) == (k % 2 == 0)) = (up == ((k + 1) % 2 == 0)) := by
      rcases Nat.mod_two_eq_zero_or_one k with h | h <;> cases up <;> simp [h, Nat.add_mod]
    rw [strips, if_neg (by omega), hcol]
    simp [ih (!up) (Nat.le_of_succ_le_succ hfuel) hnext, List.range_succ_eq_map, Function.comp_def, hturn]

/-- The strips of a square of side `2*m + 1` (45_placement.md R171). -/
theorem strips_square {m : Nat} (hm : 3 < m) :
    strips (2 * m + 1) (2 * m + 1 - 1) true = (List.range m).map (fun k => (stripRight (m - k), k % 2 == 0)) := by
  have hspec := stripRight_spec m
  rw [strips_eq_map (m := m) true (by omega) (.inl (by omega))]
  simp

/-- The columns of the strips are all those left of `2*m + 1` but column 6. -/
theorem exists_strip_column_iff {m col : Nat} (hm : 3 < m) :
    (∃ k < m, col = stripRight (m - k) ∨ col + 1 = stripRight (m - k)) ↔ col < 2 * m + 1 ∧ col ≠ 6 := by
  constructor
  · rintro ⟨k, hk, h⟩
    have := stripRight_spec (m - k)
    omega
  · rintro ⟨hcol, h6⟩
    by_cases hleft : col < 6
    · have := stripRight_spec (m - (m - (col / 2 + 1)))
      exact ⟨m - (col / 2 + 1), by omega⟩
    · have := stripRight_spec (m - (m - (col + 1) / 2))
      exact ⟨m - (col + 1) / 2, by omega⟩

/-! ### The cells of the walk -/

theorem mem_route_iff {m : Nat} (hm : 3 < m) (row col : Nat) :
    (row, col) ∈ route (2 * m + 1) ↔ row < 2 * m + 1 ∧ col < 2 * m + 1 ∧ col ≠ 6 := by
  rw [route, strips_square hm, ← exists_strip_column_iff hm]
  simp only [List.flatMap_map, List.mem_flatMap, List.mem_range]
  constructor
  · rintro ⟨k, hk, hcell⟩
    obtain ⟨hrow, hcol⟩ := (mem_stripCells _ _ (stripRight_pos (by omega)) row col).1 hcell
    exact ⟨hrow, k, hk, hcol⟩
  · rintro ⟨hrow, k, hk, hcol⟩
    exact ⟨k, hk, (mem_stripCells _ _ (stripRight_pos (by omega)) row col).2 ⟨hrow, hcol⟩⟩

theorem nodup_route {m : Nat} (hm : 3 < m) : (route (2 * m + 1)).Nodup := by
  refine route_nodup ?_
  rw [strips_square hm, List.pairwise_map]
  refine List.pairwise_lt_range.imp_of_mem fun {a b} _ hb hab => ?_
  have hb := List.mem_range.1 hb
  exact stripRight_add_two_le (by omega) (by omega)

/-- An entry of equally long parts, one after the other. -/
theorem getElem?_flatMap_of_length {α β : Type} {f : α → List β} {w i : Nat} (hf : ∀ a, (f a).length = w) (hi : i < w)
    (l : List α) (k : Nat) : (l.flatMap f)[w * k + i]? = l[k]?.bind (fun a => (f a)[i]?) := by
  induction l generalizing k with
  | nil => rfl
  | cons a l ih =>
    rw [List.flatMap_cons]
    cases k with
    | zero => rw [List.getElem?_append_left (by rw [hf]; omega)]; simp
    | succ k =>
      rw [List.getElem?_append_right (by rw [hf, Nat.mul_succ]; omega), hf, Nat.mul_succ,
        show w * k + w + i - w = w * k + i by omega, ih]
      rfl

theorem length_stripCells (n : Nat) (strip : Nat × Bool) : (stripCells n strip).length = 2 * n := by
  rw [stripCells, List.length_flatMap]
  simp only [List.length_cons, List.length_nil, List.map_const', List.sum_replicate_nat, List.length_range]
  omega

/-- The cell of row step `v` and column `j` of a strip (45_placement.md R171). -/
theorem stripCells_getElem? {n v j : Nat} (strip : Nat × Bool) (hv : v < n) (hj : j < 2) :
    (stripCells n strip)[2 * v + j]? = some (if strip.2 then n - 1 - v else v, strip.1 - j) := by
  rw [stripCells, getElem?_flatMap_of_length (w := 2) (fun _ => rfl) hj, List.getElem?_range hv]
  obtain rfl | rfl : j = 0 ∨ j = 1 := by omega
  all_goals rfl

theorem length_route {m : Nat} (hm : 3 < m) : (route (2 * m + 1)).length = 2 * (2 * m + 1) * m := by
  rw [route, strips_square hm, List.length_flatMap]
  simp only [length_stripCells, List.map_const', List.sum_replicate_nat, List.length_map, List.length_range]
  exact Nat.mul_comm m _

/-- The cell of row step `v` and column `j` of strip `k`. -/
theorem route_getElem? {m k v j : Nat} (hm : 3 < m) (hk : k < m) (hv : v < 2 * m + 1) (hj : j < 2) :
    (route (2 * m + 1))[2 * (2 * m + 1) * k + 2 * v + j]? =
      some (if k % 2 = 0 then 2 * m + 1 - 1 - v else v, stripRight (m - k) - j) := by
  rw [route, strips_square hm, Nat.add_assoc, getElem?_flatMap_of_length (length_stripCells _) (by omega),
    List.getElem?_map, List.getElem?_range hk]
  simp [stripCells_getElem? _ hv hj]

/-- Settles O52: a square of side `4*V + 17` has `2*V + 8` strips, whose closed form gives each clause. -/
theorem routeCoversTheSquareOnce : Obligations.RouteCoversTheSquareOnce := by
  intro V S _ hS
  obtain rfl : S = 2 * (2 * V + 8) + 1 := by omega
  have hm : 3 < 2 * V + 8 := by omega
  refine ⟨nodup_route hm, mem_route_iff hm, ?_, length_route hm, fun k v j hk hv hj => ?_⟩
  · rw [strips_square hm, List.length_map, List.length_range]
  · have hcol : stripRight (2 * V + 8 - k) = if 6 < 2 * (2 * V + 8) + 1 - 1 - 2 * k
        then 2 * (2 * V + 8) + 1 - 1 - 2 * k else 2 * (2 * V + 8) + 1 - 2 - 2 * k := by
      have := stripRight_spec (2 * V + 8 - k)
      split <;> omega
    rw [route_getElem? hm hk hv hj, hcol]

/-! ### The checks of PLACE -/

theorem placeBody_row {s : State} {r : VersionRow} (hr : s.row = some r) :
    placeBody s = if s.mask.toNat ≠ maskSel then .raised s.mem .unsupportedMask (s.mask.setWidth 32)
      else if s.freeCount r.side ≠ r.budget then
        .raised s.mem .geometryMismatch (infoPair r.budget (s.freeCount r.side))
      else .ended (placeWalk s r).1.mem := withVersion_some hr _

theorem mask_toNat_eq_maskSel_iff (s : State) : s.mask.toNat = maskSel ↔ s.mask = 1 := BitVec.toNat_inj (y := 1)

/-- A mask other than 1 is refused before the count of the free cells (45_placement.md R165). -/
theorem exec_place_bad_mask {s : State} {r : VersionRow} (hr : s.row = some r) (hm : s.mask ≠ 1) :
    exec .place s = .next ((s.setMem s.mem).takeFault .unsupportedMask (s.mask.setWidth 32)) := by
  rw [exec_long rfl, ranOf, placeBody_row hr, if_pos (mt (mask_toNat_eq_maskSel_iff s).1 hm), State.finish_raised]

theorem exec_place_bad_count {s : State} {r : VersionRow} (hr : s.row = some r) (hm : s.mask = 1)
    (hfree : s.freeCount r.side ≠ r.budget) : exec .place s =
      .next ((s.setMem s.mem).takeFault .geometryMismatch (infoPair r.budget (s.freeCount r.side))) := by
  rw [exec_long rfl, ranOf, placeBody_row hr, if_neg (fun hne => hne ((mask_toNat_eq_maskSel_iff s).2 hm)), if_pos hfree,
    State.finish_raised]

/-- Where both checks pass, PLACE completes with the memories of the walk. -/
theorem exec_place_ok {s : State} {r : VersionRow} (hr : s.row = some r) (hm : s.mask = 1)
    (hfree : s.freeCount r.side = r.budget) : exec .place s = .next (s.complete (placeWalk s r).1.mem) := by
  rw [exec_long rfl, ranOf, placeBody_row hr, if_neg (fun hne => hne ((mask_toNat_eq_maskSel_iff s).2 hm)),
    if_neg (fun hne => hne hfree), State.finish_ended]

/-- Settles O36: each check fails by its own fault, raised with the memories PLACE began with. -/
theorem placeChecksMaskThenGeometry : Obligations.PlaceChecksMaskThenGeometry := fun s _ hr =>
  ⟨fun hm => ⟨_, exec_place_bad_mask hr hm, s.takeFault_faults s.mem _ _, rfl⟩,
    fun hm hfree => ⟨_, exec_place_bad_count hr hm hfree, s.takeFault_faults s.mem _ _, rfl⟩⟩

/-! ### What the walk leaves -/

theorem side_eq (r : VersionRow) : r.side = 2 * (2 * r.version + 8) + 1 := by unfold VersionRow.side; omega

/-- The walk of PLACE passes no element of MAT twice, so `walked` says what it leaves. -/
theorem placeWalk_walked {s : State} {r : VersionRow} (hc : s.config.wf = true) (hr : s.row = some r) :
    Walked r.total (route r.side) s 0 (placeWalk s r) := by
  have hversion := (rowFacts hc hr).version_le
  refine walked r.total (route r.side) (route_cellIndex_nodup (by unfold VersionRow.side; omega) ?_) s 0
  rw [side_eq]
  exact nodup_route (by omega)

theorem visited_eq_freeOf (s : State) (r : VersionRow) : visited s r = s.freeOf (route r.side) := rfl

/-- After PLACE, the `k`-th visited cell reads as the masked payload of bit-step `k` (45_placement.md R172). -/
theorem complete_placeWalk_dark {s : State} {r : VersionRow} (hw : Walked r.total (route r.side) s 0 (placeWalk s r))
    {k row col : Nat} (hk : (visited s r)[k]? = some (row, col)) :
    (s.complete (placeWalk s r).1.mem).dark row col = xor (payloadBit s r.total k) (maskApplies row) := by
  have hcell : (s.complete (placeWalk s r).1.mem).elem .mat (cellIndex row col) = placedByte s r.total k row := by
    rw [State.elem, Memory.elem_eq, State.complete, hw.written k (row, col) hk, Nat.zero_add, Option.getD_some]
  rw [State.dark, hcell, placedByte, cellByte_dark]

/-- PLACE keeps every element but the visited cells (45_placement.md R170). -/
theorem complete_placeWalk_elem_other {s : State} {r : VersionRow}
    (hw : Walked r.total (route r.side) s 0 (placeWalk s r)) {m : MemName} {j : Nat}
    (h : ¬ (m = .mat ∧ ∃ row col, (row, col) ∈ visited s r ∧ j = row * 256 + col)) :
    (s.complete (placeWalk s r).1.mem).elem m j = s.elem m j := by
  by_cases hm : m = .mat
  · subst hm
    have hkept := hw.kept j fun c hc hj => h ⟨rfl, c.1, c.2, hc, hj⟩
    simp only [State.elem, State.complete, Memory.elem_eq, hkept]
  · have hpower : (s.complete (placeWalk s r).1.mem).powerUps = s.powerUps := rfl
    exact State.elem_eq_of_cells hpower (hw.others m hm) j

/-- PLACE keeps the `rsv` plane (45_placement.md R170). -/
theorem complete_placeWalk_rsv {s : State} {r : VersionRow} (hw : Walked r.total (route r.side) s 0 (placeWalk s r))
    (row col : Nat) : (s.complete (placeWalk s r).1.mem).rsv row col = s.rsv row col := by
  rw [← hw.rsv_eq row col, hw.rest]
  rfl

/-- Settles O53: where the checks pass PLACE completes with what its walk leaves. -/
theorem placeThreadsTheStream : Obligations.PlaceThreadsTheStream := by
  intro s r hc hr hm hfree
  have hw := placeWalk_walked hc hr
  exact ⟨_, exec_place_ok hr hm hfree, s.complete_completes _, fun _ _ _ hk => complete_placeWalk_dark hw hk,
    complete_placeWalk_rsv hw, fun _ _ h => complete_placeWalk_elem_other hw h⟩

/-! ### The count of the visited cells -/

theorem nodup_squareCells (n : Nat) : (squareCells n).Nodup := by
  rw [squareCells, List.Nodup, List.pairwise_flatMap]
  refine ⟨fun row _ => ?_, List.nodup_range.imp fun {row row'} hne c hc c' hc' heq => ?_⟩
  · exact List.pairwise_map.2 (List.nodup_range.imp fun hne heq => hne (Prod.mk.inj heq).2)
  · obtain ⟨col, -, rfl⟩ := List.mem_map.1 hc
    obtain ⟨col', -, rfl⟩ := List.mem_map.1 hc'
    exact hne (Prod.mk.inj heq).1

/-- The walk passes the cells of the square outside column 6, in another order (45_placement.md R171). -/
theorem route_perm {m : Nat} (hm : 3 < m) :
    (route (2 * m + 1)).Perm ((squareCells (2 * m + 1)).filter (fun c => c.2 ≠ 6)) := by
  refine (List.perm_ext_iff_of_nodup (nodup_route hm) ((nodup_squareCells _).filter _)).2 ?_
  rintro ⟨row, col⟩
  rw [mem_route_iff hm, List.mem_filter, mem_squareCells, decide_eq_true_eq, and_assoc]

/-- Where column 6 has no free cell, the walk visits every free cell of the square (45_placement.md R174). -/
theorem length_visited {s : State} {r : VersionRow} (h6 : ∀ row, row < r.side → s.rsv row 6 = true) :
    (visited s r).length = s.freeCount r.side := by
  have hperm : (route r.side).Perm ((squareCells r.side).filter (fun c => c.2 ≠ 6)) := by
    rw [side_eq]
    exact route_perm (by omega)
  rw [visited, ← List.countP_eq_length_filter, hperm.countP_eq, List.countP_filter, State.freeCount]
  refine List.countP_congr ?_
  rintro ⟨row, col⟩ hcell
  have hrow := ((mem_squareCells _ row col).1 hcell).1
  simp only [Bool.and_eq_true, Bool.not_eq_true', decide_eq_true_eq, and_iff_left_iff_imp]
  rintro hfree rfl
  exact Bool.false_ne_true (hfree.symm.trans (h6 row hrow))

/-- Settles O54: the walk counts the cells it visits, which are all the free cells. -/
theorem walkConsumesTheBudget : Obligations.WalkConsumesTheBudget := by
  intro s r hc hr hfree h6
  have hvisited : (visited s r).length = 8 * r.total + r.rem := (length_visited h6).trans hfree
  refine ⟨hvisited, ?_⟩
  rw [(placeWalk_walked hc hr).count, Nat.zero_add, ← visited_eq_freeOf, hvisited]

end Sys2Proof.Machine
end

/-! # The system commands and the pipeline

ENCODE is compared with the chain of its stages, each run where the one before it completed; a host program of commands
and WAITs is run command by command, and once one has faulted nothing in it clears ERR. -/

section

namespace Sys2Proof.Machine

/-! ### The immediate commands -/

/-- CLRERR is performed in IDLE and in FAULTED (46_system.md R188). -/
theorem writeCmd_clrerr {s : State} (hb : s.busy = false) : writeCmd s 0x0000000E = exec .clrerr s := by
  cases he : s.err with
  | true => exact writeCmd_clrerr_of_err hb he
  | false => exact writeCmd_of_immediate hb he (decodeOfEncode .clrerr rfl) rfl

/-- SRST is performed in IDLE and in FAULTED (46_system.md R189). -/
theorem writeCmd_srst {s : State} (hb : s.busy = false) : writeCmd s 0x0000000F = exec .srst s := by
  cases he : s.err with
  | true => exact writeCmd_srst_of_err hb he
  | false => exact writeCmd_of_immediate hb he (decodeOfEncode .srst rfl) rfl

/-- NOP is dropped while BUSY and in FAULTED (46_system.md R187). -/
theorem writeCmd_nop_dropped {s : State} (h : s.busy = true ∨ s.err = true) :
    writeCmd s 0x00000000 = .next s.setHzd := by
  cases hb : s.busy with
  | true => exact writeCmd_of_busy hb _
  | false =>
    have he : s.err = true := h.resolve_left (by simp [hb])
    exact writeCmd_other_of_err hb he (by decide) (by decide)

/-- Settles O10: NOP at CMD by the two flags, and the example of R187 run from reset. -/
theorem nopReportsCompletion : Obligations.NopReportsCompletion := by
  refine ⟨fun _ => rfl, fun s rest hr hin => ?_, ⟨_, rfl, by decide, rfl⟩⟩
  rw [step_cmd hr hin]
  exact ⟨fun h => writeCmd_nop_dropped (s := s.withInputs rest) h,
    fun hb he => writeCmd_of_immediate (s := s.withInputs rest) hb he (decodeOfEncode .nop rfl) rfl⟩

/-- Settles O11: CLRERR at CMD by BUSY alone. -/
theorem clrerrLeavesTheFaultedState : Obligations.ClrerrLeavesTheFaultedState := by
  refine ⟨fun _ => rfl, fun s rest hr hin => ?_⟩
  rw [step_cmd hr hin]
  exact ⟨fun hb => writeCmd_of_busy (s := s.withInputs rest) hb _,
    fun hb => writeCmd_clrerr (s := s.withInputs rest) hb⟩

/-- Settles O12: SRST at CMD by BUSY alone. -/
theorem srstResetsTheRegisters : Obligations.SrstResetsTheRegisters := by
  refine ⟨fun _ => rfl, fun s rest hr hin => ?_⟩
  rw [step_cmd hr hin]
  exact ⟨fun hb => writeCmd_of_busy (s := s.withInputs rest) hb _, fun hb =>
    ⟨_, writeCmd_srst (s := s.withInputs rest) hb, (s.withInputs rest).resetRegisters_registersReset, rfl⟩⟩

/-! ### ENCODE and its stages -/

/-- A command run after a completed one ends as if it had run in the state before that, with the memories it left: each
end writes all the flags the completion wrote. -/
theorem State.complete_finish (s : State) (M : Memory) (r : Ran) : (s.complete M).finish r = s.finish r := by
  cases r <;> rfl

/-- After a completed command the next long one runs on the memories it left. -/
theorem exec_complete {i : Instr} (hl : i.isLong = true) (s : State) (M : Memory) :
    exec i (s.complete M) = .next (s.finish (ranOf i (s.setMem M))) := by
  rw [exec_long hl, ranOf_view (s.sameView_complete M) hl, State.complete_finish]

theorem exec_rsenc_afterFmt {s : State} {r : VersionRow} (hr : s.row = some r) :
    exec .rsenc (s.complete (afterFmt s r)) = .next (s.complete (afterRsenc s r)) := by
  rw [exec_complete rfl, ranOf, rsencBody_row (s := s.setMem (afterFmt s r)) hr, State.finish_ended, afterRsenc]

theorem exec_ilv_afterRsenc {s : State} {r : VersionRow} (hr : s.row = some r) :
    exec .ilv (s.complete (afterRsenc s r)) = .next (s.complete (afterIlv s r)) := by
  rw [exec_complete rfl, ranOf, ilvBody_row (s := s.setMem (afterRsenc s r)) hr, State.finish_ended, State.setMem_mem,
    afterIlv]

/-- Where FMT's checks pass, ENCODE does what PLACE does after the first three stages, whether PLACE completes or faults
(46_system.md R185, R190). -/
theorem exec_encode_eq_exec_place {s : State} {r : VersionRow} (hr : s.row = some r) (h255 : s.tlen.toNat ≤ 255)
    (hfits : s.tlen.toNat + 2 ≤ r.dataCount) : exec .encode s = exec .place (s.complete (afterIlv s r)) := by
  rw [exec_complete rfl, exec_long rfl, ranOf, ranOf, encodeBody_ok hr h255 hfits]

/-- The first three stages write no `rsv` bit, so PLACE counts the same free cells after them. -/
theorem freeCount_complete_afterIlv (s : State) (r : VersionRow) (n : Nat) :
    (s.complete (afterIlv s r)).freeCount n = s.freeCount n :=
  ((s.sameView_complete _).freeCount n).trans (s.freeCount_setMem _ (afterIlv_mat s r) n)

/-- Where its mask or geometry check fails, PLACE after the first three stages faults as it would before them, and keeps
their memories (60_exceptions.md R213). -/
theorem exec_place_afterIlv_faults {s : State} {r : VersionRow} (hr : s.row = some r)
    (hbad : s.mask ≠ 1 ∨ s.freeCount r.side ≠ r.budget) :
    ∃ t, exec .place (s.complete (afterIlv s r)) = .next t ∧ t.mem = afterIlv s r ∧
      (if s.mask ≠ 1 then Faults s t 7 (s.mask.setWidth 32)
       else Faults s t 8 (BitVec.ofNat 16 r.budget ++ BitVec.ofNat 16 (s.freeCount r.side))) := by
  have hcount := freeCount_complete_afterIlv s r r.side
  by_cases hm : s.mask = 1
  · have hplace := exec_place_bad_count (s := s.complete (afterIlv s r)) hr hm
      (hcount.trans_ne (hbad.resolve_left (not_not_intro hm)))
    rw [hcount] at hplace
    refine ⟨_, hplace, rfl, ?_⟩
    rw [if_neg (not_not_intro hm)]
    exact s.takeFault_faults (afterIlv s r) .geometryMismatch _
  · refine ⟨_, exec_place_bad_mask (s := s.complete (afterIlv s r)) hr hm, rfl, ?_⟩
    rw [if_pos hm]
    exact s.takeFault_faults (afterIlv s r) .unsupportedMask _

/-- Settles O37: ENCODE is PLACE after three completed stages, which do not write MAT. -/
theorem encodeFaultKeepsTheEarlierStages : Obligations.EncodeFaultKeepsTheEarlierStages := by
  intro s r hr h255 hfits hbad
  obtain ⟨t, hplace, hmem, hfault⟩ := exec_place_afterIlv_faults hr hbad
  have hmat : t.mem.mat = s.mem.mat := by
    rw [hmem]
    exact afterIlv_mat s r
  exact ⟨t, _, _, _, (exec_encode_eq_exec_place hr h255 hfits).trans hplace, exec_fmt_ok hr h255 hfits,
    exec_rsenc_afterFmt hr, exec_ilv_afterRsenc hr, hmem, hmat, hfault⟩

/-- Settles O57: the four stages complete one after the other, and ENCODE is the last of them. -/
theorem encodeIsThePipeline : Obligations.EncodeIsThePipeline := by
  intro s r hr h255 hfits hm hfree
  have hplace := exec_place_ok (s := s.complete (afterIlv s r)) hr hm
    ((freeCount_complete_afterIlv s r r.side).trans hfree)
  exact ⟨_, _, _, _, exec_fmt_ok hr h255 hfits, exec_rsenc_afterFmt hr, exec_ilv_afterRsenc hr, hplace,
    (exec_encode_eq_exec_place hr h255 hfits).trans hplace, s.complete_completes _⟩

/-! ### A host program after a fault -/

/-- A WAIT, or a word other than those of CLRERR and SRST written to CMD: in FAULTED it leaves ERR at 1
(30_encoding.md R75). -/
def Event.keepsFault : Event → Bool
  | .write a w => a == cmdIndex && w != 0x0000000E && w != 0x0000000F
  | .wait => true
  | .read _ => false
  | .engine => false
  | .assertReset => false
  | .releaseReset => false
  | .powerUp => false

/-- The block is in FAULTED and no event to come takes it out. -/
structure StaysFaulted (s : State) : Prop where
  seq : s.seq = .faulted
  busy : s.busy = false
  err : s.err = true
  rst : s.rst = false
  inputs : s.inputs.all Event.keepsFault = true

theorem step_staysFaulted {s : State} (h : StaysFaulted s) : ∃ t, step s = .next t ∧ StaysFaulted t := by
  obtain ⟨hs, hb, he, hr, hall⟩ := h
  cases hin : s.inputs with
  | nil =>
    refine ⟨s, ?_, hs, hb, he, hr, hall⟩
    rw [step_nil hin, engineTurn_of_not_run (by simp [hs])]
  | cons e rest =>
    rw [hin, List.all_cons, Bool.and_eq_true] at hall
    obtain ⟨hkeeps, hrest⟩ := hall
    cases e with
    | write a w =>
      simp only [Event.keepsFault, Bool.and_eq_true, beq_iff_eq, bne_iff_ne] at hkeeps
      obtain ⟨⟨rfl, hclrerr⟩, hsrst⟩ := hkeeps
      exact ⟨(s.withInputs rest).setHzd,
        (step_cmd hr hin).trans (writeCmd_other_of_err (s := s.withInputs rest) hb he hclrerr hsrst),
        hs, hb, he, hr, hrest⟩
    | wait => exact ⟨s.withInputs rest, step_wait_of_not_busy hr hb hin, hs, hb, he, hr, hrest⟩
    | read | engine | assertReset | releaseReset | powerUp => cases hkeeps

theorem run_staysFaulted {s : State} (h : StaysFaulted s) (n : Nat) :
    ∃ t, Host.Core.run Sys2Proof.core n s = .next t ∧ StaysFaulted t := by
  induction n generalizing s with
  | zero => exact ⟨s, rfl, h⟩
  | succ n ih =>
    obtain ⟨u, hu, hstays⟩ := step_staysFaulted h
    rw [run_succ hu]
    exact ih hstays

/-! ### A host program without a fault -/

/-- In IDLE, a command and its WAIT at the head of a program take three steps; the rest of the program runs from the
finished command. -/
theorem run_command_wait {s : State} {i : Instr} (hi : i.wellFormed = true) (hl : i.isLong = true) (hr : s.rst = false)
    (hb : s.busy = false) (he : s.err = false) (rest : List Event) (n : Nat) :
    Host.Core.run Sys2Proof.core (n + 3) (s.withInputs (asmCommand i ++ asmWait ++ rest)) =
      Host.Core.run Sys2Proof.core n ((s.finish (ranOf i s)).withInputs rest) := by
  have hview : SameView s (s.withInputs (asmCommand i ++ asmWait ++ rest)) :=
    ⟨rfl, rfl, rfl, rfl, rfl, rfl, rfl, rfl⟩
  have hrun := run_command (s := s.withInputs (asmCommand i ++ asmWait ++ rest)) (decodeOfEncode i hi) hl hr hb he rfl n
  rw [ranOf_view hview hl] at hrun
  refine hrun.trans ?_
  cases ranOf i s <;> rfl

/-- A command and its WAIT at the head of a program that ends with ERR 0: the command completes, and the rest of the
program runs from there. -/
theorem run_command_of_clean_end {s t : State} {i : Instr} {rest : List Event} {n : Nat} (hi : i.wellFormed = true)
    (hl : i.isLong = true) (hr : s.rst = false) (hb : s.busy = false) (he : s.err = false)
    (hrest : rest.all Event.keepsFault = true)
    (hrun : Host.Core.run Sys2Proof.core (n + 3) (s.withInputs (asmCommand i ++ asmWait ++ rest)) = .next t)
    (ht : t.err = false) :
    ∃ M, ranOf i s = .ended M ∧ Host.Core.run Sys2Proof.core n ((s.complete M).withInputs rest) = .next t := by
  have hrun := (run_command_wait hi hl hr hb he rest n).symm.trans hrun
  cases hran : ranOf i s with
  | ended M =>
    rw [hran] at hrun
    exact ⟨M, rfl, hrun⟩
  | raised M c info =>
    rw [hran] at hrun
    obtain ⟨u, hu, hstays⟩ := run_staysFaulted (s := ((s.setMem M).takeFault c info).withInputs rest)
      ⟨rfl, rfl, rfl, hr, hrest⟩ n
    cases hu.symm.trans hrun
    exact absurd (hstays.err.symm.trans ht) (by decide)

/-- Four stages that end, each on the memories the one before it left, are ENCODE (46_system.md R185). -/
theorem encodeBody_of_stages {s : State} {M₁ M₂ M₃ M₄ : Memory} (hfmt : fmtBody s = .ended M₁)
    (hrsenc : rsencBody (s.setMem M₁) = .ended M₂) (hilv : ilvBody (s.setMem M₂) = .ended M₃)
    (hplace : placeBody (s.setMem M₃) = .ended M₄) : encodeBody s = .ended M₄ := by
  rw [encodeBody, hfmt, Ran.andThen_ended, hrsenc, Ran.andThen_ended, hilv, Ran.andThen_ended, hplace]

/-- Settles O58: a program that ends with ERR 0 had four commands that completed, and ENCODE is those four stages. -/
theorem encodeSeqEqualsEncode : Obligations.EncodeSeqEqualsEncode := by
  intro s t hr hb he hrun ht
  obtain ⟨M₁, hfmt, hrun⟩ := run_command_of_clean_end (i := .fmt) (n := 9) rfl rfl hr hb he rfl hrun ht
  obtain ⟨M₂, hrsenc, hrun⟩ :=
    run_command_of_clean_end (s := s.complete M₁) (i := .rsenc) (n := 6) rfl rfl hr rfl he rfl hrun ht
  obtain ⟨M₃, hilv, hrun⟩ :=
    run_command_of_clean_end (s := s.complete M₂) (i := .ilv) (n := 3) rfl rfl hr rfl he rfl hrun ht
  obtain ⟨M₄, hplace, hrun⟩ :=
    run_command_of_clean_end (s := s.complete M₃) (i := .place) (n := 0) (rest := []) rfl rfl hr rfl he rfl hrun ht
  have hencode : ranOf .encode s = .ended M₄ := by
    rw [ranOf_view (s.sameView_complete _) rfl] at hrsenc hilv hplace
    exact encodeBody_of_stages hfmt hrsenc hilv hplace
  cases hrun
  refine ⟨(run_command_wait (i := .encode) rfl rfl hr hb he [] 0).trans ?_, rfl, rfl⟩
  rw [hencode]
  rfl

end Sys2Proof.Machine
end

/-! # Faults and the interrupt output

Without a row for VER each command that reads it raises UnsupportedVersion before anything else; with one, the codes its
pseudocode raises are others. The capacity and operand checks raise with the memories the command began with. -/

section

namespace Sys2Proof.Machine

/-! ### The capacity check -/

theorem fmtBody_over {s : State} {r : VersionRow} (hr : s.row = some r)
    (h : 255 < s.tlen.toNat ∨ r.dataCount < s.tlen.toNat + 2) :
    fmtBody s = .raised s.mem .capacityExceeded (infoPair r.dataCount s.tlen.toNat) := by
  rw [fmtBody_row hr, if_pos ((exceedsCapacity_eq_true_iff _ _).2 h)]

/-- A fault of the first stage is all of ENCODE (46_system.md R190). -/
theorem encodeBody_of_fmt_raised {s : State} {M : Memory} {c : Cause} {info : Word} (h : fmtBody s = .raised M c info) :
    encodeBody s = .raised M c info := by
  rw [encodeBody, h, Ran.andThen_raised, Ran.andThen_raised, Ran.andThen_raised]

/-- TLEN has 16 bits, so the information word holds all of it. -/
theorem infoPair_tlen (s : State) (n : Nat) : infoPair n s.tlen.toNat = BitVec.ofNat 16 n ++ s.tlen := by
  rw [infoPair, BitVec.ofNat_toNat, BitVec.setWidth_eq]

/-- Settles O34: FMT and ENCODE raise the same fault, with the memories they began with. -/
theorem capacityExceededBeforeAnyWrite : Obligations.CapacityExceededBeforeAnyWrite := by
  intro i hi s r hr hover
  have hfmt := fmtBody_over hr hover
  rw [infoPair_tlen] at hfmt
  refine ⟨(s.setMem s.mem).takeFault .capacityExceeded _, ?_, s.takeFault_faults s.mem _ _, rfl⟩
  obtain rfl | rfl := List.mem_pair.1 hi
  · rw [exec_long rfl, ranOf, hfmt, State.finish_raised]
  · rw [exec_long rfl, ranOf, encodeBody_of_fmt_raised hfmt, State.finish_raised]

/-! ### The operand check of RSDIV -/

theorem badOperands_eq_true_iff (s : State) (e : Nat) :
    badOperands s e = true ↔ e ∉ s.config.eset ∨ 2048 < s.rsrc.toNat + s.rlen.toNat := by
  rw [← Bool.not_eq_false, badOperands_eq_false_iff, genPoly_isSome_iff, not_and_or, Nat.not_le]

/-- The command word of RSDIV as the sum of its opcode and its fields (30_encoding.md R71). -/
theorem encode_rsdiv_eq_ofNat {e blk : Nat} (he : e < 32) (hblk : blk < 128) :
    encode (.rsdiv e blk) = BitVec.ofNat 32 (2 + e * 256 + blk * 65536) := by
  refine BitVec.eq_of_toNat_eq ?_
  rw [toNat_encode_rsdiv he hblk, BitVec.toNat_ofNat]
  omega

/-- Settles O35: the check comes before the division, and its information word is the command word. -/
theorem badOperandBeforeAnyWrite : Obligations.BadOperandBeforeAnyWrite := by
  refine ⟨fun s e blk he hblk hbad => ?_, cfg_eset⟩
  have hbody := rsdivBody_bad blk ((badOperands_eq_true_iff s e).2 hbad)
  rw [encode_rsdiv_eq_ofNat he hblk] at hbody
  refine ⟨(s.setMem s.mem).takeFault .badOperand _, ?_, s.takeFault_faults s.mem _ _, rfl⟩
  rw [exec_long rfl, ranOf, hbody, State.finish_raised]

/-! ### The version check -/

/-- The commands that read VER (60_exceptions.md R202). -/
abbrev versionReaders : List Instr := [.fmt, .rsenc, .ilv, .place, .encode]

theorem isLong_of_mem_versionReaders : ∀ i ∈ versionReaders, i.isLong = true := by decide

/-- Without a row the version check is all of the pseudocode, for ENCODE in its first stage. -/
theorem ranOf_of_no_row {s : State} (h : s.row = none) :
    ∀ i ∈ versionReaders, ranOf i s = .raised s.mem .unsupportedVersion (s.ver.setWidth 32) := by
  have hcheck := withVersion_none h
  simp only [List.forall_mem_cons]
  exact ⟨hcheck _, hcheck _, hcheck _, hcheck _, encodeBody_of_fmt_raised (hcheck _), List.forall_mem_nil _⟩

theorem exec_of_no_row {s : State} (h : s.row = none) {i : Instr} (hi : i ∈ versionReaders) :
    exec i s = .next ((s.setMem s.mem).takeFault .unsupportedVersion (s.ver.setWidth 32)) := by
  rw [exec_long (isLong_of_mem_versionReaders i hi), ranOf_of_no_row h i hi, State.finish_raised]

theorem State.row_eq_none_iff_not_mem_vset (s : State) : s.row = none ↔ s.ver.toNat ∉ s.config.vset := by
  rw [← State.row_isSome_iff, Option.not_isSome_iff_eq_none]

/-! ### The codes a command raises -/

/-- A fault, if one is raised, has a code with the property `P`. -/
def Ran.raisesCode (P : BitVec 4 → Prop) : Ran → Prop
  | .ended _ => True
  | .raised _ c _ => P c.code

theorem Ran.raisesCode.mono {P Q : BitVec 4 → Prop} (hPQ : ∀ code, P code → Q code) {r : Ran} (h : r.raisesCode P) :
    r.raisesCode Q := by
  cases r with
  | ended M => trivial
  | raised M c info => exact hPQ _ h

/-- The end of a command keeps ERRCODE, or sets ERR with a code its pseudocode raises (60_exceptions.md R212). -/
theorem State.finish_errcode (s : State) {r : Ran} {P : BitVec 4 → Prop} (h : r.raisesCode P) :
    (s.finish r).errcode = s.errcode ∨ ((s.finish r).err = true ∧ P (s.finish r).errcode) := by
  cases r with
  | ended M => exact .inl rfl
  | raised M c info => exact .inr ⟨rfl, h⟩

theorem exec_errcode {i : Instr} {s t : State} {P : BitVec 4 → Prop} (hl : i.isLong = true) (h : (ranOf i s).raisesCode P)
    (ht : exec i s = .next t) : t.errcode = s.errcode ∨ (t.err = true ∧ P t.errcode) := by
  rw [exec_long hl] at ht
  cases ht
  exact s.finish_errcode h

theorem rsdivBody_raises_badOperand (e blk : Nat) (s : State) : (rsdivBody e blk s).raisesCode (· = 6) := by
  unfold rsdivBody
  split
  · rfl
  · trivial

theorem fmtBody_raises_not_two {s : State} {r : VersionRow} (hr : s.row = some r) : (fmtBody s).raisesCode (· ≠ 2) := by
  rw [fmtBody_row hr]
  split
  · exact (by decide : Cause.capacityExceeded.code ≠ 2)
  · trivial

theorem placeBody_raises_not_two {s : State} {r : VersionRow} (hr : s.row = some r) :
    (placeBody s).raisesCode (· ≠ 2) := by
  rw [placeBody_row hr]
  split
  · exact (by decide : Cause.unsupportedMask.code ≠ 2)
  · split
    · exact (by decide : Cause.geometryMismatch.code ≠ 2)
    · trivial

/-- With a row, no stage of ENCODE finds VER unsupported: its first stage faults by the capacity, or PLACE ends it. -/
theorem encodeBody_raises_not_two {s : State} {r : VersionRow} (hr : s.row = some r) :
    (encodeBody s).raisesCode (· ≠ 2) := by
  by_cases hover : 255 < s.tlen.toNat ∨ r.dataCount < s.tlen.toNat + 2
  · rw [encodeBody_of_fmt_raised (fmtBody_over hr hover)]
    exact (by decide : Cause.capacityExceeded.code ≠ 2)
  · rw [encodeBody_ok hr (by omega) (by omega)]
    exact placeBody_raises_not_two (s := s.setMem (afterIlv s r)) hr

theorem ranOf_raises_not_two {s : State} {r : VersionRow} (hr : s.row = some r) (i : Instr) :
    (ranOf i s).raisesCode (· ≠ 2) := by
  cases i with
  | fmt => exact fmtBody_raises_not_two hr
  | rsdiv e blk => exact (rsdivBody_raises_badOperand e blk s).mono (by decide)
  | rsenc =>
    rw [ranOf, rsencBody_row hr]
    trivial
  | ilv =>
    rw [ranOf, ilvBody_row hr]
    trivial
  | place => exact placeBody_raises_not_two hr
  | encode => exact encodeBody_raises_not_two hr
  | nop | clrerr | srst => trivial

/-- The printed `VSET` is 1..40 (60_exceptions.md R202). -/
theorem not_mem_cfg_vset_iff (v : BitVec 6) : v.toNat ∉ cfg.vset ↔ v = 0 ∨ 41 ≤ v.toNat := by
  rw [← BitVec.toNat_inj]
  exact (State.row_eq_none_iff_not_mem_vset { State.reset with ver := v }).symm.trans (versionRow_eq_none_iff v.toNat)

/-- Settles O33: by whether VER has a row; RSDIV has one cause of its own, and after reset VER is 0. -/
theorem unsupportedVersionComesFirst : Obligations.UnsupportedVersionComesFirst := by
  refine ⟨fun i hi s => ⟨fun hv => ?outside, fun hv t ht => ?inside⟩, not_mem_cfg_vset_iff,
    fun c v hc hv => ?wellFormed, fun e blk s t ht => ?rsdiv, fun i hi => ?reset⟩
  case outside =>
    exact ⟨_, exec_of_no_row (s.row_eq_none_iff_not_mem_vset.2 hv) hi, s.takeFault_faults s.mem _ _, rfl⟩
  case inside =>
    obtain ⟨r, hr⟩ := Option.isSome_iff_exists.1 (s.row_isSome_iff.2 hv)
    exact exec_errcode (isLong_of_mem_versionReaders i hi) (ranOf_raises_not_two hr i) ht
  case wellFormed =>
    have hrow : ({ State.reset with config := c, ver := v } : State).row = none := State.row_eq_none hc hv
    exact (State.row_eq_none_iff_not_mem_vset _).1 hrow
  case rsdiv => exact exec_errcode rfl (rsdivBody_raises_badOperand e blk s) ht
  case reset =>
    have hrow : State.reset.row = none := State.row_eq_none cfg_wf (.inl rfl)
    exact ⟨_, exec_of_no_row hrow hi, rfl, rfl⟩

/-! ### The interrupt output -/

/-- Settles O13: `irq` is its formula, which reads IE, DONE and ERR only. -/
theorem irqIsTheEnabledStatus : Obligations.IrqIsTheEnabledStatus := by
  refine ⟨fun s => ?_, rfl, fun s b => rfl⟩
  rw [State.irq, State.ieDone, State.ieErr, Bool.or_eq_true, Bool.and_eq_true, Bool.and_eq_true]

end Sys2Proof.Machine
end

/-! # Reset, hazards and what commands depend on

Two runs of a command on states that agree on its inputs (70_reset_and_hazards.md R246) fault alike, or write the same
elements with the same values and leave the same ones alone (`Ran.Alike`). A command does not write its inputs, so the same
comparison, of a run with the run after it, gives idempotence. -/

section

namespace Sys2Proof.Machine

/-! ### Steps in every state, and while `rst` is asserted -/

/-- Settles O26: the step of a state of the invariant, by the event that is next. -/
theorem nothingIsStuck : Obligations.NothingIsStuck := fun _ hi => hi.step_next

theorem RegistersReset.irq_eq {s : State} (h : RegistersReset s) : s.irq = false := by
  obtain ⟨-, -, hdone, herr, -⟩ := h
  simp [State.irq, hdone, herr]

theorem RegistersReset.engineTurn_eq {s : State} (h : RegistersReset s) : engineTurn s = .next s := by
  obtain ⟨hseq, -⟩ := h
  exact engineTurn_of_not_run (by simp [hseq])

/-- A poll of WAIT in reset counts a read, and uses the WAIT up or not. -/
theorem pollInReset_eq (s : State) (rest : List Event) :
    ∃ l, (l = rest ∨ l = s.inputs) ∧ pollInReset s rest = (s.withInputs l).countResetRead := by
  unfold pollInReset
  split
  · exact ⟨s.inputs, .inr rfl, rfl⟩
  · exact ⟨rest, .inl rfl, rfl⟩

/-- Settles O23: each event by what it does with `rst` asserted; the invariant holds the registers at their reset values. -/
theorem transfersWhileResetIsAsserted : Obligations.TransfersWhileResetIsAsserted := by
  intro s rest hrst
  refine ⟨fun a v hin => ?write, fun a hin => ?read, fun hin => ?wait, fun hin => step_cons hin, fun hi => ?inv⟩
  case write => rw [step_cons hin, occur, if_pos hrst]; rfl
  case read => rw [step_cons hin, occur, if_pos hrst]; rfl
  case wait =>
    obtain ⟨l, hl, hpoll⟩ := pollInReset_eq s rest
    refine ⟨l, hl, ?_⟩
    rw [step_cons hin, occur, if_pos hrst, hpoll]
    rfl
  case inv =>
    obtain ⟨-, -, -, -, -, hreset⟩ := hi
    have hregs := hreset hrst
    have hregs' : RegistersReset (s.withInputs rest) := hregs
    exact ⟨hregs, hregs.irq_eq, fun hin => (step_nil hin).trans hregs.engineTurn_eq,
      fun hin => (step_cons hin).trans hregs'.engineTurn_eq⟩

/-! ### Two runs side by side -/

/-- One run takes the memories `M` to `N`, another `M'` to `N'`: each element is written in both with one value, or lies
outside `C` and is left alone in both. -/
def SameWrites (C : MemName → Nat → Prop) (M N M' N' : Memory) : Prop :=
  ∀ m j, (∃ v, N.get? m j = some v ∧ N'.get? m j = some v) ∨
    (¬ C m j ∧ N.get? m j = M.get? m j ∧ N'.get? m j = M'.get? m j)

theorem SameWrites.mono {C D : MemName → Nat → Prop} {M N M' N' : Memory} (h : SameWrites C M N M' N')
    (hD : ∀ m j, D m j → C m j) : SameWrites D M N M' N' :=
  fun m j => (h m j).imp_right fun ⟨hC, hkept⟩ => ⟨fun hd => hC (hD m j hd), hkept⟩

theorem SameWrites.trans {C D : MemName → Nat → Prop} {M N O M' N' O' : Memory} (h : SameWrites C M N M' N')
    (h' : SameWrites D N O N' O') : SameWrites (fun m j => C m j ∨ D m j) M O M' O' := by
  intro m j
  obtain hwritten | ⟨hD, hkept, hkept'⟩ := h' m j
  · exact .inl hwritten
  · rw [hkept, hkept']
    exact (h m j).imp_right fun ⟨hC, hleft⟩ => ⟨not_or.2 ⟨hC, hD⟩, hleft⟩

/-- Elements of `C`, and elements that read alike before, read alike after. -/
theorem SameWrites.elem_eq {C : MemName → Nat → Prop} {s u : State} {N N' : Memory} (h : SameWrites C s.mem N u.mem N')
    {m : MemName} {j : Nat} (hj : C m j ∨ s.elem m j = u.elem m j) : (s.setMem N).elem m j = (u.setMem N').elem m j := by
  simp only [State.elem_setMem, Memory.elem_eq]
  obtain ⟨v, hN, hN'⟩ | ⟨hC, hN, hN'⟩ := h m j
  · rw [hN, hN']
    rfl
  · rw [hN, hN', ← Memory.elem_eq, ← Memory.elem_eq]
    exact hj.resolve_left hC

/-- A run beside the run after it: if both write the same, the second changes nothing. -/
theorem SameWrites.get?_eq {C : MemName → Nat → Prop} {M N O : Memory} (h : SameWrites C M N N O) (m : MemName)
    (j : Nat) : O.get? m j = N.get? m j := by
  obtain ⟨v, hN, hO⟩ | ⟨-, -, hO⟩ := h m j
  · rw [hO, hN]
  · exact hO

/-- How two runs of pseudocode, from the states `s` and `u`, end alike: both at the same `raise`, or both at their end with
the same writes. -/
inductive Ran.Alike (C : MemName → Nat → Prop) (s u : State) : Ran → Ran → Prop where
  | ended {N N' : Memory} (h : SameWrites C s.mem N u.mem N') : Alike C s u (.ended N) (.ended N')
  | raised (N N' : Memory) (c : Cause) (info : Word) : Alike C s u (.raised N c info) (.raised N' c info)

/-- Runs on the memories that earlier writes left are, with these writes, runs from where they began. -/
theorem Ran.Alike.after {C D E : MemName → Nat → Prop} {s u : State} {N N' : Memory} {r r' : Ran}
    (h : Ran.Alike D (s.setMem N) (u.setMem N') r r') (hbefore : SameWrites C s.mem N u.mem N')
    (hE : ∀ m j, E m j → C m j ∨ D m j) : Ran.Alike E s u r r' := by
  cases h with
  | ended h => exact .ended ((hbefore.trans h).mono hE)
  | raised _ _ c info => exact .raised _ _ c info

/-- The version check ends alike on equal versions, so two bodies behind it do if they do for each row. -/
theorem withVersion_alike {C : MemName → Nat → Prop} {s u : State} {body body' : VersionRow → Ran}
    (hver : s.ver = u.ver) (hrow : s.row = u.row) (h : ∀ r, s.row = some r → Ran.Alike C s u (body r) (body' r)) :
    Ran.Alike C s u (withVersion s body) (withVersion u body') := by
  cases hr : s.row with
  | none =>
    rw [withVersion_none hr, withVersion_none (hrow.symm.trans hr), hver]
    exact .raised _ _ _ _
  | some r =>
    rw [withVersion_some hr, withVersion_some (hrow.symm.trans hr)]
    exact h r hr

/-- What the engine's one step shows of two runs that end alike. -/
theorem Ran.Alike.finish {C : MemName → Nat → Prop} {s u : State} {r r' : Ran} (h : Ran.Alike C s u r r') :
    (s.finish r).seq = (u.finish r').seq ∧
    ((s.finish r).seq = .faulted →
      (s.finish r).errcode = (u.finish r').errcode ∧ (s.finish r).errinfo = (u.finish r').errinfo) ∧
    ((s.finish r).seq = .idle → ∀ m j, C m j → (s.finish r).elem m j = (u.finish r').elem m j) := by
  cases h with
  | ended h => exact ⟨rfl, nofun, fun _ m j hj => h.elem_eq (.inl hj)⟩
  | raised => exact ⟨rfl, fun _ => ⟨rfl, rfl⟩, nofun⟩

/-! ### The writes of each command -/

/-- The same bytes go to consecutive elements. -/
theorem sameWrites_putAll {C : MemName → Nat → Prop} (M M' : Memory) {m : MemName} {i : Nat} {l : List Byte}
    (hC : ∀ m' j, C m' j → m' = m ∧ i ≤ j ∧ j < i + l.length) :
    SameWrites C M (M.putAll m i l) M' (M'.putAll m i l) := by
  intro m' j
  rw [Memory.get?_putAll, Memory.get?_putAll]
  split
  · exact .inl ⟨_, rfl, rfl⟩
  · rename_i hout
    exact .inr ⟨fun h => hout (hC m' j h), rfl, rfl⟩

theorem sameWrites_afterFmt {s u : State} {r : VersionRow} (hlen : s.tlen = u.tlen)
    (htext : ∀ j, j < s.tlen.toNat → s.elem .text j = u.elem .text j) (hfits : s.tlen.toNat + 2 ≤ r.dataCount) :
    SameWrites (FmtWrites r) s.mem (afterFmt s r) u.mem (afterFmt u r) := by
  rw [afterFmt, afterFmt, ← hlen, ← formatted_congr htext]
  refine sameWrites_putAll _ _ fun m j ⟨hm, hj⟩ => ⟨hm, j.zero_le, ?_⟩
  rwa [formatted_length s hfits, Nat.zero_add]

theorem sameWrites_rsencMemory {s u : State} (hc : s.config.wf = true) (hcfg : u.config = s.config) {r : VersionRow}
    (hr : s.row = some r) (hru : u.row = some r) (hmsg : ∀ j, j < r.dataCount → s.elem .msg j = u.elem .msg j) :
    SameWrites (RsencWrites r) s.mem (rsencMemory s r) u.mem (rsencMemory u r) := by
  intro m j
  rw [rsencMemory_get? hc hr, rsencMemory_get? (hcfg ▸ hc) hru]
  split
  · rename_i hin
    obtain ⟨-, hb, -⟩ := hin
    have hblock : blockRemainder s r (j / 32) = blockRemainder u r (j / 32) :=
      blockRemainder_congr hcfg.symm (fun b i hb hi => hmsg _ (by have := block_fits hb; omega)) hb
    exact .inl ⟨_, rfl, by rw [hblock]⟩
  · rename_i hout
    have he := (rowFacts hc hr).e_le
    refine .inr ⟨?_, rfl, rfl⟩
    rintro ⟨hm, b, i, hb, hi, rfl⟩
    exact hout ⟨hm, by omega, by omega⟩

theorem sameWrites_interleaved {s u : State} (hc : s.config.wf = true) {r : VersionRow} (hr : s.row = some r)
    (hmsg : ∀ j, j < r.dataCount → s.elem .msg j = u.elem .msg j)
    (hecb : ∀ b i, b < r.blocks → i < r.e → s.elem .ecb (b * 32 + i) = u.elem .ecb (b * 32 + i)) :
    SameWrites (IlvWrites r) s.mem (s.mem.putAll .stream 0 (interleaved s r)) u.mem
      (u.mem.putAll .stream 0 (interleaved u r)) := by
  rw [← interleaved_congr hmsg hecb]
  refine sameWrites_putAll _ _ fun m j ⟨hm, hj⟩ => ⟨hm, j.zero_le, ?_⟩
  rwa [interleaved_length s (rowFacts hc hr).d2_ge, Nat.zero_add]

/-- The bit-steps below `8*T` read the stream below `T`, the others read nothing (45_placement.md R172). -/
theorem payloadBit_eq {s u : State} {n : Nat} (h : ∀ j, j < n → s.elem .stream j = u.elem .stream j) (k : Nat) :
    payloadBit s n k = payloadBit u n k := by
  unfold payloadBit
  split
  · rw [State.streamBit, State.streamBit, State.streamAt, State.streamAt, h (k / 8) (by omega)]
  · rfl

theorem SameRsv.freeCount_eq {s u : State} {r : VersionRow} (h : SameRsv s u r) :
    s.freeCount r.side = u.freeCount r.side := by
  refine List.countP_congr fun ⟨row, col⟩ hcell => ?_
  obtain ⟨hrow, hcol⟩ := (mem_squareCells _ row col).1 hcell
  rw [h row col hrow hcol]

theorem SameRsv.visited_eq {s u : State} {r : VersionRow} (h : SameRsv s u r) : visited s r = visited u r := by
  refine List.filter_congr fun ⟨row, col⟩ hcell => ?_
  obtain ⟨hrow, hcol⟩ := route_lt hcell
  rw [h row col hrow hcol]

/-- The cells of `MAT` the walk writes: the free ones outside column 6, through which it does not pass. -/
def WalkWrites (s : State) (r : VersionRow) (m : MemName) (j : Nat) : Prop := PlaceWrites s r m j ∧ j % 256 ≠ 6

theorem exists_visited_of_walkWrites {s : State} {r : VersionRow} (hversion : 1 ≤ r.version ∧ r.version ≤ 40)
    {m : MemName} {j : Nat} (h : WalkWrites s r m j) : ∃ c ∈ visited s r, j = cellIndex c.1 c.2 := by
  obtain ⟨⟨-, row, col, ⟨hrow, hcol, hfree⟩, rfl⟩, h6⟩ := h
  have hside := side_eq r
  have hroute : (row, col) ∈ route r.side := by
    rw [hside]
    exact (mem_route_iff (by omega) row col).2 ⟨by omega, by omega, by omega⟩
  exact ⟨(row, col), List.mem_filter.2 ⟨hroute, by simp [hfree]⟩, rfl⟩

theorem sameWrites_placeWalk {s u : State} (hc : s.config.wf = true) (hcfg : u.config = s.config) {r : VersionRow}
    (hr : s.row = some r) (hru : u.row = some r) (hstream : ∀ j, j < r.total → s.elem .stream j = u.elem .stream j)
    (hrsv : SameRsv s u r) :
    SameWrites (WalkWrites s r) s.mem (placeWalk s r).1.mem u.mem (placeWalk u r).1.mem := by
  have hs := placeWalk_walked hc hr
  have hu := placeWalk_walked (hcfg ▸ hc) hru
  have hfree : u.freeOf (route r.side) = s.freeOf (route r.side) := hrsv.visited_eq.symm
  intro m j
  by_cases hm : m = .mat
  · subst hm
    by_cases hj : ∃ c ∈ s.freeOf (route r.side), j = cellIndex c.1 c.2
    · obtain ⟨c, hcell, rfl⟩ := hj
      obtain ⟨q, hq⟩ := List.getElem?_of_mem hcell
      have hwritten := hu.written q c (hfree ▸ hq)
      rw [placedByte, ← payloadBit_eq hstream] at hwritten
      exact .inl ⟨_, hs.written q c hq, hwritten⟩
    · have hout : ∀ c ∈ s.freeOf (route r.side), j ≠ cellIndex c.1 c.2 := fun c hcell hj' => hj ⟨c, hcell, hj'⟩
      have hrow := rowFacts hc hr
      exact .inr ⟨fun hw => hj (exists_visited_of_walkWrites ⟨hrow.version_pos, hrow.version_le⟩ hw),
        hs.kept j hout, hu.kept j (hfree ▸ hout)⟩
  · refine .inr ⟨fun ⟨⟨hmat, _⟩, _⟩ => hm hmat, ?_, ?_⟩
    · rw [Memory.get?, hs.others m hm, Memory.get?]
    · rw [Memory.get?, hu.others m hm, Memory.get?]

/-! ### The commands -/

/-- The elements a command may write whose values its inputs fix: all, but for the free cells of column 6. -/
def Determined (s : State) (i : Instr) (m : MemName) (j : Nat) : Prop := MayWrite s i m j ∧ (m = .mat → j % 256 ≠ 6)

theorem State.of_exists_row {s : State} {r : VersionRow} (hr : s.row = some r) {P : VersionRow → Prop}
    (h : ∃ r', s.row = some r' ∧ P r') : P r := by
  obtain ⟨r', hr', hP⟩ := h
  cases hr.symm.trans hr'
  exact hP

theorem fmtBody_alike {s u : State} (hcfg : u.config = s.config) (h : SameInputs .fmt s u) :
    Ran.Alike (Determined s .fmt) s u (fmtBody s) (fmtBody u) := by
  obtain ⟨hver, hlen, htext⟩ := h
  refine withVersion_alike hver (State.row_congr hcfg.symm hver) fun r hr => ?_
  rw [← hlen]
  split
  · exact .raised _ _ _ _
  · rename_i hcap
    obtain ⟨-, hfits⟩ := (exceedsCapacity_eq_false_iff _ _).1 (by simpa using hcap)
    have hwrites := sameWrites_afterFmt hlen htext hfits
    rw [afterFmt, afterFmt, ← hlen] at hwrites
    exact .ended (hwrites.mono fun m j ⟨hw, _⟩ => State.of_exists_row hr hw)

theorem rsdivBody_alike {s u : State} (hc : s.config.wf = true) (hcfg : u.config = s.config) {e blk : Nat}
    (h : SameInputs (.rsdiv e blk) s u) :
    Ran.Alike (Determined s (.rsdiv e blk)) s u (rsdivBody e blk s) (rsdivBody e blk u) := by
  obtain ⟨hsrc, hlen, hmsg⟩ := h
  have hbad : badOperands u e = badOperands s e := by rw [badOperands, badOperands, hcfg, hsrc, hlen]
  have hresult : rsdivResult u e = rsdivResult s e := by
    rw [rsdivResult, rsdivResult, hcfg, ← hsrc, ← hlen]
    exact rsdiv_congr _ _ _ fun j hj => (hmsg j hj).symm
  rw [rsdivBody, rsdivBody, hbad, hresult]
  split
  · exact .raised _ _ _ _
  · rename_i hok
    obtain ⟨hgen, -⟩ := (badOperands_eq_false_iff s e).1 (by simpa using hok)
    obtain ⟨g, hg⟩ := Option.isSome_iff_exists.1 hgen
    refine .ended (sameWrites_putAll _ _ fun m j ⟨⟨hm, hfrom, hto⟩, _⟩ => ⟨hm, hfrom, ?_⟩)
    rwa [rsdivResult_eq hg, rsdiv_length hc _ _ hg]

theorem rsencBody_alike {s u : State} (hc : s.config.wf = true) (hcfg : u.config = s.config) (h : SameInputs .rsenc s u) :
    Ran.Alike (Determined s .rsenc) s u (rsencBody s) (rsencBody u) := by
  obtain ⟨hver, hmsg⟩ := h
  have hrow := State.row_congr hcfg.symm hver
  exact withVersion_alike hver hrow fun r hr =>
    .ended ((sameWrites_rsencMemory hc hcfg hr (hrow.symm.trans hr) fun j => hmsg r j hr).mono
      fun m j ⟨hw, _⟩ => State.of_exists_row hr hw)

theorem ilvBody_alike {s u : State} (hc : s.config.wf = true) (hcfg : u.config = s.config) (h : SameInputs .ilv s u) :
    Ran.Alike (Determined s .ilv) s u (ilvBody s) (ilvBody u) := by
  obtain ⟨hver, hin⟩ := h
  refine withVersion_alike hver (State.row_congr hcfg.symm hver) fun r hr => ?_
  obtain ⟨hmsg, hecb⟩ := hin r hr
  exact .ended ((sameWrites_interleaved hc hr hmsg hecb).mono fun m j ⟨hw, _⟩ => State.of_exists_row hr hw)

theorem walkWrites_of_determined {s : State} {r : VersionRow} (hr : s.row = some r) {m : MemName} {j : Nat}
    (h : Determined s .place m j) : WalkWrites s r m j := by
  obtain ⟨hw, h6⟩ := h
  have hplace : PlaceWrites s r m j := State.of_exists_row hr hw
  exact ⟨hplace, h6 hplace.1⟩

theorem placeBody_alike {s u : State} (hc : s.config.wf = true) (hcfg : u.config = s.config) (h : SameInputs .place s u) :
    Ran.Alike (Determined s .place) s u (placeBody s) (placeBody u) := by
  obtain ⟨hver, hmask, hin⟩ := h
  have hrow := State.row_congr hcfg.symm hver
  refine withVersion_alike hver hrow fun r hr => ?_
  obtain ⟨hstream, hrsv⟩ := hin r hr
  rw [← hmask, ← hrsv.freeCount_eq]
  split
  · exact .raised _ _ _ _
  split
  · exact .raised _ _ _ _
  · exact .ended ((sameWrites_placeWalk hc hcfg hr (hrow.symm.trans hr) hstream hrsv).mono
      fun m j => walkWrites_of_determined hr)

/-- The first three stages of ENCODE write the same, each finding its inputs among what those before it wrote. -/
theorem sameWrites_afterIlv {s u : State} (hc : s.config.wf = true) (hcfg : u.config = s.config) {r : VersionRow}
    (hr : s.row = some r) (hru : u.row = some r) (hlen : s.tlen = u.tlen)
    (htext : ∀ j, j < s.tlen.toNat → s.elem .text j = u.elem .text j) (hfits : s.tlen.toNat + 2 ≤ r.dataCount) :
    SameWrites (fun m j => (FmtWrites r m j ∨ RsencWrites r m j) ∨ IlvWrites r m j) s.mem (afterIlv s r) u.mem
      (afterIlv u r) := by
  have hfmt := sameWrites_afterFmt hlen htext hfits
  have hrsenc := hfmt.trans (sameWrites_rsencMemory (s := s.setMem (afterFmt s r)) (u := u.setMem (afterFmt u r)) hc hcfg
    hr hru fun j hj => hfmt.elem_eq (.inl ⟨rfl, hj⟩))
  exact hrsenc.trans (sameWrites_interleaved (s := s.setMem (afterRsenc s r)) (u := u.setMem (afterRsenc u r)) hc hr
    (fun j hj => hrsenc.elem_eq (.inl (.inl ⟨rfl, hj⟩)))
    fun b i hb hi => hrsenc.elem_eq (.inl (.inr ⟨rfl, b, i, hb, hi, rfl⟩)))

/-- The first three stages of ENCODE leave the `rsv` plane. -/
theorem rsv_afterIlv (s : State) (r : VersionRow) (row col : Nat) :
    (s.setMem (afterIlv s r)).rsv row col = s.rsv row col :=
  State.rsv_eq_of_cells (s := s) (t := s.setMem (afterIlv s r)) rfl (afterIlv_mat s r) row col

/-- What ENCODE may write, its first three stages write or PLACE after them does. -/
theorem written_of_determined_encode {s : State} {r : VersionRow} (hr : s.row = some r) {m : MemName} {j : Nat}
    (h : Determined s .encode m j) :
    ((FmtWrites r m j ∨ RsencWrites r m j) ∨ IlvWrites r m j) ∨ Determined (s.setMem (afterIlv s r)) .place m j := by
  obtain ⟨hw, h6⟩ := h
  obtain hfmt | hrsenc | hilv | hplace := State.of_exists_row hr hw
  · exact .inl (.inl (.inl hfmt))
  · exact .inl (.inl (.inr hrsenc))
  · exact .inl (.inr hilv)
  · exact .inr ⟨⟨r, hr, placeWrites_of_rsv_eq (fun row col => (rsv_afterIlv s r row col).symm) hplace⟩, h6⟩

theorem encodeBody_alike {s u : State} (hc : s.config.wf = true) (hcfg : u.config = s.config)
    (h : SameInputs .encode s u) : Ran.Alike (Determined s .encode) s u (encodeBody s) (encodeBody u) := by
  obtain ⟨hver, hlen, hmask, htext, hrsv⟩ := h
  have hrow := State.row_congr hcfg.symm hver
  cases hr : s.row with
  | none =>
    rw [encodeBody_of_fmt_raised (withVersion_none hr _),
      encodeBody_of_fmt_raised (withVersion_none (hrow.symm.trans hr) _), hver]
    exact .raised _ _ _ _
  | some r =>
    have hru := hrow.symm.trans hr
    have hlen' : s.tlen.toNat = u.tlen.toNat := congrArg _ hlen
    by_cases hover : 255 < s.tlen.toNat ∨ r.dataCount < s.tlen.toNat + 2
    · rw [encodeBody_of_fmt_raised (fmtBody_over hr hover), encodeBody_of_fmt_raised (fmtBody_over hru (hlen' ▸ hover)),
        hlen']
      exact .raised _ _ _ _
    · have hbefore := sameWrites_afterIlv hc hcfg hr hru hlen htext (by omega)
      rw [encodeBody_ok hr (by omega) (by omega), encodeBody_ok hru (by omega) (by omega)]
      refine (placeBody_alike (s := s.setMem (afterIlv s r)) (u := u.setMem (afterIlv u r)) hc hcfg
        ⟨hver, hmask, fun r' hr' => ?_⟩).after hbefore fun m j => written_of_determined_encode hr
      cases hr.symm.trans hr'
      refine ⟨fun j hj => hbefore.elem_eq (.inl (.inr ⟨rfl, hj⟩)), fun row col hrow hcol => ?_⟩
      rw [rsv_afterIlv, rsv_afterIlv, hrsv r hr row col hrow hcol]

/-- On states that agree on a long command's inputs its pseudocode ends alike (70_reset_and_hazards.md R246). -/
theorem ranOf_alike {i : Instr} (hl : i.isLong = true) {s u : State} (hc : s.config.wf = true) (hcfg : u.config = s.config)
    (h : SameInputs i s u) : Ran.Alike (Determined s i) s u (ranOf i s) (ranOf i u) := by
  cases i with
  | fmt => exact fmtBody_alike hcfg h
  | rsdiv e blk => exact rsdivBody_alike hc hcfg h
  | rsenc => exact rsencBody_alike hc hcfg h
  | ilv => exact ilvBody_alike hc hcfg h
  | place => exact placeBody_alike hc hcfg h
  | encode => exact encodeBody_alike hc hcfg h
  | nop | clrerr | srst => cases hl

/-- Settles O55: the two ends of pseudocode that ends alike; a cell outside column 6 that the command may write is determined
by its inputs. -/
theorem commandsDependOnlyOnTheirInputs : Obligations.CommandsDependOnlyOnTheirInputs := by
  intro i s u t v hc hcfg _ hl hin ht hv
  rw [exec_long hl] at ht hv
  cases ht
  cases hv
  obtain ⟨hseq, hfault, helem⟩ := (ranOf_alike hl hc hcfg hin).finish
  refine ⟨hseq, hfault, fun hidle => ⟨fun m j hm hw => helem hidle m j ⟨hw, fun hmat => absurd hmat hm⟩,
    fun row col hw _ hcol h6 => ?_⟩⟩
  rw [State.dark, State.dark, cellIndex, helem hidle .mat _ ⟨hw, fun _ => by omega⟩]

/-! ### The same command again -/

/-- No command may write an element it depends on. -/
theorem sameInputs_of_keepsOutside {i : Instr} {s : State} {M : Memory}
    (h : KeepsOutside (MayWrite s i) s (s.setMem M)) : SameInputs i s (s.setMem M) := by
  have hkept : ∀ {m j}, ¬ MayWrite s i m j → s.elem m j = (s.setMem M).elem m j := fun hw => (h.elem_eq _ _ hw).symm
  have hrsv : ∀ r, SameRsv s (s.setMem M) r := fun r row col _ _ => (h.rsv_eq row col).symm
  cases i with
  | fmt => exact ⟨rfl, rfl, fun j _ => hkept fun ⟨_, _, hm, _⟩ => nomatch hm⟩
  | rsdiv e blk => exact ⟨rfl, rfl, fun j _ => hkept fun ⟨hm, _⟩ => nomatch hm⟩
  | rsenc => exact ⟨rfl, fun _ j _ _ => hkept fun ⟨_, _, hm, _⟩ => nomatch hm⟩
  | ilv =>
    have hout : ∀ {m j}, m ≠ .stream → s.elem m j = (s.setMem M).elem m j :=
      fun hne => hkept fun ⟨_, _, hm, _⟩ => hne hm
    exact ⟨rfl, fun r _ => ⟨fun j _ => hout nofun, fun b i _ _ => hout nofun⟩⟩
  | place => exact ⟨rfl, rfl, fun r _ => ⟨fun j _ => hkept fun ⟨_, _, hm, _⟩ => (nomatch hm), hrsv r⟩⟩
  | encode =>
    refine ⟨rfl, rfl, rfl, fun j _ => hkept ?_, fun r _ => hrsv r⟩
    rintro ⟨r, -, ⟨⟨⟩, -⟩ | ⟨⟨⟩, -⟩ | ⟨⟨⟩, -⟩ | ⟨⟨⟩, -⟩⟩
  | nop | clrerr | srst => trivial

/-- A long command that has ended ends with the same memories when it runs on them again. -/
theorem ranOf_ended_again {i : Instr} (hi : i.wellFormed = true) (hl : i.isLong = true) {s : State}
    (hc : s.config.wf = true) (hw : s.mem.wf = true) {M : Memory} (h : ranOf i s = .ended M) :
    ranOf i (s.setMem M) = .ended M := by
  have hkeeps := ranOf_keepsOutside i hc
  have hwf := ranOf_wf hi hc hw
  rw [h, Ran.mem_ended] at hkeeps hwf
  have halike := ranOf_alike (u := s.setMem M) hl hc rfl (sameInputs_of_keepsOutside hkeeps)
  have hwf' := ranOf_wf (s := s.setMem M) hi hc hwf
  rw [h] at halike
  generalize ranOf i (s.setMem M) = r at halike hwf'
  cases halike with
  | ended hsame => exact congrArg Ran.ended (Memory.ext_get? hwf' hwf hsame.get?_eq)

/-- Settles O56: the second run ends with the memories it began with, and writes the flags the first one wrote. -/
theorem longCommandsAreIdempotent : Obligations.LongCommandsAreIdempotent := by
  intro i s t u hc hi hl hw ht hidle hu
  rw [exec_long hl] at ht
  cases ht
  cases hran : ranOf i s with
  | raised M c info =>
    rw [hran] at hidle
    cases hidle
  | ended M =>
    rw [hran, State.finish_ended, exec_complete hl, ranOf_ended_again hi hl hc hw hran] at hu
    cases hu
    rfl

end Sys2Proof.Machine
end
